-- ==== Sys2Proof/Word.lean ====
section
/-!
DEFINITION. The two word types of the unit and nothing else: a 32-bit word (`XLEN` = `AW` = 32, 00_scope.md R6, R8) and a byte.
All arithmetic on `Word` is BitVec arithmetic, which is R9's: `+ - *` modulo 2^32, `/ %` unsigned, `<<<` logical and truncated.
-/
namespace Sys2Proof

/-- A register word, a bus data word or a byte address (00_scope.md R6, R8; 20_memory.md R50). -/
abbrev Word := BitVec 32

/-- A byte of buffer memory or of the transmit stream (10_state.md R26; 20_memory.md R52). -/
abbrev Byte := BitVec 8

end Sys2Proof
end

