-- ==== Sys2Proof/Syntax.lean ====
section
/-!
DEFINITION. The commands of the unit: one constructor of `Instr` for each row of spec/opcode_table.json (30_encoding.md R75),
with the operands of 30_encoding.md R71 to R73 in the widths given there.
-/
namespace Sys2Proof

/-- The eight hardware roles of a pin (10_state.md R30); the order is the ordinal of R31's first column. -/
inductive GpioFunction where
  | input | output | alt0 | alt1 | alt2 | alt3 | alt4 | alt5
deriving DecidableEq, Repr

/-- The three pull modes (10_state.md R33); ordinals 3 to 7 name no mode. -/
inductive PullMode where
  | none | pullUp | pullDown
deriving DecidableEq, Repr

/-- A command (30_encoding.md R70 to R75). The pin operands are the 8 bits of `PIN` (R73: values above `MAX_PIN` are legal). -/
inductive Instr where
  /-- SETFIELD (R95): `BANK`, `INDEX`, `VALUE`, field width `W` (2 bits, 0 is ill-formed), `MAXIDX`. -/
  | setfield (bank index value : Word) (w : BitVec 2) (maxidx : Word)
  /-- FSEL (R111). -/
  | fsel (pin : BitVec 8) (function : GpioFunction)
  /-- SETHIGH (R114). -/
  | sethigh (pin : BitVec 8)
  /-- SETLOW (R116). -/
  | setlow (pin : BitVec 8)
  /-- PULL (R119). -/
  | pull (pin : BitVec 8) (mode : PullMode)
  /-- ALT5 (R122). -/
  | alt5 (pin : BitVec 8)
  /-- UINIT (R146). -/
  | uinit
  /-- URDY (R149). -/
  | urdy
  /-- USEND (R152). -/
  | usend (byte : Byte)
  /-- UTEXT (R156): the byte address of the text. -/
  | utext (buf : Word)
deriving DecidableEq, Repr

end Sys2Proof
end

