-- ==== Sys2Proof/WellFormed.lean ====
section
/-!
DEFINITION. Well-formed commands. The operand types rule out every other illegal operand (PULL with a reserved mode has no
term); the one check left is the field width of SETFIELD, which is 1, 2 or 3 (00_scope.md R7; 30_encoding.md R77 item 3).
-/
namespace Sys2Proof

/-- A command some word sequence encodes: SETFIELD's width is not 0 (30_encoding.md R73, R77 item 3). -/
def Instr.wf : Instr → Bool
  | .setfield _ _ _ w _ => w != 0
  | .fsel _ _ => true
  | .sethigh _ => true
  | .setlow _ => true
  | .pull _ _ => true
  | .alt5 _ => true
  | .uinit => true
  | .urdy => true
  | .usend _ => true
  | .utext _ => true

end Sys2Proof
end

