-- ==== Sys2Proof/Decode.lean ====
section
/-!
DEFINITION. The command encoding (30_encoding.md): the opcode map as a table of rows, the decoder from the words on the command
port to a command or a named rejection, the encoder, and the host's reading of an opcode-table word.
-/
namespace Sys2Proof

/-! ## Operand fields of word 0 -/

/-- `OPC` = bits 3:0 (30_encoding.md R71). -/
def fieldOpc (w0 : Word) : BitVec 4 := w0.extractLsb' 0 4

/-- `PIN` = bits 15:8 (R71, R79). -/
def fieldPin (w0 : Word) : BitVec 8 := w0.extractLsb' 8 8

/-- `BYTE` = bits 15:8, the same bits as `PIN` (R71, R79). -/
def fieldByte (w0 : Word) : Byte := w0.extractLsb' 8 8

/-- `W` = bits 17:16 (R71, R79). -/
def fieldW (w0 : Word) : BitVec 2 := w0.extractLsb' 16 2

/-- `VAL` = bits 18:16 (R71, R79). -/
def fieldVal (w0 : Word) : BitVec 3 := w0.extractLsb' 16 3

/-! ## Ordinals of the named operands -/

/-- The function ordinal, FSEL's `VAL` (10_state.md R31, second column). -/
def GpioFunction.ordinal : GpioFunction → BitVec 3
  | .input => 0
  | .output => 1
  | .alt0 => 2
  | .alt1 => 3
  | .alt2 => 4
  | .alt3 => 5
  | .alt4 => 6
  | .alt5 => 7

/-- The function an ordinal names; all eight values are legal (30_encoding.md R73). -/
def GpioFunction.ofOrdinal (v : BitVec 3) : GpioFunction :=
  if v = 0 then .input
  else if v = 1 then .output
  else if v = 2 then .alt0
  else if v = 3 then .alt1
  else if v = 4 then .alt2
  else if v = 5 then .alt3
  else if v = 6 then .alt4
  else .alt5

/-- The pull-mode ordinal, PULL's `VAL` (10_state.md R33, second column). -/
def PullMode.ordinal : PullMode → BitVec 3
  | .none => 0
  | .pullUp => 1
  | .pullDown => 2

/-- The pull mode an ordinal names; 3 to 7 name none (10_state.md R33; 30_encoding.md R77 item 4). -/
def PullMode.ofOrdinal? (v : BitVec 3) : Option PullMode :=
  if v = 0 then some .none
  else if v = 1 then some .pullUp
  else if v = 2 then some .pullDown
  else Option.none

/-! ## The opcode map -/

/-- The ten operations of the opcode map (30_encoding.md R75). -/
inductive Operation where
  | setfield | fsel | sethigh | setlow | pull | alt5 | uinit | urdy | usend | utext
deriving DecidableEq, Repr

/-- One row of the opcode map: word 0 selects the row when `w0 &&& mask = pattern` (30_encoding.md R75). -/
structure OpcodeRow where
  op : Operation
  mask : Word
  pattern : Word
deriving DecidableEq, Repr

/-- The opcode map (30_encoding.md R75; spec/opcode_table.json). The masks state R71's must-be-zero bits. -/
def opcodeTable : List OpcodeRow :=
  [ ⟨.setfield, 0xFFFCFFFF, 0x00000001⟩,
    ⟨.fsel,     0xFFF800FF, 0x00000002⟩,
    ⟨.sethigh,  0xFFFF00FF, 0x00000003⟩,
    ⟨.setlow,   0xFFFF00FF, 0x00000004⟩,
    ⟨.pull,     0xFFF800FF, 0x00000005⟩,
    ⟨.alt5,     0xFFFF00FF, 0x00000006⟩,
    ⟨.uinit,    0xFFFFFFFF, 0x00000007⟩,
    ⟨.urdy,     0xFFFFFFFF, 0x00000008⟩,
    ⟨.usend,    0xFFFF00FF, 0x00000009⟩,
    ⟨.utext,    0xFFFFFFFF, 0x0000000A⟩ ]

/-- Does word 0 select the row? -/
def OpcodeRow.selects (r : OpcodeRow) (w0 : Word) : Bool := w0 &&& r.mask == r.pattern

/-- The row word 0 selects, if any. -/
def selectedRow (w0 : Word) : Option OpcodeRow := opcodeTable.find? (·.selects w0)

/-! ## Decoding -/

/-- Which item of 30_encoding.md R77 refuses a command word. -/
inductive IllegalReason where
  /-- Item 1: `OPC` is 0x0 or 0xB to 0xF. -/
  | reservedOpcode
  /-- Item 2: a bit that must be 0 for this opcode is 1. -/
  | reservedBit
  /-- Item 3: SETFIELD with `W` = 0. -/
  | widthZero
  /-- Item 4: PULL with `VAL` of 3 or more. -/
  | pullModeReserved
deriving DecidableEq, Repr

/-- What the decoder reads from the command port. -/
inductive Decoded where
  /-- A command, and the words after it. -/
  | command (i : Instr) (rest : List Word)
  /-- Word 0 is refused (R77), whatever follows it. -/
  | illegal (word0 : Word) (why : IllegalReason)
  /-- No word is there, or operand words that the opcode requires are not there yet (assumption 7). -/
  | incomplete
deriving DecidableEq, Repr

/-- R77 item 1. -/
def isReservedOpcode (w0 : Word) : Bool := fieldOpc w0 == 0 || 0xB#4 ≤ fieldOpc w0

/-- The operands of a selected row (30_encoding.md R72, R73, R79), with the further conditions of R75 (R77 items 3 and 4)
checked before any operand word is read. -/
def decodeOperands (op : Operation) (w0 : Word) (ws : List Word) : Decoded :=
  match op with
  | .setfield =>
    if fieldW w0 = 0 then .illegal w0 .widthZero
    else
      match ws with
      | bank :: index :: value :: maxidx :: rest => .command (.setfield bank index value (fieldW w0) maxidx) rest
      | _ => .incomplete
  | .fsel => .command (.fsel (fieldPin w0) (GpioFunction.ofOrdinal (fieldVal w0))) ws
  | .sethigh => .command (.sethigh (fieldPin w0)) ws
  | .setlow => .command (.setlow (fieldPin w0)) ws
  | .pull =>
    match PullMode.ofOrdinal? (fieldVal w0) with
    | some mode => .command (.pull (fieldPin w0) mode) ws
    | none => .illegal w0 .pullModeReserved
  | .alt5 => .command (.alt5 (fieldPin w0)) ws
  | .uinit => .command .uinit ws
  | .urdy => .command .urdy ws
  | .usend => .command (.usend (fieldByte w0)) ws
  | .utext =>
    match ws with
    | buf :: rest => .command (.utext buf) rest
    | [] => .incomplete

/-- Decode the command at the front of the command port (30_encoding.md R70, R76, R77): total, every word 0 either selects one
row or is refused by name. -/
def decode : List Word → Decoded
  | [] => .incomplete
  | w0 :: ws =>
    match selectedRow w0 with
    | some row => decodeOperands row.op w0 ws
    | none => .illegal w0 (if isReservedOpcode w0 then .reservedOpcode else .reservedBit)

/-! ## Encoding -/

/-- Word 0 from its fields (30_encoding.md R71, R80): bits 18:16, bits 15:8, bits 3:0. -/
def commandWord (val : BitVec 3) (pin : BitVec 8) (opc : BitVec 4) : Word :=
  (val.setWidth 32 <<< 16) ||| (pin.setWidth 32 <<< 8) ||| opc.setWidth 32

/-- Word 0 of a command (30_encoding.md R80). -/
def Instr.word0 : Instr → Word
  | .setfield _ _ _ w _ => commandWord (w.setWidth 3) 0 0x1
  | .fsel pin f => commandWord f.ordinal pin 0x2
  | .sethigh pin => commandWord 0 pin 0x3
  | .setlow pin => commandWord 0 pin 0x4
  | .pull pin m => commandWord m.ordinal pin 0x5
  | .alt5 pin => commandWord 0 pin 0x6
  | .uinit => commandWord 0 0 0x7
  | .urdy => commandWord 0 0 0x8
  | .usend b => commandWord 0 b 0x9
  | .utext _ => commandWord 0 0 0xA

/-- The operand words of a command (30_encoding.md R72). -/
def Instr.operandWords : Instr → List Word
  | .setfield bank index value _ maxidx => [bank, index, value, maxidx]
  | .fsel _ _ => []
  | .sethigh _ => []
  | .setlow _ => []
  | .pull _ _ => []
  | .alt5 _ => []
  | .uinit => []
  | .urdy => []
  | .usend _ => []
  | .utext buf => [buf]

/-- The words of a command on the command port (30_encoding.md R70, R80). -/
def encode (i : Instr) : List Word := i.word0 :: i.operandWords

/-- The length of a command in words, a function of `OPC` alone (30_encoding.md R76); a refused word counts as one. -/
def commandLength (w0 : Word) : Nat :=
  if fieldOpc w0 = 0x1 then 5 else if fieldOpc w0 = 0xA then 2 else 1

/-! ## The host's reading of an opcode-table row -/

/-- The five words of an opcode-table word `w` of `nbits` bits, first word first, the bits above `nbits` zero. -/
def tableWords (nbits w : Nat) : List Word :=
  let v := w % 2 ^ nbits
  [BitVec.ofNat 32 v, BitVec.ofNat 32 (v >>> 32), BitVec.ofNat 32 (v >>> 64), BitVec.ofNat 32 (v >>> 96),
    BitVec.ofNat 32 (v >>> 128)]

/-- The command the decoder reads from an opcode-table word, none where it refuses. -/
def decodeTableWord (nbits w : Nat) : Option Instr :=
  match decode (tableWords nbits w) with
  | .command i _ => some i
  | .illegal _ _ => none
  | .incomplete => none

end Sys2Proof
end

