-- ==== Sys2Proof/Config.lean ====
section
/-!
DEFINITION. The named parameters of the unit (00_scope.md R6; 92_eei_decisions.md, the rows marked OPEN) as one record of plain
data, and the one free value of the model. A parameter has a value for the whole run: State carries the record and no step
writes it, so a claim over all states is a claim over all parameter values. The default values stand in Machine/Params.lean.
-/
namespace Sys2Proof

/-- What a bus access does at a device address (10_state.md R28). The set and clear registers carry their number `k`. -/
inductive RegClass where
  /-- A 32-bit cell. -/
  | storage
  /-- GPSETk, a write-only action register (R34). -/
  | setReg (k : Nat)
  /-- GPCLRk, a write-only action register (R35). -/
  | clrReg (k : Nat)
  /-- AUX_MU_IIR, a write action (R39). -/
  | iir
  /-- AUX_MU_IO, transmit data (R37). -/
  | txData
  /-- AUX_MU_LSR, status (R43). -/
  | status
deriving DecidableEq, Repr

/-- The auxiliary UART registers by name (10_state.md R27, section 3.4). -/
inductive AuxReg where
  | enables | io | ier | iir | lcr | mcr | lsr | cntl | baud
deriving DecidableEq, Repr

/-- `PERIPHERAL_BASE` and every offset below it (00_scope.md R6; 92_eei_decisions.md D9). -/
structure AddressMap where
  peripheralBase : Word
  gpioOffset : Word
  auxOffset : Word
  gpfselOffset : Word
  gpsetOffset : Word
  gpclrOffset : Word
  gppuppdnOffset : Word
  enablesOffset : Word
  ioOffset : Word
  ierOffset : Word
  iirOffset : Word
  lcrOffset : Word
  mcrOffset : Word
  lsrOffset : Word
  cntlOffset : Word
  baudOffset : Word
deriving DecidableEq, Repr

/-- `FSEL_CODE`, the function-to-code table (10_state.md R31; 41_gpio.md R113: a table, never a formula). -/
structure FselTable where
  input : BitVec 3
  output : BitVec 3
  alt0 : BitVec 3
  alt1 : BitVec 3
  alt2 : BitVec 3
  alt3 : BitVec 3
  alt4 : BitVec 3
  alt5 : BitVec 3
deriving DecidableEq, Repr

/-- `PULL_CODE`, the pull-mode-to-code table (10_state.md R33). -/
structure PullTable where
  none : BitVec 2
  pullUp : BitVec 2
  pullDown : BitVec 2
deriving DecidableEq, Repr

/-- `SETCLR_READ`: what a read of a set or clear register returns (10_state.md R28; 92_eei_decisions.md D16). -/
inductive SetclrRead where
  | draw | zero
deriving DecidableEq, Repr

/-- The word an initialization write carries: a fixed word, or `DIVISOR` (42_uart.md R145, R147). -/
inductive InitValue where
  | literal (w : Word)
  | divisor
deriving DecidableEq, Repr

/-- One entry of `INIT_SEQ` (42_uart.md R145): a register write, or the four ALT5 accesses on a console pin. -/
inductive InitStep where
  | write (reg : AuxReg) (value : InitValue)
  | muxTx
  | muxRx
deriving DecidableEq, Repr

/-- The parameters of 00_scope.md R6 (`XLEN` and `AW` are fixed at 32; `BUFMEM` and the draws are fields of State). -/
structure Config where
  /-- `MAX_PIN` (D6). -/
  maxPin : Word
  /-- The bases and offsets (D9). -/
  addr : AddressMap
  /-- `DEVICE_MAP` (20_memory.md R57; D19): address and class, addresses rising. -/
  deviceMap : List (Nat × RegClass)
  /-- `FSEL_CODE` (D10). -/
  fselCode : FselTable
  /-- `PULL_CODE` (D11). -/
  pullCode : PullTable
  /-- `UART_CLOCK_HZ` (D12). -/
  uartClockHz : Word
  /-- `TARGET_BAUD` (00_scope.md R6). -/
  targetBaud : Word
  /-- `CONSOLE_TX_PIN` (D13). -/
  consoleTxPin : BitVec 8
  /-- `CONSOLE_RX_PIN` (D13). -/
  consoleRxPin : BitVec 8
  /-- `LSR_TX_READY_MASK` (D14). -/
  lsrTxReadyMask : Word
  /-- `SETCLR_READ` (D16). -/
  setclrRead : SetclrRead
  /-- `INIT_SEQ` (D15; 42_uart.md R145). -/
  initSeq : List InitStep
deriving DecidableEq, Repr

/-- FREE VALUE: the device environment's n-th answer to a read of a status or write-only register, under no law
(00_scope.md R11 `draw()`; 10_state.md R43). Nothing can evaluate it (assumption 4). -/
opaque Config.draw : Nat → BitVec 32

end Sys2Proof
end

