-- ==== Sys2Proof/Machine/Memory.lean ====
section
/-!
DEFINITION. Sparse data by address, in one canonical form: a list of (address, content) pairs with addresses strictly rising.
`Memory` is buffer memory (`BUFMEM`, 20_memory.md R58), bytes, where an unlisted address has no byte. `Cells` is the storage
registers of the device space (10_state.md R28), 32-bit cells, where an unlisted address holds 0 and no listed cell is 0.
-/
namespace Sys2Proof.Machine

/-! ## Association lists with rising keys -/

/-- The content at key `a`, if listed. -/
def assocFind {α : Type} : List (Nat × α) → Nat → Option α
  | [], _ => none
  | (b, v) :: rest, a => if a = b then some v else assocFind rest a

/-- The list with `v` at key `a`, put in rising order. -/
def assocInsert {α : Type} : List (Nat × α) → Nat → α → List (Nat × α)
  | [], a, v => [(a, v)]
  | (b, u) :: rest, a, v =>
    if a < b then (a, v) :: (b, u) :: rest
    else if a = b then (a, v) :: rest
    else (b, u) :: assocInsert rest a v

/-- The list without key `a`. -/
def assocErase {α : Type} : List (Nat × α) → Nat → List (Nat × α)
  | [], _ => []
  | (b, u) :: rest, a => if a = b then rest else (b, u) :: assocErase rest a

/-- Keys strictly rising. -/
def assocSorted {α : Type} : List (Nat × α) → Bool
  | [] => true
  | [_] => true
  | (a, _) :: (b, v) :: rest => decide (a < b) && assocSorted ((b, v) :: rest)

/-! ## Buffer memory -/

/-- `BUFMEM` (20_memory.md R58): the bytes the host has placed; an unlisted address is not readable. -/
abbrev Memory := List Host.Cell

/-- The canonical form: addresses strictly rising and within the 32-bit address space (20_memory.md R50). -/
def Memory.wf (m : Memory) : Bool := assocSorted m && m.all (fun c => decide (c.1 < 2 ^ 32))

/-- The byte at an address, none where the host placed none (20_memory.md R58). -/
def Memory.read (m : Memory) (a : Word) : Option Byte := assocFind m a.toNat

/-- The HOST's placing of one byte before a run (20_memory.md R58); no step of the unit calls it (R50: "The unit never writes
buffer memory"). -/
def Memory.place (m : Memory) (a : Word) (b : Byte) : Memory := assocInsert m a.toNat b

/-! ## Storage registers -/

/-- The contents of the storage registers (10_state.md R28), keyed by byte address. -/
abbrev Cells := List (Nat × BitVec 32)

/-- The canonical form: addresses strictly rising, within the address space, and no listed cell holding the unlisted value 0. -/
def Cells.wf (c : Cells) : Bool :=
  assocSorted c && c.all (fun e => decide (e.1 < 2 ^ 32) && e.2 != 0)

/-- The cell at an address; an unlisted one holds 0 (assumption 1). -/
def Cells.read (c : Cells) (a : Word) : Word := (assocFind c a.toNat).getD 0

/-- The cells with `v` at `a`; writing 0 removes the entry, so that equal contents are equal lists. -/
def Cells.write (c : Cells) (a v : Word) : Cells :=
  if v = 0 then assocErase c a.toNat else assocInsert c a.toNat v

end Sys2Proof.Machine
end

