-- ==== Sys2Proof/Machine/Params.lean ====
section
/-!
DEFINITION. The default values of the parameters (00_scope.md R6; 10_state.md R27, R31, R33; 42_uart.md R145), the addresses and
the divisor derived from a parameter record, and the constraints the spec puts on a record.
-/
namespace Sys2Proof

/-! ## Derived addresses (00_scope.md R6, 10_state.md R27) -/

/-- `GPIO_BASE`. -/
def Config.gpioBase (c : Config) : Word := c.addr.peripheralBase + c.addr.gpioOffset

/-- `AUX_BASE`. -/
def Config.auxBase (c : Config) : Word := c.addr.peripheralBase + c.addr.auxOffset

/-- `GPFSEL0`, base of the function-select bank. -/
def Config.gpfsel0 (c : Config) : Word := c.gpioBase + c.addr.gpfselOffset

/-- `GPSET0`, base of the set bank. -/
def Config.gpset0 (c : Config) : Word := c.gpioBase + c.addr.gpsetOffset

/-- `GPCLR0`, base of the clear bank. -/
def Config.gpclr0 (c : Config) : Word := c.gpioBase + c.addr.gpclrOffset

/-- `GPPUPPDN0`, base of the pull-control bank. -/
def Config.gppuppdn0 (c : Config) : Word := c.gpioBase + c.addr.gppuppdnOffset

/-- The offset of an auxiliary register within the auxiliary block. -/
def AddressMap.auxRegOffset (a : AddressMap) : AuxReg → Word
  | .enables => a.enablesOffset
  | .io => a.ioOffset
  | .ier => a.ierOffset
  | .iir => a.iirOffset
  | .lcr => a.lcrOffset
  | .mcr => a.mcrOffset
  | .lsr => a.lsrOffset
  | .cntl => a.cntlOffset
  | .baud => a.baudOffset

/-- The byte address of an auxiliary register. -/
def Config.aux (c : Config) (r : AuxReg) : Word := c.auxBase + c.addr.auxRegOffset r

/-! ## Tables -/

/-- The code `FSEL_CODE` gives a function (10_state.md R31). -/
def FselTable.code (t : FselTable) : GpioFunction → BitVec 3
  | .input => t.input
  | .output => t.output
  | .alt0 => t.alt0
  | .alt1 => t.alt1
  | .alt2 => t.alt2
  | .alt3 => t.alt3
  | .alt4 => t.alt4
  | .alt5 => t.alt5

/-- The code `PULL_CODE` gives a pull mode (10_state.md R33). -/
def PullTable.code (t : PullTable) : PullMode → BitVec 2
  | .none => t.none
  | .pullUp => t.pullUp
  | .pullDown => t.pullDown

/-- `DIVISOR = UART_CLOCK_HZ / (TARGET_BAUD * 8) - 1` in 32-bit unsigned arithmetic (42_uart.md R147). 00_scope.md R6 fixes
`TARGET_BAUD` at 115200 and R9 has no zero divisor; for a record, which `Config.wf` refuses, whose `TARGET_BAUD * 8` is 0 modulo 2^32
the quotient is 0 and `DIVISOR` 0xFFFFFFFF: DESIGN CHOICE, unsafe (assumption 18). -/
def Config.divisor (c : Config) : Word := c.uartClockHz / (c.targetBaud * 8) - 1

/-- The word an initialization write carries (42_uart.md R145). -/
def Config.initWord (c : Config) : InitValue → Word
  | .literal w => w
  | .divisor => c.divisor

/-- The class `DEVICE_MAP` gives an address, none where it is unmapped (20_memory.md R57). -/
def Config.classOf (c : Config) (a : Word) : Option RegClass := Machine.assocFind c.deviceMap a.toNat

/-- Does the byte address lie inside a device register (its word address is in `DEVICE_MAP`)? -/
def Config.isDeviceByte (c : Config) (a : Word) : Bool := (c.classOf (a &&& 0xFFFFFFFC)).isSome

/-! ## Default values -/

/-- The default bases and offsets (00_scope.md R6; general knowledge, 92_eei_decisions.md D9). -/
def AddressMap.default : AddressMap where
  peripheralBase := 0xFE000000
  gpioOffset := 0x200000
  auxOffset := 0x215000
  gpfselOffset := 0x00
  gpsetOffset := 0x1C
  gpclrOffset := 0x28
  gppuppdnOffset := 0xE4
  enablesOffset := 0x04
  ioOffset := 0x40
  ierOffset := 0x44
  iirOffset := 0x48
  lcrOffset := 0x4C
  mcrOffset := 0x50
  lsrOffset := 0x54
  cntlOffset := 0x60
  baudOffset := 0x68

/-- The GPIO registers of 10_state.md R27. -/
def gpioMap : List (Nat × RegClass) :=
  [ (0xFE200000, .storage), (0xFE200004, .storage), (0xFE200008, .storage),
    (0xFE20000C, .storage), (0xFE200010, .storage), (0xFE200014, .storage),
    (0xFE20001C, .setReg 0), (0xFE200020, .setReg 1),
    (0xFE200028, .clrReg 0), (0xFE20002C, .clrReg 1),
    (0xFE2000E4, .storage), (0xFE2000E8, .storage), (0xFE2000EC, .storage), (0xFE2000F0, .storage) ]

/-- The auxiliary registers of 10_state.md R27. -/
def auxMap : List (Nat × RegClass) :=
  [ (0xFE215004, .storage), (0xFE215040, .txData), (0xFE215044, .storage), (0xFE215048, .iir),
    (0xFE21504C, .storage), (0xFE215050, .storage), (0xFE215054, .status), (0xFE215060, .storage),
    (0xFE215068, .storage) ]

/-- The default `INIT_SEQ` (42_uart.md R145), steps 1 to 16 (a mux entry is four accesses). -/
def defaultInitSeq : List InitStep :=
  [ .write .enables (.literal 0x00000001), .write .ier (.literal 0x00000000), .write .cntl (.literal 0x00000000),
    .write .lcr (.literal 0x00000003), .write .mcr (.literal 0x00000000), .write .iir (.literal 0x000000C6),
    .write .baud .divisor, .muxTx, .muxRx, .write .cntl (.literal 0x00000003) ]

/-- The default parameters (00_scope.md R6). -/
def Config.default : Config where
  maxPin := 57
  addr := AddressMap.default
  deviceMap := gpioMap ++ auxMap
  fselCode := { input := 0, output := 1, alt0 := 4, alt1 := 5, alt2 := 6, alt3 := 7, alt4 := 3, alt5 := 2 }
  pullCode := { none := 0, pullUp := 1, pullDown := 2 }
  uartClockHz := 500000000
  targetBaud := 115200
  consoleTxPin := 14
  consoleRxPin := 15
  lsrTxReadyMask := 0x20
  setclrRead := .draw
  initSeq := defaultInitSeq

/-! ## Constraints on a parameter record -/

/-- The place of an entry in the source's order (42_uart.md R148): 1 the interrupt-disable write, 2 the frame-format write, 3 the
divisor write, 4 a console-pin access. The final enable write is apart (`initEnablesLast`), and 0 is an entry the source does not
order. By register, DESIGN CHOICE, assumption 17. -/
def InitStep.stage : InitStep → Nat
  | .write _ .divisor => 3
  | .write .baud (.literal _) => 3
  | .write .ier (.literal _) => 1
  | .write .lcr (.literal _) => 2
  | .write _ (.literal _) => 0
  | .muxTx => 4
  | .muxRx => 4

/-- Does a write of an ordered register do what its source step says, by the bits of 10_state.md R38, R40 and R45? The interrupt
enables off, 8-bit frames, `DIVISOR` to the divisor register; other bits are free (assumption 17). -/
def InitStep.fitsStage : InitStep → Bool
  | .write r .divisor => r == .baud
  | .write .baud (.literal _) => false
  | .write .ier (.literal w) => w &&& 0x3 == 0
  | .write .lcr (.literal w) => w &&& 0x1 == 1
  | .write _ (.literal _) => true
  | .muxTx => true
  | .muxRx => true

/-- Is the entry a write of AUX_MU_CNTL? -/
def InitStep.isCntl : InitStep → Bool
  | .write .cntl _ => true
  | .write _ _ => false
  | .muxTx => false
  | .muxRx => false

/-- Does the entry enable both the receive and the transmit path (10_state.md R44, bits 0 and 1)? -/
def InitStep.enables : InitStep → Bool
  | .write .cntl (.literal w) => w &&& 0x3 == 0x3
  | .write _ _ => false
  | .muxTx => false
  | .muxRx => false

/-- After the last console-pin access AUX_MU_CNTL is written, and its last write enables both paths (42_uart.md R148). -/
def initEnablesLast (l : List InitStep) : Bool :=
  ((l.reverse.takeWhile (·.stage != 4)).find? (·.isCntl)).any (·.enables)

/-- The constraint on an `INIT_SEQ` (42_uart.md R145, R148): it has every step of the source; the entries of an earlier step precede
every entry of a later one, so that the divisor is written before the FIRST console-pin access; the divisor is written once; and both
paths are enabled after EVERY console-pin access. Entries the source does not order may stand anywhere, and either console pin may
come first. -/
def initOrdered (l : List InitStep) : Bool :=
  decide (l.Pairwise fun x y => x.stage = 0 ∨ y.stage = 0 ∨ x.stage ≤ y.stage)
    && l.all (·.fitsStage)
    && l.any (·.stage == 1) && l.any (·.stage == 2) && (l.filter (·.stage == 3)).length == 1
    && l.contains .muxTx && l.contains .muxRx
    && initEnablesLast l

/-- The constraints the spec puts on the parameters: `MAX_PIN` is 57 or 53 and `TARGET_BAUD` 115200 (00_scope.md
R6), the bank bases are 4-byte aligned (10_state.md R27), `DEVICE_MAP` is a finite set of aligned addresses (20_memory.md R57), the
console pins are at most `MAX_PIN` (42_uart.md R142), and `INIT_SEQ` keeps the source's order (42_uart.md R145, R148). -/
def Config.wf (c : Config) : Bool :=
  (c.maxPin == 57 || c.maxPin == 53) && c.targetBaud == 115200
    && c.gpfsel0 % 4 == 0 && c.gpset0 % 4 == 0 && c.gpclr0 % 4 == 0 && c.gppuppdn0 % 4 == 0
    && Machine.assocSorted c.deviceMap
    && c.deviceMap.all (fun e => decide (e.1 % 4 = 0) && decide (e.1 < 2 ^ 32))
    && decide (c.consoleTxPin.setWidth 32 ≤ c.maxPin) && decide (c.consoleRxPin.setWidth 32 ≤ c.maxPin)
    && initOrdered c.initSeq

end Sys2Proof
end

