-- ==== Sys2Proof/Machine/State.lean ====
section
/-!
DEFINITION. The state of the unit and of the device register space (10_state.md), the reasons a step stops, and the state after
reset. INVENTORY.md, '## State', lists every field with the rule that names it.
-/
namespace Sys2Proof.Machine

/-- `uart_state`, one bit (10_state.md R24). -/
inductive UartState where
  | uninitialized | ready
deriving DecidableEq, Repr

/-- The operand latches (10_state.md R21, 30_encoding.md R74): a latch a command does not fill holds no value. -/
structure Latches where
  opc : Option (BitVec 4)
  pin : Option (BitVec 8)
  val : Option (BitVec 3)
  w : Option (BitVec 2)
  byte : Option Byte
  bank : Option Word
  index : Option Word
  value : Option Word
  maxidx : Option Word
  buf : Option Word
deriving DecidableEq, Repr

/-- No latch holds a value: between commands (10_state.md R21, R46). -/
def Latches.empty : Latches where
  opc := none
  pin := none
  val := none
  w := none
  byte := none
  bank := none
  index := none
  value := none
  maxidx := none
  buf := none

/-- The four accesses of ALT5 (41_gpio.md R122), each the next to perform; a write carries the word its read returned. -/
inductive Alt5Step where
  | pullRead
  | pullWrite (cur : Word)
  | fselRead
  | fselWrite (cur : Word)
deriving DecidableEq, Repr

/-- `seq` (10_state.md R22): the next micro-step of the command in flight, with the pseudocode variables it needs
(`cur` of 40_addressor.md R95, `p` and `b` of 42_uart.md R156). -/
inductive Seq where
  /-- Between commands. -/
  | idle
  /-- SETFIELD, FSEL, SETHIGH, SETLOW, PULL: step B of the read-modify-write (R95). -/
  | fieldWrite (cur : Word)
  /-- ALT5: one of its accesses (R122). -/
  | alt5 (next : Alt5Step)
  /-- UINIT: the entries of `INIT_SEQ` still to do, and, where the first is a console pin, which of its four accesses (R145). -/
  | init (todo : List InitStep) (next : Alt5Step)
  /-- USEND: poll the line status (R152). -/
  | sendPoll
  /-- USEND: write the data register (R152). -/
  | sendWrite
  /-- UTEXT: read the byte at `p` (R156). -/
  | textRead (p : Word)
  /-- UTEXT: poll before the carriage return of the line feed at `p`. -/
  | textPollCr (p : Word)
  /-- UTEXT: write the carriage return. -/
  | textWriteCr (p : Word)
  /-- UTEXT: poll before the byte `b` read at `p`. -/
  | textPoll (p : Word) (b : Byte)
  /-- UTEXT: write the byte `b` read at `p`. -/
  | textWrite (p : Word) (b : Byte)
deriving DecidableEq, Repr

/-- One event of the history (10_state.md R41): `(R, a, v)`, `(W, a, v)` or `(RB, a, b)`. -/
inductive Event where
  | read (a v : Word)
  | write (a v : Word)
  | byteRead (a : Word) (b : Byte)
deriving DecidableEq, Repr

/-- The value of the `fault` mark (10_state.md R49, 60_exceptions.md R172). -/
inductive FaultKind where
  | unmapped (addr : Word)
  | uartNotInitialized
  | uartReinitialized
deriving DecidableEq, Repr

/-- What set the `refused` mark (10_state.md R49, 60_exceptions.md R173). -/
inductive RefusalKind where
  | illegalCommand (word0 : Word)
  | readOfWriteOnlyAux (addr : Word)
  | writeOfStatus (addr : Word)
deriving DecidableEq, Repr

/-- The machine's state: plain data. -/
structure State where
  /-- The parameters (00_scope.md R6); no step writes them. -/
  cfg : Config
  /-- Operand latches (10_state.md R21). -/
  latches : Latches
  /-- The sequencer (10_state.md R22). -/
  seq : Seq
  /-- `uart_state` (10_state.md R24). -/
  uart : UartState
  /-- The response port (10_state.md R23): empty while a command is in flight. -/
  respPort : Option Word
  /-- The `fault` mark (10_state.md R49). -/
  fault : Option FaultKind
  /-- The `refused` mark with its reason (10_state.md R49); the spec's Boolean is `State.refused`. -/
  refusal : Option RefusalKind
  /-- Pin output latches (10_state.md R25): bit p is `OUT[p]`. -/
  out : BitVec 64
  /-- Storage registers of the device space (10_state.md R28). -/
  cells : Cells
  /-- The transmit stream (10_state.md R26), oldest byte first. -/
  tx : List Byte
  /-- The event history (10_state.md R41), oldest event first. -/
  hist : List Event
  /-- Buffer memory (20_memory.md R58). -/
  bufmem : Memory
  /-- HOST: the words it has presented on the command port and the unit has not taken (30_encoding.md R70). -/
  cmdPort : List Word
  /-- HOST: the responses it has read, oldest first (70_reset_and_hazards.md R203). -/
  responses : List Word
  /-- ENVIRONMENT (the model's own): answers already lined up for the next draws (00_scope.md R11). -/
  env : List Word
  /-- ENVIRONMENT (the model's own): how many draws beyond `env` have been taken from `Config.draw`. -/
  draws : Nat
deriving DecidableEq, Repr

/-- The spec's `refused : Bool` (10_state.md R49). -/
def State.refused (s : State) : Bool := s.refusal.isSome

/-- The host's command index: how many commands have completed (10_state.md R22). -/
def State.commandIndex (s : State) : Nat := s.responses.length

/-- `OUT[p]` (10_state.md R25). -/
def State.outPin (s : State) (p : Nat) : Bool := s.out.getLsbD p

/-- The contents of the storage register at a byte address (10_state.md R28). -/
def State.cell (s : State) (a : Word) : Word := s.cells.read a

/-- GPFSELk (10_state.md R29). -/
def State.gpfsel (s : State) (k : Nat) : Word := s.cell (s.cfg.gpfsel0 + 4 * BitVec.ofNat 32 k)

/-- GPPUPPDNk (10_state.md R32). -/
def State.gppuppdn (s : State) (k : Nat) : Word := s.cell (s.cfg.gppuppdn0 + 4 * BitVec.ofNat 32 k)

/-- A storage register of the auxiliary block by name (10_state.md R36, R38, R40, R42, R44, R45). -/
def State.auxReg (s : State) (r : AuxReg) : Word := s.cell (s.cfg.aux r)

/-- Why the machine stops with a fault (60_exceptions.md R172). Each carries the faulted state: the accesses made before the
fault stay in its history, their effects stay, and its `fault` mark is set. -/
inductive Fault where
  /-- Raised by a device access outside `DEVICE_MAP` and a byte read outside `BUFMEM` (20_memory.md R57, R58). SAFE: the device
  does something the spec gives no value to (92_eei_decisions.md D19). -/
  | unmapped (addr : Word) (final : State)
  /-- Raised by USEND and UTEXT before UINIT (42_uart.md R152, R156). SAFE: 92_eei_decisions.md D21. -/
  | uartNotInitialized (final : State)
  /-- Raised by UINIT after UINIT (42_uart.md R146). SAFE: 92_eei_decisions.md D22. -/
  | uartReinitialized (final : State)
deriving DecidableEq, Repr

/-- Why the model gives no meaning (60_exceptions.md R173). Each of the spec's three carries the refused state, its mark set. -/
inductive Refusal where
  /-- Raised by a refused arm of `exec` only; no arm is refused. SAFE. -/
  | notModelled (mnemonic : String)
  /-- Raised by the step at a command word R77 refuses, and by SETFIELD's meaning at the ill-formed width 0. SAFE: the encoding
  is the spec's own (92_eei_decisions.md D20, D33). -/
  | illegalCommand (word0 : Word) (final : State)
  /-- Raised by a device read of AUX_MU_IO or AUX_MU_IIR (20_memory.md R53), reached by SETFIELD only. SAFE: D17. -/
  | readOfWriteOnlyAux (addr : Word) (final : State)
  /-- Raised by a device write of AUX_MU_LSR (20_memory.md R53), reached by SETFIELD only. SAFE: D18. -/
  | writeOfStatus (addr : Word) (final : State)
  /-- Raised in states that are no state of the unit: the sequencer names a micro-step of another command than the one in the
  latches (assumption 9). SAFE: no run reaches one. -/
  | noSuchMicroStep
deriving DecidableEq, Repr

/-- The three outcomes of a step of this machine. -/
abbrev Out := Host.Outcome State Fault Refusal

/-- The state after reset (10_state.md R46, 70_reset_and_hazards.md R190). The model's own choices here: every device register and
pin latch, which the spec leaves unspecified, is 0 (DESIGN CHOICE, assumption 1; a launch with any other values is `State.Launch`);
the response port and the list of responses read, of which R46 says nothing, are empty (DESIGN CHOICE, assumption 10); so are the
command port (assumption 7) and the answers lined up, with no draw taken (assumption 4); the parameters have the spec's defaults
(assumption 2) and buffer memory is empty (assumption 6). -/
def State.reset : State where
  cfg := Config.default
  latches := Latches.empty
  seq := .idle
  uart := .uninitialized
  respPort := none
  fault := none
  refusal := none
  out := 0
  cells := []
  tx := []
  hist := []
  bufmem := []
  cmdPort := []
  responses := []
  env := []
  draws := 0

end Sys2Proof.Machine
end

