-- ==== Sys2Proof/Machine/Flags.lean ====
section
/-!
DEFINITION. The condition outputs of the unit. It has no flag register (10_state.md R48); its only condition output is the
response word (R23): the result code of the addressor and GPIO commands, and the ready bit of URDY.
-/
namespace Sys2Proof.Machine

/-- Result codes (60_exceptions.md R170). Code 3 is never produced. -/
inductive ResultCode where
  | ok | outOfRange | misaligned
deriving DecidableEq, Repr

/-- The response word of a result code (60_exceptions.md R170). -/
def ResultCode.word : ResultCode → Word
  | .ok => 0
  | .outOfRange => 1
  | .misaligned => 2

/-- The Boolean view: true on success (60_exceptions.md R170). -/
def ResultCode.success (rc : ResultCode) : Bool := rc.word == 0

/-- Does a line-status word have the transmit-ready bit (10_state.md R43, 42_uart.md R149)? -/
def txReady (c : Config) (lsr : Word) : Bool := lsr &&& c.lsrTxReadyMask != 0

/-- The response word of URDY (42_uart.md R149). -/
def readyWord (c : Config) (lsr : Word) : Word := if txReady c lsr then 1 else 0

end Sys2Proof.Machine
end

