-- ==== Sys2Proof/Machine/Operands.lean ====
section
/-!
DEFINITION. Operand forms: the latches each command fills and the command they hold, the addressor's mapping from (bank, index,
width) to (register address, bit shift) with its validation, and the pins a set or clear word names.
-/
namespace Sys2Proof.Machine

/-! ## Latches (10_state.md R21, 30_encoding.md R74) -/

/-- The opcode of a command (30_encoding.md R75). -/
def opcodeOf : Instr → BitVec 4
  | .setfield _ _ _ _ _ => 0x1
  | .fsel _ _ => 0x2
  | .sethigh _ => 0x3
  | .setlow _ => 0x4
  | .pull _ _ => 0x5
  | .alt5 _ => 0x6
  | .uinit => 0x7
  | .urdy => 0x8
  | .usend _ => 0x9
  | .utext _ => 0xA

/-- The latches a command fills (30_encoding.md R74); the others hold no value. -/
def latchesOf (i : Instr) : Latches :=
  let base := { Latches.empty with opc := some (opcodeOf i) }
  match i with
  | .setfield bank index value w maxidx =>
    { base with
      bank := some bank, index := some index, value := some value, w := some w, maxidx := some maxidx }
  | .fsel pin f => { base with pin := some pin, val := some f.ordinal }
  | .sethigh pin => { base with pin := some pin }
  | .setlow pin => { base with pin := some pin }
  | .pull pin m => { base with pin := some pin, val := some m.ordinal }
  | .alt5 pin => { base with pin := some pin }
  | .uinit => base
  | .urdy => base
  | .usend b => { base with byte := some b }
  | .utext buf => { base with buf := some buf }

/-- The command the latches hold, if they are the latches of one. -/
def latchedCommand (l : Latches) : Option Instr :=
  match l.opc with
  | none => none
  | some opc =>
    if opc = 0x1 then
      match l.bank, l.index, l.value, l.w, l.maxidx with
      | some bank, some index, some value, some w, some maxidx => some (.setfield bank index value w maxidx)
      | _, _, _, _, _ => none
    else if opc = 0x2 then
      match l.pin, l.val with
      | some pin, some v => some (.fsel pin (GpioFunction.ofOrdinal v))
      | _, _ => none
    else if opc = 0x3 then l.pin.map .sethigh
    else if opc = 0x4 then l.pin.map .setlow
    else if opc = 0x5 then
      match l.pin, l.val with
      | some pin, some v => (PullMode.ofOrdinal? v).map (.pull pin)
      | _, _ => none
    else if opc = 0x6 then l.pin.map .alt5
    else if opc = 0x7 then some .uinit
    else if opc = 0x8 then some .urdy
    else if opc = 0x9 then l.byte.map .usend
    else if opc = 0xA then l.buf.map .utext
    else none

/-! ## The addressor's mapping (40_addressor.md section 1) -/

/-- `field_mask(w) = (1 << w) - 1` (40_addressor.md R91). -/
def fieldMask (w : BitVec 2) : Word := (1#32 <<< w.toNat) - 1

/-- `fields_per_register(w) = 32 / w` (40_addressor.md R93). -/
def fieldsPerRegister (w : BitVec 2) : Word := 32 / w.setWidth 32

/-- `reg_addr(bank, index, w)` (40_addressor.md R93), modulo 2^32 (20_memory.md R59). -/
def regAddr (bank index : Word) (w : BitVec 2) : Word := bank + index / fieldsPerRegister w * 4

/-- `bit_shift(index, w)` (40_addressor.md R94). -/
def bitShift (index : Word) (w : BitVec 2) : Word := index % fieldsPerRegister w * w.setWidth 32

/-- `(cur & ~(mask << shift)) | (value << shift)` (40_addressor.md R95). -/
def insertField (cur mask value shift : Word) : Word :=
  (cur &&& ~~~(mask <<< shift.toNat)) ||| (value <<< shift.toNat)

/-- `validate(bank, index, value, w, maxidx)`: the first check that holds gives the result (40_addressor.md R92). -/
def validate (bank index value : Word) (w : BitVec 2) (maxidx : Word) : ResultCode :=
  if maxidx < index then .outOfRange
  else if fieldMask w < value then .outOfRange
  else if bank % 4 ≠ 0 then .misaligned
  else .ok

/-! ## Pins named by a set or clear word (10_state.md R34, R35) -/

/-- The `OUT` bits that exist: pins 0 to `MAX_PIN` (10_state.md R25). -/
def pinMask (maxPin : Word) : BitVec 64 := (1#64 <<< (maxPin.toNat + 1)) - 1

/-- The pins a word `v` written to GPSETk or GPCLRk acts on: pin `32k + i` for each 1 bit i, if at most `MAX_PIN`. -/
def actedPins (maxPin : Word) (k : Nat) (v : Word) : BitVec 64 :=
  (v.setWidth 64 <<< (32 * k)) &&& pinMask maxPin

end Sys2Proof.Machine
end

