-- ==== Sys2Proof/Machine/Ops.lean ====
section
/-!
DEFINITION. The named operations every meaning is written over: the two stops (60_exceptions.md R172, R173, the unit's whole
exception behaviour: it has no trap entry and no trap return, R174, R175), accepting a command and responding, the bus
primitives (00_scope.md R10; 20_memory.md R53, R58), the read-modify-write of the addressor, ALT5's four accesses and the
transmit-ready poll. A bus primitive takes what follows it as a function of the value read and the state.
-/
namespace Sys2Proof.Machine

/-! ## Stops -/

/-- `fault F(info)`: the command ends at this point with no response and the `fault` mark set (60_exceptions.md R172). -/
def faultWith (k : FaultKind) (s : State) : Out :=
  let final := { s with fault := some k }
  match k with
  | .unmapped a => .fault (.unmapped a final)
  | .uartNotInitialized => .fault (.uartNotInitialized final)
  | .uartReinitialized => .fault (.uartReinitialized final)

/-- `refuse R`: the model gives the command no meaning and the `refused` mark is set (60_exceptions.md R173). -/
def refuseWith (k : RefusalKind) (s : State) : Out :=
  let final := { s with refusal := some k }
  match k with
  | .illegalCommand w => .refused (.illegalCommand w final)
  | .readOfWriteOnlyAux a => .refused (.readOfWriteOnlyAux a final)
  | .writeOfStatus a => .refused (.writeOfStatus a final)

/-! ## The command and response ports -/

/-- Accept a command: its operands are latched and the response port is emptied (10_state.md R21, R23; 30_encoding.md R74). -/
def State.accept (s : State) (i : Instr) : State := { s with latches := latchesOf i, respPort := none }

/-- The sequencer moves to a micro-step (10_state.md R22). -/
def State.goto (s : State) (q : Seq) : State := { s with seq := q }

/-- `respond(v)`: the response word goes to the port, the host reads it, and the command ends: the sequencer is idle and no
latch holds a value (00_scope.md R11; 10_state.md R21 to R23). -/
def State.respond (s : State) (v : Word) : State :=
  { s with respPort := some v, responses := s.responses ++ [v], seq := .idle, latches := Latches.empty }

/-! ## The event history and the draws -/

/-- Append one event (10_state.md R41). -/
def State.record (s : State) (e : Event) : State := { s with hist := s.hist ++ [e] }

/-- `draw()` (00_scope.md R11): the environment's next answer. -/
def State.nextDraw (s : State) : Word :=
  match s.env with
  | v :: _ => v
  | [] => Config.draw s.draws

/-- The state after a draw. -/
def State.afterDraw (s : State) : State :=
  match s.env with
  | _ :: rest => { s with env := rest }
  | [] => { s with draws := s.draws + 1 }

/-- What a read of a set or clear register returns, per `SETCLR_READ` (10_state.md R28). -/
def State.setclrValue (s : State) : Word :=
  match s.cfg.setclrRead with
  | .draw => s.nextDraw
  | .zero => 0

/-- The state after a read of a set or clear register: one draw fewer, or the same. -/
def State.afterSetclrRead (s : State) : State :=
  match s.cfg.setclrRead with
  | .draw => s.afterDraw
  | .zero => s

/-! ## Bus primitives -/

/-- `MemRead(addr, 4)` (20_memory.md R53): by the class of the address. An unmapped address faults before the access is performed
or recorded (R57). -/
def memRead (addr : Word) (s : State) (k : Word → State → Out) : Out :=
  match s.cfg.classOf addr with
  | none => faultWith (.unmapped addr) s
  | some .storage => k (s.cell addr) (s.record (.read addr (s.cell addr)))
  | some (.setReg _) => k s.setclrValue (s.afterSetclrRead.record (.read addr s.setclrValue))
  | some (.clrReg _) => k s.setclrValue (s.afterSetclrRead.record (.read addr s.setclrValue))
  | some .status => k s.nextDraw (s.afterDraw.record (.read addr s.nextDraw))
  | some .iir => refuseWith (.readOfWriteOnlyAux addr) s
  | some .txData => refuseWith (.readOfWriteOnlyAux addr) s

/-- `MemWrite(addr, 4, v)` (20_memory.md R53): by the class of the address. -/
def memWrite (addr v : Word) (s : State) (k : State → Out) : Out :=
  match s.cfg.classOf addr with
  | none => faultWith (.unmapped addr) s
  | some .storage => k ({ s with cells := s.cells.write addr v }.record (.write addr v))
  | some (.setReg n) => k ({ s with out := s.out ||| actedPins s.cfg.maxPin n v }.record (.write addr v))
  | some (.clrReg n) => k ({ s with out := s.out &&& ~~~actedPins s.cfg.maxPin n v }.record (.write addr v))
  | some .txData => k ({ s with tx := s.tx ++ [v.setWidth 8] }.record (.write addr v))
  | some .iir => k (s.record (.write addr v))
  | some .status => refuseWith (.writeOfStatus addr) s

/-- `ByteRead(addr)` (20_memory.md R58): a byte of buffer memory; a byte of a device register is never one. -/
def byteRead (addr : Word) (s : State) (k : Byte → State → Out) : Out :=
  if s.cfg.isDeviceByte addr then faultWith (.unmapped addr) s
  else
    match s.bufmem.read addr with
    | some b => k b (s.record (.byteRead addr b))
    | none => faultWith (.unmapped addr) s

/-! ## The addressor's read-modify-write (40_addressor.md R95) -/

/-- Step A: read the register; the write follows in the next step. -/
def fieldRead (bank index : Word) (w : BitVec 2) (s : State) : Out :=
  memRead (regAddr bank index w) s fun cur s' => .next (s'.goto (.fieldWrite cur))

/-- Step B: write the register back with the field replaced, and respond OK. -/
def fieldWrite (bank index value : Word) (w : BitVec 2) (cur : Word) (s : State) : Out :=
  memWrite (regAddr bank index w) (insertField cur (fieldMask w) value (bitShift index w)) s fun s' =>
    .next (s'.respond ResultCode.ok.word)

/-- A GPIO command on one bank (41_gpio.md R110): the pin check, then the addressor's two steps. `i` is the command, for its
latches. -/
def gpioField (i : Instr) (bank : Word) (pin : BitVec 8) (value : Word) (w : BitVec 2) (s : State) : Out :=
  match s.seq with
  | .idle =>
    if s.cfg.maxPin < pin.setWidth 32 then .next ((s.accept i).respond ResultCode.outOfRange.word)
    else fieldRead bank (pin.setWidth 32) w (s.accept i)
  | .fieldWrite cur => fieldWrite bank (pin.setWidth 32) value w cur s
  | _ => .refused .noSuchMicroStep

/-! ## ALT5's accesses (41_gpio.md R122) -/

/-- One of the four accesses of `alt5(pin)`: `more` takes the access that follows, `done` the state after the last. -/
def alt5Access (pin : BitVec 8) (at_ : Alt5Step) (s : State) (more : Alt5Step → State → Out) (done : State → Out) : Out :=
  let p := pin.setWidth 32
  let pullAddr := regAddr s.cfg.gppuppdn0 p 2
  let fselAddr := regAddr s.cfg.gpfsel0 p 3
  match at_ with
  | .pullRead => memRead pullAddr s fun cur s' => more (.pullWrite cur) s'
  | .pullWrite cur =>
    memWrite pullAddr (insertField cur (fieldMask 2) ((s.cfg.pullCode.code .none).setWidth 32) (bitShift p 2)) s
      fun s' => more .fselRead s'
  | .fselRead => memRead fselAddr s fun cur s' => more (.fselWrite cur) s'
  | .fselWrite cur =>
    memWrite fselAddr (insertField cur (fieldMask 3) ((s.cfg.fselCode.code .alt5).setWidth 32) (bitShift p 3)) s done

/-! ## The transmit-ready poll (42_uart.md R150) -/

/-- One iteration of `wait_until_tx_ready`: one line-status read, then the micro-step that follows or the poll again. -/
def pollTxReady (ready again : Seq) (s : State) : Out :=
  memRead (s.cfg.aux .lsr) s fun lsr s' => .next (s'.goto (if txReady s.cfg lsr then ready else again))

end Sys2Proof.Machine
end

