-- ==== Sys2Proof/Machine/Addressor.lean ====
section
/-!
DEFINITION. The bitfield read-modify-write addressor (40_addressor.md): the meaning of SETFIELD. A meaning performs the next
micro-step of its command: from an idle sequencer it accepts the command and makes its checks and its first access; otherwise it
continues where the sequencer stands, one bus access a step (20_memory.md R55).
-/
namespace Sys2Proof.Machine

/-- SETFIELD (40_addressor.md R95). The ill-formed width 0 is refused before anything else (30_encoding.md R77 item 3). -/
def execSetfield (bank index value : Word) (w : BitVec 2) (maxidx : Word) (s : State) : Out :=
  if w = 0 then refuseWith (.illegalCommand (Instr.setfield bank index value w maxidx).word0) s
  else
    match s.seq with
    | .idle =>
      match validate bank index value w maxidx with
      | .ok => fieldRead bank index w (s.accept (.setfield bank index value w maxidx))
      | .outOfRange =>
        .next ((s.accept (.setfield bank index value w maxidx)).respond ResultCode.outOfRange.word)
      | .misaligned =>
        .next ((s.accept (.setfield bank index value w maxidx)).respond ResultCode.misaligned.word)
    | .fieldWrite cur => fieldWrite bank index value w cur s
    | _ => .refused .noSuchMicroStep

end Sys2Proof.Machine
end

