-- ==== Sys2Proof/Machine/Gpio.lean ====
section
/-!
DEFINITION. The GPIO pin multiplexer (41_gpio.md): the meanings of FSEL, SETHIGH, SETLOW, PULL and ALT5, each the addressor
applied to a fixed bank with the limit `MAX_PIN` (R110).
-/
namespace Sys2Proof.Machine

/-- FSEL (41_gpio.md R111): the code is looked up in `FSEL_CODE`, never computed (R113). -/
def execFsel (pin : BitVec 8) (f : GpioFunction) (s : State) : Out :=
  gpioField (.fsel pin f) s.cfg.gpfsel0 pin ((s.cfg.fselCode.code f).setWidth 32) 3 s

/-- SETHIGH (41_gpio.md R114). -/
def execSethigh (pin : BitVec 8) (s : State) : Out :=
  gpioField (.sethigh pin) s.cfg.gpset0 pin 1 1 s

/-- SETLOW (41_gpio.md R116). -/
def execSetlow (pin : BitVec 8) (s : State) : Out :=
  gpioField (.setlow pin) s.cfg.gpclr0 pin 1 1 s

/-- PULL (41_gpio.md R119). -/
def execPull (pin : BitVec 8) (m : PullMode) (s : State) : Out :=
  gpioField (.pull pin m) s.cfg.gppuppdn0 pin ((s.cfg.pullCode.code m).setWidth 32) 2 s

/-- ALT5 (41_gpio.md R122): pull none, then function alt5, four accesses. -/
def execAlt5 (pin : BitVec 8) (s : State) : Out :=
  let more := fun (m : Alt5Step) (s' : State) => Host.Outcome.next (s'.goto (.alt5 m))
  let done := fun (s' : State) => Host.Outcome.next (s'.respond ResultCode.ok.word)
  match s.seq with
  | .idle =>
    if s.cfg.maxPin < pin.setWidth 32 then .next ((s.accept (.alt5 pin)).respond ResultCode.outOfRange.word)
    else alt5Access pin .pullRead (s.accept (.alt5 pin)) more done
  | .alt5 m => alt5Access pin m s more done
  | _ => .refused .noSuchMicroStep

end Sys2Proof.Machine
end

