-- ==== Sys2Proof/Machine/Uart.lean ====
section
/-!
DEFINITION. The UART divisor programmer and transmit-ready poller (42_uart.md): the meanings of UINIT, URDY, USEND and UTEXT.
-/
namespace Sys2Proof.Machine

/-! ## UINIT (42_uart.md R145, R146) -/

/-- After an entry of `INIT_SEQ`: the next entry, or, after the last, `uart_state <- Ready` and the response 0 (R144, R146). -/
def initAfter (rest : List InitStep) (s : State) : Out :=
  match rest with
  | [] => .next ({ s with uart := .ready }.respond 0)
  | _ :: _ => .next (s.goto (.init rest .pullRead))

/-- One access of `INIT_SEQ`: the write of the first entry, or the access `at_` of the console pin it muxes (R145). -/
def initAccess (todo : List InitStep) (at_ : Alt5Step) (s : State) : Out :=
  match todo with
  | [] => initAfter [] s
  | .write r v :: rest => memWrite (s.cfg.aux r) (s.cfg.initWord v) s (initAfter rest)
  | .muxTx :: rest =>
    alt5Access s.cfg.consoleTxPin at_ s (fun m s' => .next (s'.goto (.init todo m))) (initAfter rest)
  | .muxRx :: rest =>
    alt5Access s.cfg.consoleRxPin at_ s (fun m s' => .next (s'.goto (.init todo m))) (initAfter rest)

/-- UINIT (42_uart.md R146). -/
def execUinit (s : State) : Out :=
  match s.seq with
  | .idle =>
    match s.uart with
    | .ready => faultWith .uartReinitialized (s.accept .uinit)
    | .uninitialized => initAccess s.cfg.initSeq .pullRead (s.accept .uinit)
  | .init todo at_ => initAccess todo at_ s
  | _ => .refused .noSuchMicroStep

/-! ## URDY (42_uart.md R149) -/

/-- URDY: one line-status read, legal in either `uart_state`. -/
def execUrdy (s : State) : Out :=
  match s.seq with
  | .idle => memRead (s.cfg.aux .lsr) (s.accept .urdy) fun lsr s' => .next (s'.respond (readyWord s.cfg lsr))
  | _ => .refused .noSuchMicroStep

/-! ## USEND (42_uart.md R152) -/

/-- USEND: poll until ready, then write the byte zero-extended; no newline translation (R153). -/
def execUsend (b : Byte) (s : State) : Out :=
  match s.seq with
  | .idle =>
    match s.uart with
    | .uninitialized => faultWith .uartNotInitialized (s.accept (.usend b))
    | .ready => pollTxReady .sendWrite .sendPoll (s.accept (.usend b))
  | .sendPoll => pollTxReady .sendWrite .sendPoll s
  | .sendWrite => memWrite (s.cfg.aux .io) (b.setWidth 32) s fun s' => .next (s'.respond 0)
  | _ => .refused .noSuchMicroStep

/-! ## UTEXT (42_uart.md R156) -/

/-- Read the byte at `p`: the terminator ends the command, a line feed is preceded by a carriage return (R154, R155). -/
def textByte (p : Word) (s : State) : Out :=
  byteRead p s fun b s' =>
    if b = 0x00 then .next (s'.respond 0)
    else if b = 0x0A then .next (s'.goto (.textPollCr p))
    else .next (s'.goto (.textPoll p b))

/-- UTEXT: transmit a null-terminated text with LF-to-CRLF translation. -/
def execUtext (buf : Word) (s : State) : Out :=
  match s.seq with
  | .idle =>
    match s.uart with
    | .uninitialized => faultWith .uartNotInitialized (s.accept (.utext buf))
    | .ready => textByte buf (s.accept (.utext buf))
  | .textRead p => textByte p s
  | .textPollCr p => pollTxReady (.textWriteCr p) (.textPollCr p) s
  | .textWriteCr p => memWrite (s.cfg.aux .io) 0x0000000D s fun s' => .next (s'.goto (.textPoll p 0x0A))
  | .textPoll p b => pollTxReady (.textWrite p b) (.textPoll p b) s
  | .textWrite p b =>
    memWrite (s.cfg.aux .io) (b.setWidth 32) s fun s' => .next (s'.goto (.textRead (p + 1)))
  | _ => .refused .noSuchMicroStep

end Sys2Proof.Machine
end

