-- ==== Sys2Proof/Machine/Dispatch.lean ====
section
/-!
DEFINITION. The meaning of each command: `exec i s` is the next micro-step of command `i` in state `s` (10_state.md R22).
-/
namespace Sys2Proof.Machine

-- One arm per row of spec/opcode_table.json.
def exec (i : Instr) (s : State) : Host.Outcome State Fault Refusal :=
  match i with
  | .setfield bank index value w maxidx => Sys2Proof.Machine.execSetfield bank index value w maxidx s
  | .fsel pin f => Sys2Proof.Machine.execFsel pin f s
  | .sethigh pin => Sys2Proof.Machine.execSethigh pin s
  | .setlow pin => Sys2Proof.Machine.execSetlow pin s
  | .pull pin m => Sys2Proof.Machine.execPull pin m s
  | .alt5 pin => Sys2Proof.Machine.execAlt5 pin s
  | .uinit => Sys2Proof.Machine.execUinit s
  | .urdy => Sys2Proof.Machine.execUrdy s
  | .usend b => Sys2Proof.Machine.execUsend b s
  | .utext buf => Sys2Proof.Machine.execUtext buf s

end Sys2Proof.Machine
end

