-- ==== Sys2Proof/Machine/Fetch.lean ====
section
/-!
DEFINITION. Taking a command from the command port (30_encoding.md R70, R76): what the step fetches, and the host's placing of
an opcode-table word there.
-/
namespace Sys2Proof.Machine

/-- What stands at the front of the command port. -/
def State.fetch (s : State) : Decoded := decode s.cmdPort

/-- The command's words are taken from the command port. -/
def State.take (s : State) (rest : List Word) : State := { s with cmdPort := rest }

/-- The words of the command an opcode-table word gives: as many as its opcode requires (30_encoding.md R76). -/
def commandWords (nbits w : Nat) : List Word :=
  let ws := tableWords nbits w
  ws.take (commandLength (ws.headD 0))

/-- The state in which the next step takes exactly these words: an idle unit, no mark, the words at the front of the port. -/
def State.present (s : State) (ws : List Word) : State :=
  { s with
    cmdPort := ws ++ s.cmdPort
    seq := .idle
    latches := Latches.empty
    fault := none
    refusal := none }

end Sys2Proof.Machine
end

