-- ==== Sys2Proof/Machine/Step.lean ====
section
/-!
DEFINITION. One step of the unit (10_state.md R20, R22; 20_memory.md R55): a marked state accepts nothing (R49), an idle unit takes
the next command from the port, or waits where none is there, and a busy unit performs the next micro-step of the command its
latches hold.
-/
namespace Sys2Proof.Machine

/-- An idle unit: run the command at the front of the port, refuse an illegal word before any operand word is read
(30_encoding.md R77), or wait (70_reset_and_hazards.md R190). -/
def stepIdle (s : State) : Host.Outcome State Fault Refusal :=
  match s.fetch with
  | .command i rest => exec i (s.take rest)
  | .illegal w0 _ => refuseWith (.illegalCommand w0) s
  | .incomplete => .next s

/-- A busy unit: the next micro-step of the latched command (10_state.md R22). -/
def stepBusy (s : State) : Host.Outcome State Fault Refusal :=
  match latchedCommand s.latches with
  | some i => exec i s
  | none => .refused .noSuchMicroStep

/-- One step. A marked state is never left (10_state.md R49, 60_exceptions.md R172, R173). -/
def step (s : State) : Host.Outcome State Fault Refusal :=
  match s.fault, s.refusal with
  | some k, _ => faultWith k s
  | none, some r => refuseWith r s
  | none, none => if s.seq = .idle then stepIdle s else stepBusy s

/-- The state whose very next step runs the instruction of an opcode-table word (assumption 7: the host presents it on the
command port). -/
def State.withFetchWord (s : State) (nbits w : Nat) : State := s.present (commandWords nbits w)

end Sys2Proof.Machine
end

