-- ==== Sys2Proof/Safety.lean ====
section
/-!
DEFINITION. The terms claims about runs use: repeated micro-steps of one command, launch states (10_state.md R46), the invariant
of every state a run reaches, the draws to come and the hypothesis behind `TX_EVENTUALLY_READY` (42_uart.md R151), the text at an
address and its translation (R154, R155), what a history says of the device (20_memory.md R61), and how a run ends
(70_reset_and_hazards.md R203).
-/
namespace Sys2Proof

/-! ## Parameters -/

/-- How many draws a read of a set or clear register takes, per `SETCLR_READ` (10_state.md R28). -/
def Config.setclrDraws (c : Config) : Nat := if c.setclrRead = .draw then 1 else 0

/-- The UART registers that transmission reaches have the classes of 10_state.md R27. -/
def Config.HasUart (c : Config) : Prop :=
  c.classOf (c.aux .lsr) = some .status ∧ c.classOf (c.aux .io) = some .txData

end Sys2Proof

namespace Sys2Proof.Machine

/-! ## Running one command -/

/-- `n` micro-steps of command `i`, stopping at the first fault or refusal. -/
def execFor (i : Instr) : Nat → State → Out
  | 0, s => .next s
  | n + 1, s =>
    match exec i s with
    | .next s' => execFor i n s'
    | .fault r => .fault r
    | .refused r => .refused r

/-- No `fault` and no `refused` mark (10_state.md R49). -/
def State.Unmarked (s : State) : Prop := s.fault = none ∧ s.refusal = none

/-! ## Comparing two commands -/

/-- The state but for the operand latches. -/
def State.sansLatches (s : State) : State := { s with latches := Latches.empty }

/-- An outcome but for the operand latches of the state it carries. -/
def outSansLatches : Out → Out
  | .next s => .next s.sansLatches
  | .fault (.unmapped a s) => .fault (.unmapped a s.sansLatches)
  | .fault (.uartNotInitialized s) => .fault (.uartNotInitialized s.sansLatches)
  | .fault (.uartReinitialized s) => .fault (.uartReinitialized s.sansLatches)
  | .refused (.illegalCommand w s) => .refused (.illegalCommand w s.sansLatches)
  | .refused (.readOfWriteOnlyAux a s) => .refused (.readOfWriteOnlyAux a s.sansLatches)
  | .refused (.writeOfStatus a s) => .refused (.writeOfStatus a s.sansLatches)
  | o => o

/-! ## Responses (10_state.md R23) -/

/-- The state after a command that answers `v` and does nothing else: the operands were latched and dropped again. -/
def State.answered (s : State) (v : Word) : State :=
  { s with latches := Latches.empty, seq := .idle, respPort := some v, responses := s.responses ++ [v] }

/-! ## The draws to come -/

/-- The `k`-th answer the environment has still to give: first those lined up, then the free value. -/
def State.futureDraw (s : State) (k : Nat) : Word :=
  if k < s.env.length then s.env.getD k 0 else Config.draw (s.draws + (k - s.env.length))

/-- What the next read of a set or clear register returns, per `SETCLR_READ` (10_state.md R28). -/
def State.setclrAnswer (s : State) : Word := if s.cfg.setclrRead = .draw then s.futureDraw 0 else 0

/-- The state after `k` draws. -/
def State.afterDraws (s : State) (k : Nat) : State :=
  { s with env := s.env.drop k, draws := s.draws + (k - s.env.length) }

/-- At least `m` of the polls to come read the ready bit. `TX_EVENTUALLY_READY` (42_uart.md R151; 92_eei_decisions.md D23) is that
this holds for every `m`; the model does not assume it. -/
def State.TxReadyTimes (s : State) (m : Nat) : Prop :=
  ∃ n, m ≤ (List.range n).countP fun k => txReady s.cfg (s.futureDraw k)

/-! ## Texts (42_uart.md R154, R155) -/

/-- Newline translation (42_uart.md R154). -/
def crlf : List Byte → List Byte
  | [] => []
  | b :: t => if b = 0x0A then 0x0D :: 0x0A :: crlf t else b :: crlf t

/-- The byte `ByteRead` returns at an address, none where it faults (20_memory.md R58). -/
def State.readable (s : State) (a : Word) : Option Byte :=
  if s.cfg.isDeviceByte a then none else s.bufmem.read a

/-- The bytes from `p` on, none of them 0x00, are exactly `t` (42_uart.md R155, without the terminator). -/
def State.HasBytes (s : State) (p : Word) : List Byte → Prop
  | [] => True
  | b :: t => b ≠ 0 ∧ s.readable p = some b ∧ s.HasBytes (p + 1) t

/-- The null-terminated text at `p` is `t` (42_uart.md R155). -/
def State.HasText (s : State) (p : Word) (t : List Byte) : Prop :=
  s.HasBytes p t ∧ s.readable (p + BitVec.ofNat 32 t.length) = some 0

/-! ## What a history says of the device -/

/-- The contents of a storage register after the events, from its contents before them: the last write to it, if any
(20_memory.md R61). -/
def replayCell (a : Word) : List Event → Word → Word
  | [], v => v
  | .write b u :: es, v => replayCell a es (if b = a then u else v)
  | .read _ _ :: es, v => replayCell a es v
  | .byteRead _ _ :: es, v => replayCell a es v

/-- The pin latches after one event (10_state.md R34, R35). -/
def outAfter (c : Config) (o : BitVec 64) : Event → BitVec 64
  | .write a v =>
    match c.classOf a with
    | some (.setReg k) => o ||| actedPins c.maxPin k v
    | some (.clrReg k) => o &&& ~~~actedPins c.maxPin k v
    | some .storage => o
    | some .iir => o
    | some .txData => o
    | some .status => o
    | none => o
  | .read _ _ => o
  | .byteRead _ _ => o

/-- The storage cells after one event (10_state.md R28). -/
def cellsAfter (c : Config) (cells : Cells) : Event → Cells
  | .write a v => if c.classOf a = some .storage then cells.write a v else cells
  | .read _ _ => cells
  | .byteRead _ _ => cells

/-- The byte an event appends to the transmit stream, if any (10_state.md R37). -/
def txByte (c : Config) : Event → Option Byte
  | .write a v => if c.classOf a = some .txData then some (v.setWidth 8) else none
  | .read _ _ => none
  | .byteRead _ _ => none

/-- The address of a byte read. -/
def byteReadAddr : Event → Option Word
  | .byteRead a _ => some a
  | .read _ _ => none
  | .write _ _ => none

/-- Every read of a storage register in the events returned the last write to it before that read, or its contents at the start
(20_memory.md R61). -/
def readsAgree (c : Config) (start : Word → Word) : List Event → List Event → Prop
  | _, [] => True
  | before, e :: es =>
    (match e with
      | .read a v => c.classOf a = some .storage → v = replayCell a before (start a)
      | .write _ _ => True
      | .byteRead _ _ => True)
    ∧ readsAgree c start (before ++ [e]) es

/-- What one access, recorded as the event `e`, does between two states: a read returns what the class of the address says,
a write acts as the class says (20_memory.md R53, R58), and no other part of the device changes. -/
structure AccessEffect (s t : State) (e : Event) : Prop where
  recorded : t.hist = s.hist ++ [e]
  cells : t.cells = cellsAfter s.cfg s.cells e
  out : t.out = outAfter s.cfg s.out e
  tx : t.tx = s.tx ++ (txByte s.cfg e).toList
  read_value : ∀ a v, e = .read a v → s.cfg.classOf a = some .storage → v = s.cell a
  byte_value : ∀ a b, e = .byteRead a b → s.readable a = some b

/-- Nothing of the device changes between two states and nothing is recorded. -/
structure NoAccess (s t : State) : Prop where
  recorded : t.hist = s.hist
  cells : t.cells = s.cells
  out : t.out = s.out
  tx : t.tx = s.tx

/-! ## The micro-steps of each command (10_state.md R22) -/

/-- Is the position one at which the command is in flight? -/
def ownsSeq : Instr → Seq → Bool
  | .setfield _ _ _ _ _, .fieldWrite _ => true
  | .fsel _ _, .fieldWrite _ => true
  | .sethigh _, .fieldWrite _ => true
  | .setlow _, .fieldWrite _ => true
  | .pull _ _, .fieldWrite _ => true
  | .alt5 _, .alt5 _ => true
  | .uinit, .init _ _ => true
  | .usend _, .sendPoll => true
  | .usend _, .sendWrite => true
  | .utext _, .textRead _ => true
  | .utext _, .textPollCr _ => true
  | .utext _, .textWriteCr _ => true
  | .utext _, .textPoll _ _ => true
  | .utext _, .textWrite _ _ => true
  | _, _ => false

/-- The `uart_state` a position needs: UINIT runs uninitialized, USEND and UTEXT run ready (42_uart.md R146, R152, R156). -/
def uartFits : Instr → UartState → Bool
  | .setfield _ _ _ _ _, _ => true
  | .fsel _ _, _ => true
  | .sethigh _, _ => true
  | .setlow _, _ => true
  | .pull _ _, _ => true
  | .alt5 _, _ => true
  | .uinit, u => u == .uninitialized
  | .urdy, _ => true
  | .usend _, u => u == .ready
  | .utext _, u => u == .ready

/-! ## The invariant -/

/-- What holds of every state a run reaches. -/
structure State.Inv (s : State) : Prop where
  /-- Storage is in canonical form. -/
  cells_wf : s.cells.wf = true
  /-- Only storage registers hold anything (10_state.md R28). -/
  cells_storage : ∀ e ∈ s.cells, assocFind s.cfg.deviceMap e.1 = some .storage
  /-- Buffer memory is in canonical form. -/
  bufmem_wf : s.bufmem.wf = true
  /-- No byte of a device register is in buffer memory (20_memory.md R58). -/
  bufmem_apart : ∀ e ∈ s.bufmem, s.cfg.isDeviceByte (BitVec.ofNat 32 e.1) = false
  /-- Pins above `MAX_PIN` have no latch (10_state.md R25, R34). -/
  out_in_range : s.out &&& ~~~pinMask s.cfg.maxPin = 0
  /-- Between commands no latch holds a value and the response port holds the last response; in flight the latches hold a
  well-formed command, the sequencer stands at one of its micro-steps, `uart_state` fits it and the port is empty. What the port holds
  is the model's choice (assumption 10). -/
  in_step : (s.seq = .idle ∧ s.latches = Latches.empty ∧ s.respPort = s.responses.getLast?)
    ∨ ∃ i, i.wf = true ∧ s.latches = latchesOf i ∧ ownsSeq i s.seq = true ∧ uartFits i s.uart = true ∧ s.respPort = none
  /-- The transmit stream is what the history says was written to the data register (10_state.md R26, R37, R41). -/
  tx_history : s.tx = s.hist.filterMap (txByte s.cfg)

/-! ## Launch states (10_state.md R46) -/

/-- A state at reset, with any parameters the spec allows and ANY value in every register and pin latch that R46 leaves
unspecified; what the host has put in buffer memory and on the command port, and the environment's answers, are free. That no
response is on the port and none has been read, of which R46 says nothing, is the model's choice (assumption 10). -/
structure State.Launch (s : State) : Prop where
  cfg_wf : s.cfg.wf = true
  latches_empty : s.latches = Latches.empty
  seq_idle : s.seq = .idle
  uart_uninitialized : s.uart = .uninitialized
  tx_empty : s.tx = []
  hist_empty : s.hist = []
  no_fault : s.fault = none
  not_refused : s.refusal = none
  no_response : s.respPort = none ∧ s.responses = []
  cells_wf : s.cells.wf = true
  cells_storage : ∀ e ∈ s.cells, assocFind s.cfg.deviceMap e.1 = some .storage
  bufmem_wf : s.bufmem.wf = true
  bufmem_apart : ∀ e ∈ s.bufmem, s.cfg.isDeviceByte (BitVec.ofNat 32 e.1) = false
  out_in_range : s.out &&& ~~~pinMask s.cfg.maxPin = 0

/-! ## How a run ends (70_reset_and_hazards.md R203) -/

/-- A run from `s` reaches `t` in some number of steps. -/
def State.Reaches (s t : State) : Prop := ∃ n, Host.Core.run core n s = .next t

/-- The run has ended successfully: no further command, an idle unit, no mark. -/
def State.EndedSuccessfully (s : State) : Prop := s.cmdPort = [] ∧ s.seq = .idle ∧ s.Unmarked

end Sys2Proof.Machine
end

