-- ==== Sys2Proof/Certificates/Slice0/Obligations.lean ====
section
/-!
DEFINITION. The statements about this machine, for the provers. Each docstring names the rules of spec/ the statement rests on;
where a rule is one the spec marks as its own decision, or the model's choice, the docstring says so. `s.answered v` is `s` after
a command that answers `v` and changes nothing else: an idle unit, no latch filled, `v` on the response port and read by the host.
How many micro-steps a command takes is the spec's one access per step with the model's choice of assumption 5 (checks and responses
share a step with an access); that the response port is empty in flight, and that the host reads a response at once, is the model's
choice of assumption 10; what a stop leaves in the latches, the sequencer and the ports is the model's choice of assumption 3.
-/

open Sys2Proof Sys2Proof.Machine

/-! ## The encoding (30_encoding.md; the encoding is the spec's own choice, 92_eei_decisions.md D3) -/

/-- For every well-formed command, at every operand value, decoding its words gives it back and leaves the words after it
(R70, R71, R72, R80). -/
def Obligations.DecodeOfEncode : Prop :=
  ∀ (i : Instr) (rest : List Word), i.wf = true → decode (encode i ++ rest) = .command i rest

/-- A command the decoder reads is well-formed and the words it took are its encoding: each word sequence has one meaning
(R70, R71, R75, R79). -/
def Obligations.EncodeOfDecode : Prop :=
  ∀ (ws rest : List Word) (i : Instr), decode ws = .command i rest → i.wf = true ∧ ws = encode i ++ rest

/-- The bits R71 says must be 0 for an opcode. -/
def mustBeZero (opc : BitVec 4) : Word :=
  if opc = 0x1 then 0xFFFCFFF0
  else if opc = 0x2 ∨ opc = 0x5 then 0xFFF800F0
  else if opc = 0x7 ∨ opc = 0x8 ∨ opc = 0xA then 0xFFFFFFF0
  else 0xFFFF00F0

/-- A command word is refused exactly when one of the four items of R77 holds, whatever words follow it: reserved opcode, a 1 in a
must-be-zero bit, SETFIELD with W = 0, PULL with VAL of 3 or more. -/
def Obligations.IllegalWordsAreThoseOfR77 : Prop :=
  ∀ (w0 : Word) (ws : List Word),
    ((∃ x why, decode (w0 :: ws) = .illegal x why) ↔
      (w0.extractLsb' 0 4 = 0 ∨ 0xB#4 ≤ w0.extractLsb' 0 4)
        ∨ w0 &&& mustBeZero (w0.extractLsb' 0 4) ≠ 0
        ∨ (w0.extractLsb' 0 4 = 0x1 ∧ w0.extractLsb' 16 2 = 0)
        ∨ (w0.extractLsb' 0 4 = 0x5 ∧ 3#3 ≤ w0.extractLsb' 16 3))
    ∧ ∀ x why, decode (w0 :: ws) = .illegal x why → x = w0

/-- The length of a command in words is a function of `OPC` alone: 5 for SETFIELD, 2 for UTEXT, 1 for the others (R76). -/
def Obligations.CommandLengthIsGivenByOpcode : Prop :=
  ∀ (w0 : Word) (ws rest : List Word) (i : Instr), decode (w0 :: ws) = .command i rest →
    (w0 :: ws).length
      = rest.length + (if w0.extractLsb' 0 4 = 0x1 then 5 else if w0.extractLsb' 0 4 = 0xA then 2 else 1)

/-- The encoding examples of R82, each word as the spec writes it. -/
def Obligations.EncodingExamplesDecode : Prop :=
  decode [0x00070E02] = .command (.fsel 14 .alt5) []
    ∧ decode [0x00011502] = .command (.fsel 21 .output) []
    ∧ decode [0x00001503] = .command (.sethigh 21) []
    ∧ decode [0x00001504] = .command (.setlow 21) []
    ∧ decode [0x00000E05] = .command (.pull 14 .none) []
    ∧ decode [0x00020E05] = .command (.pull 14 .pullDown) []
    ∧ decode [0x00000F06] = .command (.alt5 15) []
    ∧ decode [0x00000007] = .command .uinit []
    ∧ decode [0x00000008] = .command .urdy []
    ∧ decode [0x00006109] = .command (.usend 0x61) []
    ∧ decode [0x0000000A, 0x00080000] = .command (.utext 0x00080000) []
    ∧ decode [0x00030001, 0xFE200000, 0x0000000E, 0x00000002, 0x00000039]
        = .command (.setfield 0xFE200000 14 2 3 57) []
    ∧ decode [0x00030E05] = .illegal 0x00030E05 .pullModeReserved
    ∧ decode [0x00000001] = .illegal 0x00000001 .widthZero
    ∧ decode [0x0000000B] = .illegal 0x0000000B .reservedOpcode

/-! ## The step -/

/-- An idle unit whose command port decodes to a command runs that command, its words taken off the port and nothing else changed
(R22, R70). -/
def Obligations.StepRunsDecodedCommand : Prop :=
  ∀ (s : State) (i : Instr) (rest : List Word), s.Unmarked → s.seq = .idle → decode s.cmdPort = .command i rest →
    step s = exec i { s with cmdPort := rest }

/-- A busy unit goes on with the command in its latches, one micro-step (R21, R22, R74). -/
def Obligations.StepContinuesLatchedCommand : Prop :=
  ∀ (s : State) (i : Instr), s.Unmarked → s.seq ≠ .idle → s.latches = latchesOf i → step s = exec i s

/-- A refused word ends the run: no operand word is read, no latch is filled, no access is made, and the mark is set (R77, R173,
the refusal being the spec's own decision D20, D33). That the refused word stays on the command port, and the sequencer and the
response port as they were, is the model's choice (assumption 3). -/
def Obligations.StepRefusesIllegalCommand : Prop :=
  ∀ (s : State) (w0 : Word) (why : IllegalReason), s.Unmarked → s.seq = .idle → decode s.cmdPort = .illegal w0 why →
    step s = .refused (.illegalCommand w0 { s with refusal := some (.illegalCommand w0) })

/-- An idle unit waits for a whole command. R190: after reset it waits for the first command; that it also waits for operand words
still missing is the model's choice (assumption 7). -/
def Obligations.IdleUnitWaitsForACommand : Prop :=
  ∀ s : State, s.Unmarked → s.seq = .idle → decode s.cmdPort = .incomplete → step s = .next s

/-- From an idle unit, one micro-step of a command either ends it (the response is on the port, the latches hold nothing) or leaves
it in flight with exactly its latches filled (R21, R22, R23, R74) and the response port empty. That the port is empty in flight, and
that the host reads a response at once, is the model's choice (assumption 10). -/
def Obligations.AcceptedCommandIsLatchedOrAnswered : Prop :=
  ∀ (i : Instr) (s t : State), s.seq = .idle → exec i s = .next t →
    (t.seq = .idle ∧ t.latches = Latches.empty
        ∧ ∃ v, t.respPort = some v ∧ t.responses = s.responses ++ [v])
      ∨ (t.seq ≠ .idle ∧ t.latches = latchesOf i ∧ t.respPort = none ∧ t.responses = s.responses)

/-- A marked state accepts no further command and no step clears its mark (R49, R172, R173; the marks are the spec's own decision
D19 to D22). That every further step answers the same fault or refusal, with the state unchanged, is the model's choice
(assumption 3). -/
def Obligations.MarkedStateIsNeverLeft : Prop :=
  (∀ (s : State) (a : Word), s.fault = some (.unmapped a) → step s = .fault (.unmapped a s))
    ∧ (∀ s : State, s.fault = some .uartNotInitialized → step s = .fault (.uartNotInitialized s))
    ∧ (∀ s : State, s.fault = some .uartReinitialized → step s = .fault (.uartReinitialized s))
    ∧ (∀ (s : State) (w : Word), s.fault = none → s.refusal = some (.illegalCommand w) →
        step s = .refused (.illegalCommand w s))
    ∧ (∀ (s : State) (a : Word), s.fault = none → s.refusal = some (.readOfWriteOnlyAux a) →
        step s = .refused (.readOfWriteOnlyAux a s))
    ∧ (∀ (s : State) (a : Word), s.fault = none → s.refusal = some (.writeOfStatus a) →
        step s = .refused (.writeOfStatus a s))

/-! ## The bus primitives (20_memory.md) -/

/-- An access to an address outside `DEVICE_MAP`, and a byte read of an address with no byte, fault before the access is performed
or recorded (R57, R58; the spec's own decision D19). That everything but the mark stays as it was is the model's choice
(assumption 3). -/
def Obligations.UnmappedAccessFaultsUnrecorded : Prop :=
  ∀ (s : State) (a v : Word) (k : Word → State → Out) (j : State → Out) (q : Byte → State → Out),
    (s.cfg.classOf a = none →
      memRead a s k = .fault (.unmapped a { s with fault := some (.unmapped a) })
        ∧ memWrite a v s j = .fault (.unmapped a { s with fault := some (.unmapped a) }))
    ∧ (s.bufmem.read a = none → byteRead a s q = .fault (.unmapped a { s with fault := some (.unmapped a) }))

/-- Writing the same word twice leaves a storage register and the pin latches as writing it once; the transmit register gains the
byte each time (R56). -/
def Obligations.RepeatedWrites : Prop :=
  ∀ (s : State) (a v : Word) (j : State → Out), s.cells.wf = true →
    (s.cfg.classOf a = some .storage →
      memWrite a v s (fun u => memWrite a v u j)
        = j { s with cells := s.cells.write a v, hist := s.hist ++ [.write a v, .write a v] })
    ∧ (∀ n, s.cfg.classOf a = some (.setReg n) →
        memWrite a v s (fun u => memWrite a v u j)
          = j { s with out := s.out ||| actedPins s.cfg.maxPin n v, hist := s.hist ++ [.write a v, .write a v] })
    ∧ (∀ n, s.cfg.classOf a = some (.clrReg n) →
        memWrite a v s (fun u => memWrite a v u j)
          = j { s with
            out := s.out &&& ~~~actedPins s.cfg.maxPin n v
            hist := s.hist ++ [.write a v, .write a v] })
    ∧ (s.cfg.classOf a = some .txData →
        memWrite a v s (fun u => memWrite a v u j)
          = j { s with
            tx := s.tx ++ [v.setWidth 8, v.setWidth 8]
            hist := s.hist ++ [.write a v, .write a v] })

/-! ## The addressor's mapping (40_addressor.md section 1 and 3) -/

/-- Field mask and valid field values, fields per register, register address and bit shift with its range (R91, R93, R94). -/
def Obligations.FieldMaskAddressAndShift : Prop :=
  (fieldMask 1 = 0x1 ∧ fieldMask 2 = 0x3 ∧ fieldMask 3 = 0x7 ∧ ∀ w, fieldMask w = (1#32 <<< w.toNat) - 1)
    ∧ (∀ (value : Word) (w : BitVec 2), value ≤ fieldMask w ↔ value.toNat ≤ 2 ^ w.toNat - 1)
    ∧ (fieldsPerRegister 1 = 32 ∧ fieldsPerRegister 2 = 16 ∧ fieldsPerRegister 3 = 10)
    ∧ (∀ (bank index : Word) (w : BitVec 2), regAddr bank index w = bank + index / (32 / w.setWidth 32) * 4)
    ∧ (∀ (index : Word) (w : BitVec 2), bitShift index w = index % (32 / w.setWidth 32) * w.setWidth 32)
    ∧ (∀ index : Word, bitShift index 1 ≤ 31)
    ∧ (∀ index : Word, bitShift index 2 ≤ 30 ∧ bitShift index 2 % 2 = 0)
    ∧ (∀ index : Word, bitShift index 3 ≤ 27 ∧ bitShift index 3 % 3 = 0)

/-- Bank stride: index i and index i + fields-per-register lie in registers 4 apart, at the same shift (R98). -/
def Obligations.BankStride : Prop :=
  ∀ (bank index : Word) (w : BitVec 2), w ≠ 0 → index.toNat + (fieldsPerRegister w).toNat < 2 ^ 32 →
    regAddr bank (index + fieldsPerRegister w) w = regAddr bank index w + 4
      ∧ bitShift (index + fieldsPerRegister w) w = bitShift index w

/-- A field lies within its register and loses no bit of its value, and distinct indices of one bank have fields that do not
overlap (R99). -/
def Obligations.FieldsAreContainedAndDisjoint : Prop :=
  (∀ (index : Word) (w : BitVec 2), w ≠ 0 → (bitShift index w).toNat + w.toNat ≤ 32)
    ∧ (∀ (index value : Word) (w : BitVec 2), w ≠ 0 → value ≤ fieldMask w →
        (value <<< (bitShift index w).toNat) >>> (bitShift index w).toNat = value)
    ∧ (∀ (bank i j : Word) (w : BitVec 2), w ≠ 0 → i ≠ j →
        regAddr bank i w ≠ regAddr bank j w
          ∨ (bitShift i w).toNat + w.toNat ≤ (bitShift j w).toNat
          ∨ (bitShift j w).toNat + w.toNat ≤ (bitShift i w).toNat)

/-- The indices 0 to max_index of a bank reach exactly the registers bank + 4k for k up to max_index / fpr (R100, which follows the
algorithm where the source's summary undercounts, 90_conflicts.md C4). -/
def Obligations.BankSpan : Prop :=
  ∀ (bank maxIndex a : Word) (w : BitVec 2), w ≠ 0 →
    ((∃ i : Word, i ≤ maxIndex ∧ regAddr bank i w = a)
      ↔ ∃ k : Word, k ≤ maxIndex / fieldsPerRegister w ∧ a = bank + k * 4)

/-! ## SETFIELD (40_addressor.md section 2) -/

/-- A request that fails a check is answered at once with the code of the first check that fails, and nothing else happens: no
access, no event (R92, R170; the order of the checks and the code values are the spec's own decisions D4, D5). -/
def Obligations.SetfieldValidatesInOrder : Prop :=
  ∀ (bank index value : Word) (w : BitVec 2) (maxidx : Word) (s : State), w ≠ 0 → s.seq = .idle →
    (maxidx < index → exec (.setfield bank index value w maxidx) s = .next (s.answered 1))
    ∧ (index ≤ maxidx → (1#32 <<< w.toNat) - 1 < value →
        exec (.setfield bank index value w maxidx) s = .next (s.answered 1))
    ∧ (index ≤ maxidx → value ≤ (1#32 <<< w.toNat) - 1 → bank % 4 ≠ 0 →
        exec (.setfield bank index value w maxidx) s = .next (s.answered 2))

/-- A SETFIELD that responds OutOfRange or Misaligned makes zero bus accesses and appends nothing to the history: the state after it
is the state before it but for the response. An index above the limit and a value above the field mask fail so (R97). -/
def Obligations.FailingSetfieldMakesNoAccess : Prop :=
  (∀ (bank index value : Word) (w : BitVec 2) (maxidx : Word) (s t : State) (v : Word),
    exec (.setfield bank index value w maxidx) s = .next t → t.respPort = some v → t.seq = .idle → v ≠ 0 →
    s.seq = .idle ∧ t = s.answered v)
  ∧ ∀ (bank index value : Word) (w : BitVec 2) (maxidx : Word) (s : State), w ≠ 0 → s.seq = .idle →
    maxidx < index ∨ (1#32 <<< w.toNat) - 1 < value →
    ∃ v, v ≠ 0 ∧ exec (.setfield bank index value w maxidx) s = .next (s.answered v)

/-- A valid SETFIELD on a storage register: two micro-steps, a read and a write back of the register with exactly the target field
replaced, and the answer OK; nothing else changes (R95). That the response port is empty between the two is the model's choice
(assumption 10). -/
def Obligations.SetfieldCompletesOnStorage : Prop :=
  ∀ (bank index value : Word) (w : BitVec 2) (maxidx : Word) (s : State),
    w ≠ 0 → s.seq = .idle → index ≤ maxidx → value ≤ (1#32 <<< w.toNat) - 1 → bank % 4 = 0 →
    let i := Instr.setfield bank index value w maxidx
    let fpr : Word := 32 / w.setWidth 32
    let a := bank + index / fpr * 4
    let shift := (index % fpr * w.setWidth 32).toNat
    let mask : Word := (1#32 <<< w.toNat) - 1
    let cur := s.cell a
    let new := (cur &&& ~~~(mask <<< shift)) ||| (value <<< shift)
    s.cfg.classOf a = some .storage →
    ∃ s1, exec i s = .next s1
      ∧ s1 = { s with
          latches := latchesOf i, respPort := none, seq := .fieldWrite cur, hist := s.hist ++ [.read a cur] }
      ∧ exec i s1 = .next { s.answered 0 with
          cells := s.cells.write a new, hist := s.hist ++ [.read a cur, .write a new] }

/-- A valid SETFIELD on a set or clear register: the read returns per `SETCLR_READ`, and the write acts on pin 32n + i for every 1
bit i of the written word, if that pin is at most `MAX_PIN` (R34, R35, R95, R103; the read value and the pin limit are the spec's own
decisions D16, D30). -/
def Obligations.SetfieldCompletesOnSetAndClearRegisters : Prop :=
  ∀ (bank index value : Word) (w : BitVec 2) (maxidx : Word) (s : State) (n : Nat),
    w ≠ 0 → s.seq = .idle → index ≤ maxidx → value ≤ (1#32 <<< w.toNat) - 1 → bank % 4 = 0 →
    let i := Instr.setfield bank index value w maxidx
    let fpr : Word := 32 / w.setWidth 32
    let a := bank + index / fpr * 4
    let shift := (index % fpr * w.setWidth 32).toNat
    let mask : Word := (1#32 <<< w.toNat) - 1
    let cur := s.setclrAnswer
    let new := (cur &&& ~~~(mask <<< shift)) ||| (value <<< shift)
    let acts (q : Nat) : Bool :=
      decide (32 * n ≤ q) && decide (q < 32 * n + 32) && decide (q ≤ s.cfg.maxPin.toNat) && new.getLsbD (q - 32 * n)
    let after (o : BitVec 64) : State := { (s.afterDraws s.cfg.setclrDraws).answered 0 with
      out := o, hist := s.hist ++ [Event.read a cur, Event.write a new] }
    (s.cfg.classOf a = some (.setReg n) →
      ∃ s1 o, exec i s = .next s1 ∧ s1.hist = s.hist ++ [.read a cur] ∧ exec i s1 = .next (after o)
        ∧ ∀ q, q < 64 → o.getLsbD q = (s.outPin q || acts q))
    ∧ (s.cfg.classOf a = some (.clrReg n) →
      ∃ s1 o, exec i s = .next s1 ∧ s1.hist = s.hist ++ [.read a cur] ∧ exec i s1 = .next (after o)
        ∧ ∀ q, q < 64 → o.getLsbD q = (s.outPin q && !acts q))

/-- Where a valid SETFIELD stops: an unmapped register address faults at the read, AUX_MU_IO and AUX_MU_IIR are refused at the read,
both with no event; AUX_MU_LSR is read (one event) and refused at the write (R53, R57, R95; the stops are the spec's own decisions D17
to D19). That the meaning itself refuses the ill-formed width 0 in every state is read from R77 item 3 (assumption 14, DEDUCED; D20),
and what the marked states keep in the latches and on the response port is the model's choice (assumption 3). -/
def Obligations.SetfieldStops : Prop :=
  ∀ (bank index value : Word) (w : BitVec 2) (maxidx : Word) (s : State),
    let i := Instr.setfield bank index value w maxidx
    let a := bank + index / (32 / w.setWidth 32) * 4
    let s0 := { s with latches := latchesOf i, respPort := none }
    (w = 0 → exec i s
      = .refused (.illegalCommand 0x00000001 { s with refusal := some (.illegalCommand 0x00000001) }))
    ∧ (w ≠ 0 → s.seq = .idle → index ≤ maxidx → value ≤ (1#32 <<< w.toNat) - 1 → bank % 4 = 0 →
      (s.cfg.classOf a = none → exec i s = .fault (.unmapped a { s0 with fault := some (.unmapped a) }))
      ∧ (s.cfg.classOf a = some .txData ∨ s.cfg.classOf a = some .iir →
        exec i s = .refused (.readOfWriteOnlyAux a { s0 with refusal := some (.readOfWriteOnlyAux a) }))
      ∧ (s.cfg.classOf a = some .status →
        ∃ s1, exec i s = .next s1
          ∧ s1.hist = s.hist ++ [.read a (s.futureDraw 0)]
          ∧ exec i s1 = .refused (.writeOfStatus a { s1 with refusal := some (.writeOfStatus a) })))

/-- Read-back and preservation: after a SETFIELD that responds OK on a storage register, the target field of that register reads the
value, and every other bit of it and every other register read as before, bit for bit (R96, R101, 90_conflicts.md C7). -/
def Obligations.SetfieldReadBackAndPreservation : Prop :=
  ∀ (bank index value : Word) (w : BitVec 2) (maxidx : Word) (s s1 t : State),
    s.cells.wf = true → s.seq = .idle → s.cfg.classOf (regAddr bank index w) = some .storage →
    exec (.setfield bank index value w maxidx) s = .next s1 →
    exec (.setfield bank index value w maxidx) s1 = .next t →
    t.respPort = some 0 → s1.seq ≠ .idle →
    let a := regAddr bank index w
    let shift := (bitShift index w).toNat
    (∀ k, memRead a t k = k (t.cell a) (t.record (.read a (t.cell a))))
    ∧ ∀ (b : Word) (j : Nat), j < 32 →
      (t.cell b).getLsbD j
        = if b = a ∧ shift ≤ j ∧ j < shift + w.toNat then value.getLsbD (j - shift) else (s.cell b).getLsbD j

/-! ## GPIO commands (41_gpio.md) -/

/-- FSEL on a pin in range: the function-select register of the pin is read and written back with the pin's three bits replaced by
`FSEL_CODE` of the function (R111, R113). -/
def Obligations.FselCompletes : Prop :=
  ∀ (pin : BitVec 8) (f : GpioFunction) (s : State), s.seq = .idle → pin.setWidth 32 ≤ s.cfg.maxPin →
    let p : Word := pin.setWidth 32
    let a := s.cfg.gpfsel0 + p / 10 * 4
    let shift := (p % 10 * 3).toNat
    let code : Word := (s.cfg.fselCode.code f).setWidth 32
    let cur := s.cell a
    let new := (cur &&& ~~~(0x7#32 <<< shift)) ||| (code <<< shift)
    s.cfg.classOf a = some .storage →
    ∃ s1, exec (.fsel pin f) s = .next s1 ∧ s1.hist = s.hist ++ [.read a cur]
      ∧ exec (.fsel pin f) s1 = .next { s.answered 0 with
          cells := s.cells.write a new, hist := s.hist ++ [.read a cur, .write a new] }

/-- PULL on a pin in range: the pull-control register of the pin is read and written back with the pin's two bits replaced by
`PULL_CODE` of the mode (R119). -/
def Obligations.PullCompletes : Prop :=
  ∀ (pin : BitVec 8) (m : PullMode) (s : State), s.seq = .idle → pin.setWidth 32 ≤ s.cfg.maxPin →
    let p : Word := pin.setWidth 32
    let a := s.cfg.gppuppdn0 + p / 16 * 4
    let shift := (p % 16 * 2).toNat
    let code : Word := (s.cfg.pullCode.code m).setWidth 32
    let cur := s.cell a
    let new := (cur &&& ~~~(0x3#32 <<< shift)) ||| (code <<< shift)
    s.cfg.classOf a = some .storage →
    ∃ s1, exec (.pull pin m) s = .next s1 ∧ s1.hist = s.hist ++ [.read a cur]
      ∧ exec (.pull pin m) s1 = .next { s.answered 0 with
          cells := s.cells.write a new, hist := s.hist ++ [.read a cur, .write a new] }

/-- SETHIGH on a pin in range: the set register is read (per `SETCLR_READ`) and written with the pin's bit 1; `OUT[PIN]` becomes 1,
and so does `OUT` of every other pin of the register whose bit of the written word is 1; with `SETCLR_READ = Zero` no other pin
changes (R34, R114, R115; the read value is the spec's own decision D16). -/
def Obligations.SethighCompletes : Prop :=
  ∀ (pin : BitVec 8) (s : State), s.seq = .idle → pin.setWidth 32 ≤ s.cfg.maxPin → s.cfg.maxPin < 64 →
    let p : Word := pin.setWidth 32
    let a := s.cfg.gpset0 + p / 32 * 4
    let shift := (p % 32).toNat
    let cur := s.setclrAnswer
    let new := (cur &&& ~~~(1#32 <<< shift)) ||| (1#32 <<< shift)
    s.cfg.classOf a = some (.setReg (pin.toNat / 32)) →
    ∃ s1 o, exec (.sethigh pin) s = .next s1 ∧ s1.hist = s.hist ++ [.read a cur]
      ∧ exec (.sethigh pin) s1 = .next { (s.afterDraws s.cfg.setclrDraws).answered 0 with
          out := o, hist := s.hist ++ [.read a cur, .write a new] }
      ∧ (∀ q, q < 64 → o.getLsbD q
          = (s.outPin q || decide (q = pin.toNat)
            || (decide (q / 32 = pin.toNat / 32) && decide (q ≤ s.cfg.maxPin.toNat) && cur.getLsbD (q % 32))))
      ∧ (s.cfg.setclrRead = .zero → ∀ q, q < 64 → o.getLsbD q = (s.outPin q || decide (q = pin.toNat)))

/-- SETLOW on a pin in range: as SETHIGH with the clear register, `OUT` becoming 0 (R35, R116, R117; D16). -/
def Obligations.SetlowCompletes : Prop :=
  ∀ (pin : BitVec 8) (s : State), s.seq = .idle → pin.setWidth 32 ≤ s.cfg.maxPin → s.cfg.maxPin < 64 →
    let p : Word := pin.setWidth 32
    let a := s.cfg.gpclr0 + p / 32 * 4
    let shift := (p % 32).toNat
    let cur := s.setclrAnswer
    let new := (cur &&& ~~~(1#32 <<< shift)) ||| (1#32 <<< shift)
    s.cfg.classOf a = some (.clrReg (pin.toNat / 32)) →
    ∃ s1 o, exec (.setlow pin) s = .next s1 ∧ s1.hist = s.hist ++ [.read a cur]
      ∧ exec (.setlow pin) s1 = .next { (s.afterDraws s.cfg.setclrDraws).answered 0 with
          out := o, hist := s.hist ++ [.read a cur, .write a new] }
      ∧ (∀ q, q < 64 → o.getLsbD q
          = (s.outPin q && !decide (q = pin.toNat)
            && !(decide (q / 32 = pin.toNat / 32) && decide (q ≤ s.cfg.maxPin.toNat) && cur.getLsbD (q % 32))))
      ∧ (s.cfg.setclrRead = .zero → ∀ q, q < 64 → o.getLsbD q = (s.outPin q && !decide (q = pin.toNat)))

/-- ALT5 on a pin in range: exactly four accesses in the order of R122, pull read, pull write, function read, function write, and
then the answer OK. -/
def Obligations.Alt5Completes : Prop :=
  ∀ (pin : BitVec 8) (s : State), s.seq = .idle → pin.setWidth 32 ≤ s.cfg.maxPin →
    let p : Word := pin.setWidth 32
    let a1 := s.cfg.gppuppdn0 + p / 16 * 4
    let sh1 := (p % 16 * 2).toNat
    let c1 := s.cell a1
    let n1 := (c1 &&& ~~~(0x3#32 <<< sh1)) ||| ((s.cfg.pullCode.none.setWidth 32) <<< sh1)
    let a2 := s.cfg.gpfsel0 + p / 10 * 4
    let sh2 := (p % 10 * 3).toNat
    let c2 := (s.cells.write a1 n1).read a2
    let n2 := (c2 &&& ~~~(0x7#32 <<< sh2)) ||| ((s.cfg.fselCode.alt5.setWidth 32) <<< sh2)
    s.cfg.classOf a1 = some .storage → s.cfg.classOf a2 = some .storage →
    ∃ s1, exec (.alt5 pin) s = .next s1 ∧ s1.hist = s.hist ++ [.read a1 c1]
      ∧ execFor (.alt5 pin) 3 s1 = .next { s.answered 0 with
          cells := (s.cells.write a1 n1).write a2 n2
          hist := s.hist ++ [.read a1 c1, .write a1 n1, .read a2 c2, .write a2 n2] }

/-- ALT5's end state with the default parameters: the pull field of the pin reads none, its function field reads alt5's code, and no
other bit of any register has changed (R123). -/
def Obligations.Alt5EndState : Prop :=
  ∀ (pin : BitVec 8) (s : State), s.cfg = Config.default → s.cells.wf = true → s.seq = .idle → pin ≤ 57 →
    let p := pin.toNat
    ∃ t, execFor (.alt5 pin) 4 s = .next t ∧ t.respPort = some 0
      ∧ ∀ (b : Word) (j : Nat), j < 32 → (t.cell b).getLsbD j
          = if b.toNat = 0xFE2000E4 + 4 * (p / 16) ∧ 2 * (p % 16) ≤ j ∧ j < 2 * (p % 16) + 2 then false
            else if b.toNat = 0xFE200000 + 4 * (p / 10) ∧ 3 * (p % 10) ≤ j ∧ j < 3 * (p % 10) + 3
              then (0b010#3).getLsbD (j - 3 * (p % 10))
            else (s.cell b).getLsbD j

/-- A pin above `MAX_PIN` is answered OutOfRange at once by each of the five GPIO commands, and nothing else happens (R110, R111, R114,
R116, R119, R122; the code value is the spec's own decision D4). -/
def Obligations.GpioPinOutOfRange : Prop :=
  ∀ (pin : BitVec 8) (f : GpioFunction) (m : PullMode) (s : State), s.seq = .idle → s.cfg.maxPin < pin.setWidth 32 →
    exec (.fsel pin f) s = .next (s.answered 1)
      ∧ exec (.sethigh pin) s = .next (s.answered 1)
      ∧ exec (.setlow pin) s = .next (s.answered 1)
      ∧ exec (.pull pin m) s = .next (s.answered 1)
      ∧ exec (.alt5 pin) s = .next (s.answered 1)

/-- FSEL, SETHIGH, SETLOW and PULL have, micro-step by micro-step and in every state whose bank bases are 4-byte aligned (R27), the
effect of a SETFIELD with fixed operands: the same outcome but for the latches (R81, R110). -/
def Obligations.GpioCommandsAreSetfield : Prop :=
  ∀ (pin : BitVec 8) (f : GpioFunction) (m : PullMode) (s : State),
    s.cfg.gpfsel0 % 4 = 0 → s.cfg.gpset0 % 4 = 0 → s.cfg.gpclr0 % 4 = 0 → s.cfg.gppuppdn0 % 4 = 0 →
    let p : Word := pin.setWidth 32
    outSansLatches (exec (.fsel pin f) s)
        = outSansLatches (exec (.setfield s.cfg.gpfsel0 p ((s.cfg.fselCode.code f).setWidth 32) 3 s.cfg.maxPin) s)
      ∧ outSansLatches (exec (.sethigh pin) s)
        = outSansLatches (exec (.setfield s.cfg.gpset0 p 1 1 s.cfg.maxPin) s)
      ∧ outSansLatches (exec (.setlow pin) s)
        = outSansLatches (exec (.setfield s.cfg.gpclr0 p 1 1 s.cfg.maxPin) s)
      ∧ outSansLatches (exec (.pull pin m) s)
        = outSansLatches (exec (.setfield s.cfg.gppuppdn0 p ((s.cfg.pullCode.code m).setWidth 32) 2 s.cfg.maxPin) s)

/-- ALT5 has the effect of PULL none followed by FSEL alt5 on the same pin: where those two complete, so does ALT5, with the same
accesses in the same order and one answer OK (R81, R122). -/
def Obligations.Alt5IsPullThenFsel : Prop :=
  ∀ (pin : BitVec 8) (s u t : State), s.seq = .idle → pin.setWidth 32 ≤ s.cfg.maxPin →
    execFor (.pull pin .none) 2 s = .next u → execFor (.fsel pin .alt5) 2 u = .next t →
    execFor (.alt5 pin) 4 s = .next { t with responses := s.responses ++ [0] }

/-- The later of SETHIGH and SETLOW on one pin wins (R117). -/
def Obligations.LaterSetOrClearWins : Prop :=
  ∀ (pin : BitVec 8) (s : State), s.seq = .idle → pin.setWidth 32 ≤ s.cfg.maxPin → pin.toNat < 64 →
    s.cfg.classOf (regAddr s.cfg.gpset0 (pin.setWidth 32) 1) = some (.setReg (pin.toNat / 32)) →
    s.cfg.classOf (regAddr s.cfg.gpclr0 (pin.setWidth 32) 1) = some (.clrReg (pin.toNat / 32)) →
    (∃ u t, execFor (.sethigh pin) 2 s = .next u ∧ execFor (.setlow pin) 2 u = .next t
        ∧ u.outPin pin.toNat = true ∧ t.outPin pin.toNat = false)
      ∧ (∃ u t, execFor (.setlow pin) 2 s = .next u ∧ execFor (.sethigh pin) 2 u = .next t
        ∧ u.outPin pin.toNat = false ∧ t.outPin pin.toNat = true)

/-- With the default parameters every pin in range reaches a register of its bank (R27, R110), so that no GPIO command faults
(the addresses and codes are general knowledge the spec takes as defaults, D6, D9, D10, D11). -/
def Obligations.DefaultParametersReachTheBanks : Prop :=
  (∀ pin : BitVec 8, pin ≤ 57 →
    Config.default.classOf (regAddr 0xFE200000 (pin.setWidth 32) 3) = some .storage
      ∧ Config.default.classOf (regAddr 0xFE20001C (pin.setWidth 32) 1) = some (.setReg (pin.toNat / 32))
      ∧ Config.default.classOf (regAddr 0xFE200028 (pin.setWidth 32) 1) = some (.clrReg (pin.toNat / 32))
      ∧ Config.default.classOf (regAddr 0xFE2000E4 (pin.setWidth 32) 2) = some .storage)
    ∧ Config.default.gpfsel0 = 0xFE200000 ∧ Config.default.gpset0 = 0xFE20001C
    ∧ Config.default.gpclr0 = 0xFE200028 ∧ Config.default.gppuppdn0 = 0xFE2000E4
    ∧ Config.default.maxPin = 57
    ∧ (GpioFunction.ofOrdinal 0 = .input ∧ Config.default.fselCode.code .input = 0b000)
    ∧ (GpioFunction.ofOrdinal 1 = .output ∧ Config.default.fselCode.code .output = 0b001)
    ∧ (GpioFunction.ofOrdinal 2 = .alt0 ∧ Config.default.fselCode.code .alt0 = 0b100)
    ∧ (GpioFunction.ofOrdinal 3 = .alt1 ∧ Config.default.fselCode.code .alt1 = 0b101)
    ∧ (GpioFunction.ofOrdinal 4 = .alt2 ∧ Config.default.fselCode.code .alt2 = 0b110)
    ∧ (GpioFunction.ofOrdinal 5 = .alt3 ∧ Config.default.fselCode.code .alt3 = 0b111)
    ∧ (GpioFunction.ofOrdinal 6 = .alt4 ∧ Config.default.fselCode.code .alt4 = 0b011)
    ∧ (GpioFunction.ofOrdinal 7 = .alt5 ∧ Config.default.fselCode.code .alt5 = 0b010)
    ∧ (PullMode.ofOrdinal? 0 = some .none ∧ Config.default.pullCode.code .none = 0b00)
    ∧ (PullMode.ofOrdinal? 1 = some .pullUp ∧ Config.default.pullCode.code .pullUp = 0b01)
    ∧ (PullMode.ofOrdinal? 2 = some .pullDown ∧ Config.default.pullCode.code .pullDown = 0b10)

/-! ## UART commands (42_uart.md) -/

/-- The divisor of the default clock and baud rate is 541, and a clock below eight times the rate wraps (R147; D12, D35). For a
record whose `TARGET_BAUD * 8` is 0, which 00_scope.md R6 and R9 rule out, the second clause is the model's choice (assumption 18). -/
def Obligations.DivisorOfTheDefaultClock : Prop :=
  Config.default.divisor = 541
    ∧ (∀ c : Config, c.divisor = c.uartClockHz / (c.targetBaud * 8) - 1)
    ∧ (∀ c : Config, c.uartClockHz < c.targetBaud * 8 → c.divisor = 0xFFFFFFFF)

/-- UINIT from an uninitialized UART, with the default parameters: 16 accesses in the order of R145 and R148, the console pins 14 and
15 muxed to alt5 with no pull, `uart_state` Ready, answer 0, and no other register changed (R145, R146, R147, R148; the register
values beyond the source's five steps are the spec's own decision D15). -/
def Obligations.UinitCompletes : Prop :=
  ∀ s : State, s.cfg = Config.default → s.cells.wf = true → s.seq = .idle → s.uart = .uninitialized →
    let pull0 := s.cell 0xFE2000E4
    let pull1 := pull0 &&& ~~~(0x3#32 <<< 28)
    let pull2 := pull1 &&& ~~~(0x3#32 <<< 30)
    let fsel0 := s.cell 0xFE200004
    let fsel1 := (fsel0 &&& ~~~(0x7#32 <<< 12)) ||| (0x2#32 <<< 12)
    let fsel2 := (fsel1 &&& ~~~(0x7#32 <<< 15)) ||| (0x2#32 <<< 15)
    ∃ s1 c, exec .uinit s = .next s1
      ∧ execFor .uinit 15 s1 = .next { s.answered 0 with
          uart := .ready
          cells := c
          hist := s.hist ++
            [ .write 0xFE215004 0x1, .write 0xFE215044 0x0, .write 0xFE215060 0x0, .write 0xFE21504C 0x3,
              .write 0xFE215050 0x0, .write 0xFE215048 0xC6, .write 0xFE215068 541,
              .read 0xFE2000E4 pull0, .write 0xFE2000E4 pull1, .read 0xFE200004 fsel0, .write 0xFE200004 fsel1,
              .read 0xFE2000E4 pull1, .write 0xFE2000E4 pull2, .read 0xFE200004 fsel1, .write 0xFE200004 fsel2,
              .write 0xFE215060 0x3 ] }
      ∧ ∀ a : Word, c.read a
          = if a = 0xFE215004 then 0x1 else if a = 0xFE215044 then 0x0 else if a = 0xFE21504C then 0x3
            else if a = 0xFE215050 then 0x0 else if a = 0xFE215068 then 541 else if a = 0xFE215060 then 0x3
            else if a = 0xFE2000E4 then pull2 else if a = 0xFE200004 then fsel2 else s.cell a

/-- Contract violations fault before any access: UINIT on a ready UART, USEND and UTEXT on an uninitialized one (R146, R152, R156,
R172; the spec's own decisions D21, D22). That the marked state has the command's latches filled and the response port empty is the
model's choice (assumption 3). -/
def Obligations.UartContractViolationsFault : Prop :=
  ∀ (s : State) (b : Byte) (buf : Word), s.seq = .idle →
    (s.uart = .ready → exec .uinit s = .fault (.uartReinitialized
      { s with latches := latchesOf .uinit, respPort := none, fault := some .uartReinitialized }))
    ∧ (s.uart = .uninitialized →
      exec (.usend b) s = .fault (.uartNotInitialized
        { s with latches := latchesOf (.usend b), respPort := none, fault := some .uartNotInitialized })
      ∧ exec (.utext buf) s = .fault (.uartNotInitialized
        { s with latches := latchesOf (.utext buf), respPort := none, fault := some .uartNotInitialized }))

/-- URDY in either `uart_state`: one read of the line status, the answer 1 if the tested bit is 1 and 0 if not, and no other effect
(R149). -/
def Obligations.UrdyCompletes : Prop :=
  ∀ s : State, s.seq = .idle → s.cfg.classOf (s.cfg.aux .lsr) = some .status →
    let lsr := s.futureDraw 0
    exec .urdy s = .next { (s.afterDraws 1).answered (if lsr &&& s.cfg.lsrTxReadyMask ≠ 0 then 1 else 0) with
      hist := s.hist ++ [.read (s.cfg.aux .lsr) lsr] }

/-- USEND on a ready UART, when the first n answers are not ready and the next is: n + 1 polls, one write of the byte as given,
zero-extended, the answer 0, and nothing else (R150, R152, R153). -/
def Obligations.UsendCompletesAfterPolls : Prop :=
  ∀ (b : Byte) (n : Nat) (s : State), s.seq = .idle → s.uart = .ready → s.cfg.HasUart →
    (∀ k, k < n → txReady s.cfg (s.futureDraw k) = false) → txReady s.cfg (s.futureDraw n) = true →
    ∃ s1, exec (.usend b) s = .next s1
      ∧ execFor (.usend b) (n + 1) s1 = .next { (s.afterDraws (n + 1)).answered 0 with
          tx := s.tx ++ [b]
          hist := s.hist ++ (List.range (n + 1)).map (fun k => .read (s.cfg.aux .lsr) (s.futureDraw k))
            ++ [.write (s.cfg.aux .io) (b.setWidth 32)] }

/-- The poll loop of USEND and UTEXT: one line-status read per step, recorded; if the tested bit is 1 the next micro-step follows, if
it is 0 the loop repeats with a new read, and the unit does nothing else (R150). -/
def Obligations.PollLoopReadsOncePerStep : Prop :=
  ∀ (b : Byte) (buf p : Word) (s : State), s.cfg.classOf (s.cfg.aux .lsr) = some .status →
    let lsr := s.futureDraw 0
    let polled (next again : Seq) : State := { s.afterDraws 1 with
      seq := if lsr &&& s.cfg.lsrTxReadyMask ≠ 0 then next else again
      hist := s.hist ++ [.read (s.cfg.aux .lsr) lsr] }
    (s.seq = .sendPoll → exec (.usend b) s = .next (polled .sendWrite .sendPoll))
      ∧ (s.seq = .textPollCr p → exec (.utext buf) s = .next (polled (.textWriteCr p) (.textPollCr p)))
      ∧ (s.seq = .textPoll p b → exec (.utext buf) s = .next (polled (.textWrite p b) (.textPoll p b)))

/-- A hang is not a fault: a USEND or UTEXT whose polls do not see the ready bit stays in its poll, however long; it responds
nothing, sets no mark and sends nothing (R178). -/
def Obligations.PollHangsWhileNotReady : Prop :=
  ∀ (i : Instr) (n : Nat) (s : State),
    ((∃ b, i = .usend b ∧ s.seq = .sendPoll) ∨ (∃ buf p, i = .utext buf ∧ s.seq = .textPollCr p)
      ∨ ∃ buf p b, i = .utext buf ∧ s.seq = .textPoll p b) →
    s.cfg.HasUart → (∀ k, k < n → txReady s.cfg (s.futureDraw k) = false) →
    execFor i n s = .next { s.afterDraws n with
      hist := s.hist ++ (List.range n).map (fun k => .read (s.cfg.aux .lsr) (s.futureDraw k)) }

/-- UTEXT of the empty text completes in one byte read, with no poll and no write (R157). -/
def Obligations.UtextOfTheEmptyText : Prop :=
  ∀ (buf : Word) (s : State), s.seq = .idle → s.uart = .ready → s.readable buf = some 0 →
    exec (.utext buf) s = .next { s.answered 0 with hist := s.hist ++ [.byteRead buf 0] }

/-- UTEXT sends the text at `BUF` with a carriage return before every line feed, reads every byte up to the terminator once and in
address order, answers 0 and changes nothing else, provided enough of the polls to come read ready, which `TX_EVENTUALLY_READY` promises of any
number of them (R151, D23; R154, R155, R156, R157). -/
def Obligations.UtextSendsTheTranslatedText : Prop :=
  ∀ (buf : Word) (text : List Byte) (s : State), s.seq = .idle → s.uart = .ready → s.cfg.HasUart →
    s.HasText buf text → s.TxReadyTimes (crlf text).length →
    ∃ s1, exec (.utext buf) s = .next s1
      ∧ ∃ n t es, execFor (.utext buf) n s1 = .next t
        ∧ t.seq = .idle ∧ t.latches = Latches.empty
        ∧ t.respPort = some 0 ∧ t.responses = s.responses ++ [0]
        ∧ t.tx = s.tx ++ crlf text
        ∧ t.hist = s.hist ++ es
        ∧ es.filterMap byteReadAddr = (List.range (text.length + 1)).map (fun k => buf + BitVec.ofNat 32 k)
        ∧ t.cfg = s.cfg ∧ t.uart = s.uart ∧ t.cells = s.cells ∧ t.out = s.out ∧ t.bufmem = s.bufmem
        ∧ t.cmdPort = s.cmdPort ∧ t.fault = s.fault ∧ t.refusal = s.refusal

/-- A text that meets an unreadable byte before its terminator ends in the fault `Unmapped` at that byte, the bytes before it sent
(R156, R200; D24). -/
def Obligations.UtextFaultsAtAnUnreadableByte : Prop :=
  ∀ (buf : Word) (text : List Byte) (s : State), s.seq = .idle → s.uart = .ready → s.cfg.HasUart →
    s.HasBytes buf text → s.readable (buf + BitVec.ofNat 32 text.length) = none →
    s.TxReadyTimes (crlf text).length →
    ∃ n t, execFor (.utext buf) n s = .fault (.unmapped (buf + BitVec.ofNat 32 text.length) t)
      ∧ t.fault = some (.unmapped (buf + BitVec.ofNat 32 text.length))
      ∧ t.tx = s.tx ++ crlf text ∧ t.responses = s.responses

/-! ## Frames -/

/-- The frame of SETFIELD, FSEL, SETHIGH, SETLOW, PULL and ALT5: a micro-step leaves the parameters, `uart_state`, buffer memory and
the command port as they are; a storage register changes only if it is the one the second micro-step of the read-modify-write
writes (for ALT5, one of the two registers of its pin), and `OUT` and the transmit stream change only when that write is to a set,
clear or transmit register. -/
def Obligations.RegisterCommandFrame : Prop :=
  ∀ (i : Instr) (addrs : State → List Word) (s t : State),
    ((∃ bank index value w maxidx, i = .setfield bank index value w maxidx
        ∧ addrs = fun _ => [regAddr bank index w])
      ∨ (∃ pin f, i = .fsel pin f ∧ addrs = fun u => [regAddr u.cfg.gpfsel0 (pin.setWidth 32) 3])
      ∨ (∃ pin, i = .sethigh pin ∧ addrs = fun u => [regAddr u.cfg.gpset0 (pin.setWidth 32) 1])
      ∨ (∃ pin, i = .setlow pin ∧ addrs = fun u => [regAddr u.cfg.gpclr0 (pin.setWidth 32) 1])
      ∨ (∃ pin m, i = .pull pin m ∧ addrs = fun u => [regAddr u.cfg.gppuppdn0 (pin.setWidth 32) 2])
      ∨ (∃ pin, i = .alt5 pin ∧ addrs = fun u =>
          [regAddr u.cfg.gppuppdn0 (pin.setWidth 32) 2, regAddr u.cfg.gpfsel0 (pin.setWidth 32) 3])) →
    s.cells.wf = true → exec i s = .next t →
    t.cfg = s.cfg ∧ t.uart = s.uart ∧ t.bufmem = s.bufmem ∧ t.cmdPort = s.cmdPort
      ∧ t.fault = s.fault ∧ t.refusal = s.refusal
      ∧ (s.seq = .idle → t.cells = s.cells ∧ t.out = s.out ∧ t.tx = s.tx)
      ∧ (∀ b : Word, b ∉ addrs s → t.cell b = s.cell b)
      ∧ ((∀ a ∈ addrs s, s.cfg.classOf a = some .storage) → t.out = s.out ∧ t.tx = s.tx)

/-- The frame of URDY, USEND and UTEXT: a micro-step leaves every storage register, every pin latch, `uart_state`, the parameters,
buffer memory and the command port as they are, and the transmit stream gains a byte only where the sequencer stands at a write
of the data register: USEND's byte, UTEXT's carriage return, or the byte UTEXT read. -/
def Obligations.TransmitCommandFrame : Prop :=
  ∀ (i : Instr) (s t : State), (i = .urdy ∨ (∃ b, i = .usend b) ∨ ∃ buf, i = .utext buf) → s.cfg.HasUart →
    exec i s = .next t →
    t.cells = s.cells ∧ t.out = s.out ∧ t.uart = s.uart ∧ t.cfg = s.cfg ∧ t.bufmem = s.bufmem
      ∧ t.cmdPort = s.cmdPort ∧ t.fault = s.fault ∧ t.refusal = s.refusal
      ∧ ((∃ b, i = .usend b ∧ s.seq = .sendWrite ∧ t.tx = s.tx ++ [b])
        ∨ (∃ p, s.seq = .textWriteCr p ∧ t.tx = s.tx ++ [0x0D])
        ∨ (∃ p b, s.seq = .textWrite p b ∧ t.tx = s.tx ++ [b])
        ∨ ((∀ p, s.seq ≠ .textWriteCr p) ∧ (∀ p b, s.seq ≠ .textWrite p b)
          ∧ (s.seq = .sendWrite → ∀ b, i ≠ .usend b) ∧ t.tx = s.tx))

/-- The frame of UINIT with the default parameters: a micro-step leaves every pin latch, the transmit stream, buffer memory, the
parameters and the command port as they are, and a storage register changes only if `INIT_SEQ` writes it: a register of the
auxiliary block, GPPUPPDN0 or GPFSEL1. -/
def Obligations.UinitFrame : Prop :=
  ∀ s t : State, s.cfg = Config.default → s.cells.wf = true →
    (∀ todo m, s.seq = .init todo m → ∃ done, defaultInitSeq = done ++ todo) →
    exec .uinit s = .next t →
    t.out = s.out ∧ t.tx = s.tx ∧ t.bufmem = s.bufmem ∧ t.cfg = s.cfg ∧ t.cmdPort = s.cmdPort
      ∧ t.fault = s.fault ∧ t.refusal = s.refusal
      ∧ ∀ b : Word, b ∉ [0xFE215004#32, 0xFE215044#32, 0xFE215060#32, 0xFE21504C#32, 0xFE215050#32, 0xFE215068#32,
          0xFE2000E4#32, 0xFE200004#32] → t.cell b = s.cell b

/-! ## Rules of the whole machine -/

/-- Each command answers only the codes R171 gives it: SETFIELD 0, 1 or 2; the other addressor commands 0 or 1; URDY 0 or 1; UINIT,
USEND and UTEXT 0 (R23, R170, R171; the values are the spec's own decision D4). -/
def Obligations.ResponsesOfEachCommand : Prop :=
  ∀ (i : Instr) (s t : State), exec i s = .next t → t.seq = .idle →
    ∃ v, t.respPort = some v ∧ t.responses = s.responses ++ [v]
      ∧ match i with
        | .setfield _ _ _ _ _ => v = 0 ∨ v = 1 ∨ v = 2
        | .fsel _ _ => v = 0 ∨ v = 1
        | .sethigh _ => v = 0 ∨ v = 1
        | .setlow _ => v = 0 ∨ v = 1
        | .pull _ _ => v = 0 ∨ v = 1
        | .alt5 _ => v = 0 ∨ v = 1
        | .uinit => v = 0
        | .urdy => v = 0 ∨ v = 1
        | .usend _ => v = 0
        | .utext _ => v = 0

/-- An error changes no state: a command other than URDY that answers a code other than 0 made no access and left everything but
the response as it was, so the unit accepts the next command as after a success (R171, R175). -/
def Obligations.ErrorsChangeNothing : Prop :=
  ∀ (i : Instr) (s t : State) (v : Word), i ≠ .urdy → exec i s = .next t → t.seq = .idle → t.respPort = some v → v ≠ 0 →
    s.seq = .idle ∧ t = s.answered v

/-- `uart_state` changes only in UINIT, from Uninitialized to Ready, at the micro-step that completes it; no command sets it back, no
fault changes it, and reset has it Uninitialized (R144). -/
def Obligations.UartStateChangesOnlyInUinit : Prop :=
  (∀ (i : Instr) (s t : State), exec i s = .next t → t.uart ≠ s.uart →
    i = .uinit ∧ s.uart = .uninitialized ∧ t.uart = .ready ∧ t.seq = .idle ∧ t.respPort = some 0)
  ∧ (∀ (i : Instr) (s t : State) (a : Word), exec i s = .fault (.unmapped a t) → t.uart = s.uart)
  ∧ (∀ (i : Instr) (s t : State), exec i s = .fault (.uartNotInitialized t) → t.uart = s.uart)
  ∧ (∀ (i : Instr) (s t : State), exec i s = .fault (.uartReinitialized t) → t.uart = s.uart)
  ∧ (∀ (n : Nat) (s t : State), Host.Core.run core n s = .next t → s.uart = .ready → t.uart = .ready)
  ∧ State.reset.uart = .uninitialized

/-- No step makes more than one bus access, and every access appends exactly one event, which says what the access returned or did
(R41, R53, R55; the granularity is the spec's own decision D32). -/
def Obligations.OneAccessPerStep : Prop :=
  ∀ s t : State, step s = .next t → NoAccess s t ∨ ∃ e, AccessEffect s t e

/-- No step writes buffer memory or a parameter, and the history, the transmit stream and the responses only grow, while the command
port is only taken from (R26, R41, R50, R58, R66). -/
def Obligations.StepOnlyAppends : Prop :=
  ∀ s t : State, step s = .next t →
    t.cfg = s.cfg ∧ t.bufmem = s.bufmem
      ∧ (∃ es, t.hist = s.hist ++ es) ∧ (∃ bs, t.tx = s.tx ++ bs) ∧ (∃ vs, t.responses = s.responses ++ vs)
      ∧ ∃ ws, s.cmdPort = ws ++ t.cmdPort

/-- The history determines the device: over any run, every storage register holds the last word written to it in that order (or its
contents at the start), every read of a storage register returned the last write before it, the pin latches are what the set and
clear writes made them, and the transmit stream gained the bytes written to the data register (R25, R26, R34, R35, R37, R41, R61;
the sequential order is the spec's own decision D29). -/
def Obligations.HistoryDeterminesTheDevice : Prop :=
  ∀ (n : Nat) (s t : State), s.cells.wf = true → Host.Core.run core n s = .next t →
    ∃ es, t.hist = s.hist ++ es
      ∧ (∀ a, s.cfg.classOf a = some .storage → t.cell a = replayCell a es (s.cell a))
      ∧ readsAgree s.cfg (fun a => s.cell a) [] es
      ∧ t.out = es.foldl (outAfter s.cfg) s.out
      ∧ t.tx = s.tx ++ es.filterMap (txByte s.cfg)

/-! ## Reset, launch and the invariant -/

/-- What R46 and R190 state of reset: the UART uninitialized, the sequencer idle, no latch filled, an empty stream and history, no
mark. The model's choices: every storage register and pin latch, which R46 leaves unspecified, is 0 (assumption 1), and no response is
on the port or has been read (assumption 10). Reset is a launch state. -/
def Obligations.ResetIsALaunchState : Prop :=
  State.reset.Launch ∧ (∀ a : Word, State.reset.cell a = 0) ∧ (∀ p, State.reset.outPin p = false)

/-- Every launch state, whatever its registers, pin latches, buffer memory and parameters hold, meets the invariant (R46; what the
invariant and the launch say of the response port is the model's choice, assumption 10). -/
def Obligations.LaunchStatesMeetTheInvariant : Prop :=
  ∀ s : State, s.Launch → s.Inv

/-- Every step keeps the invariant, from every state that meets it: canonical storage and buffer memory, only storage registers
holding anything, no latch for a pin above `MAX_PIN`, the sequencer in step with the latches, `uart_state` fitting the command in
flight, and a transmit stream that is what the history says (R21, R22, R24 to R26, R37, R41, R58). The clause on the response port, the
last response between commands and nothing in flight, is the model's choice (assumption 10). -/
def Obligations.EveryStepKeepsTheInvariant : Prop :=
  ∀ s t : State, s.Inv → step s = .next t → t.Inv

/-- From a state that meets the invariant, a step stops only as the spec says, its mark set: a fault of R172 or a refusal of R173; it
never stops for want of a meaning or of a micro-step. -/
def Obligations.StepStopsOnlyAsTheSpecSays : Prop :=
  ∀ s : State, s.Inv →
    (∀ r, step s = .fault r →
      (∃ a t, r = .unmapped a t ∧ t.fault = some (.unmapped a))
        ∨ (∃ t, r = .uartNotInitialized t ∧ t.fault = some .uartNotInitialized)
        ∨ (∃ t, r = .uartReinitialized t ∧ t.fault = some .uartReinitialized))
    ∧ (∀ r, step s = .refused r →
      (∃ w t, r = .illegalCommand w t ∧ t.refusal = some (.illegalCommand w))
        ∨ (∃ a t, r = .readOfWriteOnlyAux a t ∧ t.refusal = some (.readOfWriteOnlyAux a))
        ∨ (∃ a t, r = .writeOfStatus a t ∧ t.refusal = some (.writeOfStatus a)))

/-! ## The parameters (42_uart.md section 2) -/

/-- The constraint on an `INIT_SEQ` gives R148's order: an interrupt-disable write, before every frame-format write, which all come
before the one divisor write, which comes before every console-pin access; both pins are muxed; and the last write of AUX_MU_CNTL
enables both paths and comes after every console-pin access (R145, R148). Which entry realises a source step, by register and bits, is
the model's choice (assumption 17). -/
def Obligations.InitSeqConstraintKeepsTheOrder : Prop :=
  ∀ l : List InitStep, initOrdered l = true →
    (∃ (i : Nat) (w : Word), l[i]? = some (.write .ier (.literal w)) ∧ w &&& 0x3 = 0)
      ∧ (∃ (i : Nat) (w : Word), l[i]? = some (.write .lcr (.literal w)) ∧ w &&& 0x1 = 1)
      ∧ (∃ i : Nat, l[i]? = some .muxTx) ∧ (∃ i : Nat, l[i]? = some .muxRx)
      ∧ (∀ (i j : Nat) (v w : Word),
          l[i]? = some (.write .ier (.literal v)) → l[j]? = some (.write .lcr (.literal w)) → i < j)
      ∧ (∃ b : Nat, l[b]? = some (.write .baud .divisor)
        ∧ (∀ i, l[i]? = some (.write .baud .divisor) → i = b)
        ∧ (∀ (i : Nat) (w : Word), l[i]? = some (.write .lcr (.literal w)) → i < b)
        ∧ ∀ j : Nat, l[j]? = some .muxTx ∨ l[j]? = some .muxRx → b < j)
      ∧ ∃ (k : Nat) (w : Word), l[k]? = some (.write .cntl (.literal w)) ∧ w &&& 0x3 = 0x3
        ∧ (∀ j : Nat, l[j]? = some .muxTx ∨ l[j]? = some .muxRx → j < k)
        ∧ ∀ (j : Nat) (v : InitValue), l[j]? = some (.write .cntl v) → j ≤ k
end

