-- ==== Sys2Proof/Laws/Memory.lean ====
section
/-!
SUPPORT. The laws of sparse data by address: reading after writing, and that every operation keeps the canonical form.
-/
namespace Sys2Proof.Machine

variable {α : Type}

/-- Every key of the list is above `a`. -/
def KeysAbove (a : Nat) (l : List (Nat × α)) : Prop := ∀ e ∈ l, a < e.1

theorem assocSorted_cons (a : Nat) (v : α) (l : List (Nat × α)) :
    assocSorted ((a, v) :: l) = true ↔ KeysAbove a l ∧ assocSorted l = true := by
  induction l generalizing a v with
  | nil => simp [assocSorted, KeysAbove]
  | cons e l ih =>
    obtain ⟨b, u⟩ := e
    simp only [assocSorted, Bool.and_eq_true, decide_eq_true_eq]
    constructor
    · rintro ⟨hab, hs⟩
      refine ⟨?_, hs⟩
      intro e he
      rcases List.mem_cons.mp he with rfl | he
      · exact hab
      · exact Nat.lt_trans hab (((ih b u).mp hs).1 e he)
    · rintro ⟨hk, hs⟩
      exact ⟨hk (b, u) (List.mem_cons_self ..), hs⟩

theorem assocFind_eq_none_of_above {a : Nat} {l : List (Nat × α)} (h : KeysAbove a l) : assocFind l a = none := by
  induction l with
  | nil => rfl
  | cons e l ih =>
    obtain ⟨b, u⟩ := e
    have hb : a < b := h (b, u) (List.mem_cons_self ..)
    simp only [assocFind, if_neg (Nat.ne_of_lt hb)]
    exact ih fun e he => h e (List.mem_cons_of_mem _ he)

theorem mem_of_assocFind {l : List (Nat × α)} {a : Nat} {v : α} (h : assocFind l a = some v) : (a, v) ∈ l := by
  induction l with
  | nil => simp [assocFind] at h
  | cons e l ih =>
    obtain ⟨b, u⟩ := e
    simp only [assocFind] at h
    split at h
    · cases h; subst_vars; exact List.mem_cons_self ..
    · exact List.mem_cons_of_mem _ (ih h)

/-! ## Membership after an update -/

theorem mem_assocInsert {l : List (Nat × α)} {a : Nat} {v : α} {e : Nat × α} (h : e ∈ assocInsert l a v) :
    e = (a, v) ∨ e ∈ l := by
  induction l with
  | nil => simpa [assocInsert] using h
  | cons x l ih =>
    obtain ⟨b, u⟩ := x
    simp only [assocInsert] at h
    split at h
    · simpa using h
    · split at h
      · rcases List.mem_cons.mp h with h | h
        · exact .inl h
        · exact .inr (List.mem_cons_of_mem _ h)
      · rcases List.mem_cons.mp h with h | h
        · exact .inr (h ▸ List.mem_cons_self ..)
        · exact (ih h).imp id (List.mem_cons_of_mem _)

theorem mem_assocErase {l : List (Nat × α)} {a : Nat} {e : Nat × α} (h : e ∈ assocErase l a) : e ∈ l := by
  induction l with
  | nil => simp [assocErase] at h
  | cons x l ih =>
    obtain ⟨b, u⟩ := x
    simp only [assocErase] at h
    split at h
    · exact List.mem_cons_of_mem _ h
    · rcases List.mem_cons.mp h with h | h
      · exact h ▸ List.mem_cons_self ..
      · exact List.mem_cons_of_mem _ (ih h)

/-! ## The order is kept -/

theorem assocInsert_sorted {l : List (Nat × α)} (a : Nat) (v : α) (h : assocSorted l = true) :
    assocSorted (assocInsert l a v) = true := by
  induction l with
  | nil => rfl
  | cons x l ih =>
    obtain ⟨b, u⟩ := x
    obtain ⟨hk, hs⟩ := (assocSorted_cons b u l).mp h
    simp only [assocInsert]
    split
    · next hab =>
      refine (assocSorted_cons ..).mpr ⟨fun e he => ?_, h⟩
      rcases List.mem_cons.mp he with rfl | he
      · exact hab
      · exact Nat.lt_trans hab (hk e he)
    · split
      · next hab => subst hab; exact (assocSorted_cons ..).mpr ⟨hk, hs⟩
      · next hlt hne =>
        refine (assocSorted_cons ..).mpr ⟨fun e he => ?_, ih hs⟩
        rcases mem_assocInsert he with rfl | he
        · show b < a; omega
        · exact hk e he

theorem assocErase_sorted {l : List (Nat × α)} (a : Nat) (h : assocSorted l = true) :
    assocSorted (assocErase l a) = true := by
  induction l with
  | nil => rfl
  | cons x l ih =>
    obtain ⟨b, u⟩ := x
    obtain ⟨hk, hs⟩ := (assocSorted_cons b u l).mp h
    simp only [assocErase]
    split
    · exact hs
    · exact (assocSorted_cons ..).mpr ⟨fun e he => hk e (mem_assocErase he), ih hs⟩

/-! ## Reading after an update -/

theorem assocFind_insert (l : List (Nat × α)) (a : Nat) (v : α) (b : Nat) :
    assocFind (assocInsert l a v) b = if b = a then some v else assocFind l b := by
  induction l with
  | nil => simp [assocInsert, assocFind]
  | cons x l ih =>
    obtain ⟨c, u⟩ := x
    simp only [assocInsert]
    split
    · simp [assocFind]
    · split
      · next hac => subst hac; simp only [assocFind]; split <;> rfl
      · next hne =>
        simp only [assocFind, ih]
        split
        · next hbc => subst hbc; simp [Ne.symm hne]
        · rfl

theorem assocFind_erase {l : List (Nat × α)} (h : assocSorted l = true) (a b : Nat) :
    assocFind (assocErase l a) b = if b = a then none else assocFind l b := by
  induction l with
  | nil => simp [assocErase, assocFind]
  | cons x l ih =>
    obtain ⟨c, u⟩ := x
    obtain ⟨hk, hs⟩ := (assocSorted_cons c u l).mp h
    simp only [assocErase]
    split
    · next hac =>
      subst hac
      simp only [assocFind]
      split
      · next hba => subst hba; exact assocFind_eq_none_of_above hk
      · rfl
    · next hne =>
      simp only [assocFind, ih hs]
      split
      · next hbc => subst hbc; simp [Ne.symm hne]
      · rfl

/-! ## Two updates of one key -/

theorem assocInsert_insert (l : List (Nat × α)) (a : Nat) (u v : α) :
    assocInsert (assocInsert l a u) a v = assocInsert l a v := by
  induction l with
  | nil => simp [assocInsert]
  | cons x l ih =>
    obtain ⟨b, w⟩ := x
    by_cases h1 : a < b
    · simp [assocInsert, h1]
    · by_cases h2 : a = b
      · simp [assocInsert, h2]
      · simp [assocInsert, h1, h2, ih]

theorem assocErase_of_above {l : List (Nat × α)} {a : Nat} (h : ∀ e ∈ l, a < e.1) : assocErase l a = l := by
  induction l with
  | nil => rfl
  | cons x l ih =>
    obtain ⟨b, w⟩ := x
    have hb : a < b := h _ (List.mem_cons_self ..)
    simp only [assocErase]
    rw [if_neg (by omega), ih fun e he => h e (List.mem_cons_of_mem _ he)]

theorem assocInsert_of_above {l : List (Nat × α)} {a : Nat} (v : α) (h : ∀ e ∈ l, a < e.1) :
    assocInsert l a v = (a, v) :: l := by
  cases l with
  | nil => rfl
  | cons x l => exact if_pos (h x (List.mem_cons_self ..))

theorem assocErase_insert {l : List (Nat × α)} (hs : assocSorted l = true) (a : Nat) (v : α) :
    assocErase (assocInsert l a v) a = assocErase l a := by
  induction l with
  | nil => simp [assocInsert, assocErase]
  | cons x l ih =>
    obtain ⟨b, w⟩ := x
    obtain ⟨hk, hs⟩ := (assocSorted_cons b w l).mp hs
    by_cases h1 : a < b
    · have h : ∀ e ∈ (b, w) :: l, a < e.1 := fun e he => by
        rcases List.mem_cons.mp he with rfl | he
        · exact h1
        · exact Nat.lt_trans h1 (hk e he)
      rw [assocErase_of_above h]
      simp [assocInsert, h1, assocErase]
    · by_cases h2 : a = b
      · simp [assocInsert, assocErase, h2]
      · simp [assocInsert, assocErase, h1, h2, ih hs]

theorem assocInsert_erase {l : List (Nat × α)} (hs : assocSorted l = true) (a : Nat) (v : α) :
    assocInsert (assocErase l a) a v = assocInsert l a v := by
  induction l with
  | nil => rfl
  | cons x l ih =>
    obtain ⟨b, w⟩ := x
    obtain ⟨hk, hs⟩ := (assocSorted_cons b w l).mp hs
    by_cases h2 : a = b
    · subst h2
      simp only [assocErase, assocInsert, if_true, Nat.lt_irrefl, if_false]
      exact assocInsert_of_above v hk
    · simp only [assocErase, if_neg h2, assocInsert, ih hs]
      split
      · next hab => rw [assocErase_of_above fun e he => Nat.lt_trans hab (hk e he)]
      · rfl

theorem assocErase_erase {l : List (Nat × α)} (hs : assocSorted l = true) (a : Nat) :
    assocErase (assocErase l a) a = assocErase l a := by
  induction l with
  | nil => rfl
  | cons x l ih =>
    obtain ⟨b, w⟩ := x
    obtain ⟨hk, hs⟩ := (assocSorted_cons b w l).mp hs
    by_cases h2 : a = b
    · subst h2
      simp only [assocErase, if_true]
      exact assocErase_of_above hk
    · simp only [assocErase, if_neg h2, ih hs]

/-! ## Storage cells -/

theorem Cells.wf_sorted {c : Cells} (h : c.wf = true) : assocSorted c = true := by
  simp only [Cells.wf, Bool.and_eq_true] at h
  exact h.1

theorem Cells.wf_entry {c : Cells} (h : c.wf = true) {e : Nat × BitVec 32} (he : e ∈ c) : e.1 < 2 ^ 32 ∧ e.2 ≠ 0 := by
  simp only [Cells.wf, Bool.and_eq_true, List.all_eq_true] at h
  simpa using h.2 e he

theorem Cells.wf_iff (c : Cells) : c.wf = true ↔ assocSorted c = true ∧ ∀ e ∈ c, e.1 < 2 ^ 32 ∧ e.2 ≠ 0 := by
  simp [Cells.wf]

theorem Cells.mem_write {c : Cells} {a v : Word} {e : Nat × BitVec 32} (he : e ∈ c.write a v) :
    (e = (a.toNat, v) ∧ v ≠ 0) ∨ e ∈ c := by
  unfold Cells.write at he
  split at he
  · exact .inr (mem_assocErase he)
  · next hv => exact (mem_assocInsert he).imp (fun h => ⟨h, hv⟩) id

/-- A write keeps the canonical form. -/
theorem Cells.write_wf {c : Cells} (h : c.wf = true) (a v : Word) : (c.write a v).wf = true := by
  refine (Cells.wf_iff _).mpr ⟨?_, fun e he => ?_⟩
  · unfold Cells.write
    split
    · exact assocErase_sorted _ (Cells.wf_sorted h)
    · exact assocInsert_sorted _ _ (Cells.wf_sorted h)
  · rcases Cells.mem_write he with ⟨rfl, hv⟩ | he
    · exact ⟨a.isLt, hv⟩
    · exact Cells.wf_entry h he

/-- Reading after writing (10_state.md R28). -/
theorem Cells.read_write {c : Cells} (h : c.wf = true) (a v b : Word) :
    (c.write a v).read b = if b = a then v else c.read b := by
  have hab : (b.toNat = a.toNat) = (b = a) := by rw [BitVec.toNat_inj]
  unfold Cells.read Cells.write
  split
  · next hv =>
    rw [assocFind_erase (Cells.wf_sorted h)]
    simp only [hab]
    split
    · simp [hv]
    · rfl
  · rw [assocFind_insert]
    simp only [hab]
    split <;> rfl

/-- The later of two writes to one register stands. -/
theorem Cells.write_write {c : Cells} (h : c.wf = true) (a u v : Word) : (c.write a u).write a v = c.write a v := by
  unfold Cells.write
  by_cases hu : u = 0 <;> by_cases hv : v = 0
  · simp only [if_pos hu, if_pos hv, assocErase_erase (Cells.wf_sorted h)]
  · simp only [if_pos hu, if_neg hv, assocInsert_erase (Cells.wf_sorted h)]
  · simp only [if_neg hu, if_pos hv, assocErase_insert (Cells.wf_sorted h)]
  · simp only [if_neg hu, if_neg hv, assocInsert_insert]

theorem Cells.nil_wf : Cells.wf [] = true := rfl

/-! ## Buffer memory -/

theorem Memory.wf_iff (m : Memory) : m.wf = true ↔ assocSorted m = true ∧ ∀ e ∈ m, e.1 < 2 ^ 32 := by
  simp [Memory.wf]

/-- The host's placing of a byte keeps the canonical form. -/
theorem Memory.place_wf {m : Memory} (h : m.wf = true) (a : Word) (b : Byte) : (m.place a b).wf = true := by
  obtain ⟨hs, hk⟩ := (Memory.wf_iff m).mp h
  refine (Memory.wf_iff _).mpr ⟨assocInsert_sorted _ _ hs, fun e he => ?_⟩
  rcases mem_assocInsert he with rfl | he
  · exact a.isLt
  · exact hk e he

/-- Reading after placing (20_memory.md R58). -/
theorem Memory.read_place (m : Memory) (a : Word) (b : Byte) (c : Word) :
    (m.place a b).read c = if c = a then some b else m.read c := by
  have hac : (c.toNat = a.toNat) = (c = a) := by rw [BitVec.toNat_inj]
  unfold Memory.read Memory.place
  rw [assocFind_insert]
  simp only [hac]

theorem Memory.nil_wf : Memory.wf [] = true := rfl

end Sys2Proof.Machine
end

