-- ==== Sys2Proof/Laws/State.lean ====
section
/-!
SUPPORT. One lemma per field per update of State: what each update leaves in each field. Later proofs cite these (all are
simp lemmas) and unfold no update.
-/
namespace Sys2Proof.Machine

variable (s : State)

/-! ## `State.accept` -/

@[simp] theorem State.accept_cfg (i : Instr) : (s.accept i).cfg = s.cfg := rfl
@[simp] theorem State.accept_latches (i : Instr) : (s.accept i).latches = latchesOf i := rfl
@[simp] theorem State.accept_seq (i : Instr) : (s.accept i).seq = s.seq := rfl
@[simp] theorem State.accept_uart (i : Instr) : (s.accept i).uart = s.uart := rfl
@[simp] theorem State.accept_respPort (i : Instr) : (s.accept i).respPort = none := rfl
@[simp] theorem State.accept_fault (i : Instr) : (s.accept i).fault = s.fault := rfl
@[simp] theorem State.accept_refusal (i : Instr) : (s.accept i).refusal = s.refusal := rfl
@[simp] theorem State.accept_out (i : Instr) : (s.accept i).out = s.out := rfl
@[simp] theorem State.accept_cells (i : Instr) : (s.accept i).cells = s.cells := rfl
@[simp] theorem State.accept_tx (i : Instr) : (s.accept i).tx = s.tx := rfl
@[simp] theorem State.accept_hist (i : Instr) : (s.accept i).hist = s.hist := rfl
@[simp] theorem State.accept_bufmem (i : Instr) : (s.accept i).bufmem = s.bufmem := rfl
@[simp] theorem State.accept_cmdPort (i : Instr) : (s.accept i).cmdPort = s.cmdPort := rfl
@[simp] theorem State.accept_responses (i : Instr) : (s.accept i).responses = s.responses := rfl
@[simp] theorem State.accept_env (i : Instr) : (s.accept i).env = s.env := rfl
@[simp] theorem State.accept_draws (i : Instr) : (s.accept i).draws = s.draws := rfl
@[simp] theorem State.accept_cell (i : Instr) (a : Word) : (s.accept i).cell a = s.cell a := rfl

/-! ## `State.goto` -/

@[simp] theorem State.goto_cfg (q : Seq) : (s.goto q).cfg = s.cfg := rfl
@[simp] theorem State.goto_latches (q : Seq) : (s.goto q).latches = s.latches := rfl
@[simp] theorem State.goto_seq (q : Seq) : (s.goto q).seq = q := rfl
@[simp] theorem State.goto_uart (q : Seq) : (s.goto q).uart = s.uart := rfl
@[simp] theorem State.goto_respPort (q : Seq) : (s.goto q).respPort = s.respPort := rfl
@[simp] theorem State.goto_fault (q : Seq) : (s.goto q).fault = s.fault := rfl
@[simp] theorem State.goto_refusal (q : Seq) : (s.goto q).refusal = s.refusal := rfl
@[simp] theorem State.goto_out (q : Seq) : (s.goto q).out = s.out := rfl
@[simp] theorem State.goto_cells (q : Seq) : (s.goto q).cells = s.cells := rfl
@[simp] theorem State.goto_tx (q : Seq) : (s.goto q).tx = s.tx := rfl
@[simp] theorem State.goto_hist (q : Seq) : (s.goto q).hist = s.hist := rfl
@[simp] theorem State.goto_bufmem (q : Seq) : (s.goto q).bufmem = s.bufmem := rfl
@[simp] theorem State.goto_cmdPort (q : Seq) : (s.goto q).cmdPort = s.cmdPort := rfl
@[simp] theorem State.goto_responses (q : Seq) : (s.goto q).responses = s.responses := rfl
@[simp] theorem State.goto_env (q : Seq) : (s.goto q).env = s.env := rfl
@[simp] theorem State.goto_draws (q : Seq) : (s.goto q).draws = s.draws := rfl
@[simp] theorem State.goto_cell (q : Seq) (a : Word) : (s.goto q).cell a = s.cell a := rfl

/-! ## `State.respond` -/

@[simp] theorem State.respond_cfg (v : Word) : (s.respond v).cfg = s.cfg := rfl
@[simp] theorem State.respond_latches (v : Word) : (s.respond v).latches = Latches.empty := rfl
@[simp] theorem State.respond_seq (v : Word) : (s.respond v).seq = .idle := rfl
@[simp] theorem State.respond_uart (v : Word) : (s.respond v).uart = s.uart := rfl
@[simp] theorem State.respond_respPort (v : Word) : (s.respond v).respPort = some v := rfl
@[simp] theorem State.respond_fault (v : Word) : (s.respond v).fault = s.fault := rfl
@[simp] theorem State.respond_refusal (v : Word) : (s.respond v).refusal = s.refusal := rfl
@[simp] theorem State.respond_out (v : Word) : (s.respond v).out = s.out := rfl
@[simp] theorem State.respond_cells (v : Word) : (s.respond v).cells = s.cells := rfl
@[simp] theorem State.respond_tx (v : Word) : (s.respond v).tx = s.tx := rfl
@[simp] theorem State.respond_hist (v : Word) : (s.respond v).hist = s.hist := rfl
@[simp] theorem State.respond_bufmem (v : Word) : (s.respond v).bufmem = s.bufmem := rfl
@[simp] theorem State.respond_cmdPort (v : Word) : (s.respond v).cmdPort = s.cmdPort := rfl
@[simp] theorem State.respond_responses (v : Word) : (s.respond v).responses = s.responses ++ [v] := rfl
@[simp] theorem State.respond_env (v : Word) : (s.respond v).env = s.env := rfl
@[simp] theorem State.respond_draws (v : Word) : (s.respond v).draws = s.draws := rfl
@[simp] theorem State.respond_cell (v : Word) (a : Word) : (s.respond v).cell a = s.cell a := rfl

/-! ## `State.record` -/

@[simp] theorem State.record_cfg (e : Event) : (s.record e).cfg = s.cfg := rfl
@[simp] theorem State.record_latches (e : Event) : (s.record e).latches = s.latches := rfl
@[simp] theorem State.record_seq (e : Event) : (s.record e).seq = s.seq := rfl
@[simp] theorem State.record_uart (e : Event) : (s.record e).uart = s.uart := rfl
@[simp] theorem State.record_respPort (e : Event) : (s.record e).respPort = s.respPort := rfl
@[simp] theorem State.record_fault (e : Event) : (s.record e).fault = s.fault := rfl
@[simp] theorem State.record_refusal (e : Event) : (s.record e).refusal = s.refusal := rfl
@[simp] theorem State.record_out (e : Event) : (s.record e).out = s.out := rfl
@[simp] theorem State.record_cells (e : Event) : (s.record e).cells = s.cells := rfl
@[simp] theorem State.record_tx (e : Event) : (s.record e).tx = s.tx := rfl
@[simp] theorem State.record_hist (e : Event) : (s.record e).hist = s.hist ++ [e] := rfl
@[simp] theorem State.record_bufmem (e : Event) : (s.record e).bufmem = s.bufmem := rfl
@[simp] theorem State.record_cmdPort (e : Event) : (s.record e).cmdPort = s.cmdPort := rfl
@[simp] theorem State.record_responses (e : Event) : (s.record e).responses = s.responses := rfl
@[simp] theorem State.record_env (e : Event) : (s.record e).env = s.env := rfl
@[simp] theorem State.record_draws (e : Event) : (s.record e).draws = s.draws := rfl
@[simp] theorem State.record_cell (e : Event) (a : Word) : (s.record e).cell a = s.cell a := rfl

/-! ## `State.take` -/

@[simp] theorem State.take_cfg (ws : List Word) : (s.take ws).cfg = s.cfg := rfl
@[simp] theorem State.take_latches (ws : List Word) : (s.take ws).latches = s.latches := rfl
@[simp] theorem State.take_seq (ws : List Word) : (s.take ws).seq = s.seq := rfl
@[simp] theorem State.take_uart (ws : List Word) : (s.take ws).uart = s.uart := rfl
@[simp] theorem State.take_respPort (ws : List Word) : (s.take ws).respPort = s.respPort := rfl
@[simp] theorem State.take_fault (ws : List Word) : (s.take ws).fault = s.fault := rfl
@[simp] theorem State.take_refusal (ws : List Word) : (s.take ws).refusal = s.refusal := rfl
@[simp] theorem State.take_out (ws : List Word) : (s.take ws).out = s.out := rfl
@[simp] theorem State.take_cells (ws : List Word) : (s.take ws).cells = s.cells := rfl
@[simp] theorem State.take_tx (ws : List Word) : (s.take ws).tx = s.tx := rfl
@[simp] theorem State.take_hist (ws : List Word) : (s.take ws).hist = s.hist := rfl
@[simp] theorem State.take_bufmem (ws : List Word) : (s.take ws).bufmem = s.bufmem := rfl
@[simp] theorem State.take_cmdPort (ws : List Word) : (s.take ws).cmdPort = ws := rfl
@[simp] theorem State.take_responses (ws : List Word) : (s.take ws).responses = s.responses := rfl
@[simp] theorem State.take_env (ws : List Word) : (s.take ws).env = s.env := rfl
@[simp] theorem State.take_draws (ws : List Word) : (s.take ws).draws = s.draws := rfl
@[simp] theorem State.take_cell (ws : List Word) (a : Word) : (s.take ws).cell a = s.cell a := rfl

/-! ## `State.present` -/

@[simp] theorem State.present_cfg (ws : List Word) : (s.present ws).cfg = s.cfg := rfl
@[simp] theorem State.present_latches (ws : List Word) : (s.present ws).latches = Latches.empty := rfl
@[simp] theorem State.present_seq (ws : List Word) : (s.present ws).seq = .idle := rfl
@[simp] theorem State.present_uart (ws : List Word) : (s.present ws).uart = s.uart := rfl
@[simp] theorem State.present_respPort (ws : List Word) : (s.present ws).respPort = s.respPort := rfl
@[simp] theorem State.present_fault (ws : List Word) : (s.present ws).fault = none := rfl
@[simp] theorem State.present_refusal (ws : List Word) : (s.present ws).refusal = none := rfl
@[simp] theorem State.present_out (ws : List Word) : (s.present ws).out = s.out := rfl
@[simp] theorem State.present_cells (ws : List Word) : (s.present ws).cells = s.cells := rfl
@[simp] theorem State.present_tx (ws : List Word) : (s.present ws).tx = s.tx := rfl
@[simp] theorem State.present_hist (ws : List Word) : (s.present ws).hist = s.hist := rfl
@[simp] theorem State.present_bufmem (ws : List Word) : (s.present ws).bufmem = s.bufmem := rfl
@[simp] theorem State.present_cmdPort (ws : List Word) : (s.present ws).cmdPort = ws ++ s.cmdPort := rfl
@[simp] theorem State.present_responses (ws : List Word) : (s.present ws).responses = s.responses := rfl
@[simp] theorem State.present_env (ws : List Word) : (s.present ws).env = s.env := rfl
@[simp] theorem State.present_draws (ws : List Word) : (s.present ws).draws = s.draws := rfl
@[simp] theorem State.present_cell (ws : List Word) (a : Word) : (s.present ws).cell a = s.cell a := rfl

/-! ## `State.answered` -/

@[simp] theorem State.answered_cfg (v : Word) : (s.answered v).cfg = s.cfg := rfl
@[simp] theorem State.answered_latches (v : Word) : (s.answered v).latches = Latches.empty := rfl
@[simp] theorem State.answered_seq (v : Word) : (s.answered v).seq = .idle := rfl
@[simp] theorem State.answered_uart (v : Word) : (s.answered v).uart = s.uart := rfl
@[simp] theorem State.answered_respPort (v : Word) : (s.answered v).respPort = some v := rfl
@[simp] theorem State.answered_fault (v : Word) : (s.answered v).fault = s.fault := rfl
@[simp] theorem State.answered_refusal (v : Word) : (s.answered v).refusal = s.refusal := rfl
@[simp] theorem State.answered_out (v : Word) : (s.answered v).out = s.out := rfl
@[simp] theorem State.answered_cells (v : Word) : (s.answered v).cells = s.cells := rfl
@[simp] theorem State.answered_tx (v : Word) : (s.answered v).tx = s.tx := rfl
@[simp] theorem State.answered_hist (v : Word) : (s.answered v).hist = s.hist := rfl
@[simp] theorem State.answered_bufmem (v : Word) : (s.answered v).bufmem = s.bufmem := rfl
@[simp] theorem State.answered_cmdPort (v : Word) : (s.answered v).cmdPort = s.cmdPort := rfl
@[simp] theorem State.answered_responses (v : Word) : (s.answered v).responses = s.responses ++ [v] := rfl
@[simp] theorem State.answered_env (v : Word) : (s.answered v).env = s.env := rfl
@[simp] theorem State.answered_draws (v : Word) : (s.answered v).draws = s.draws := rfl
@[simp] theorem State.answered_cell (v : Word) (a : Word) : (s.answered v).cell a = s.cell a := rfl

/-! ## `State.afterDraws` -/

@[simp] theorem State.afterDraws_cfg (k : Nat) : (s.afterDraws k).cfg = s.cfg := rfl
@[simp] theorem State.afterDraws_latches (k : Nat) : (s.afterDraws k).latches = s.latches := rfl
@[simp] theorem State.afterDraws_seq (k : Nat) : (s.afterDraws k).seq = s.seq := rfl
@[simp] theorem State.afterDraws_uart (k : Nat) : (s.afterDraws k).uart = s.uart := rfl
@[simp] theorem State.afterDraws_respPort (k : Nat) : (s.afterDraws k).respPort = s.respPort := rfl
@[simp] theorem State.afterDraws_fault (k : Nat) : (s.afterDraws k).fault = s.fault := rfl
@[simp] theorem State.afterDraws_refusal (k : Nat) : (s.afterDraws k).refusal = s.refusal := rfl
@[simp] theorem State.afterDraws_out (k : Nat) : (s.afterDraws k).out = s.out := rfl
@[simp] theorem State.afterDraws_cells (k : Nat) : (s.afterDraws k).cells = s.cells := rfl
@[simp] theorem State.afterDraws_tx (k : Nat) : (s.afterDraws k).tx = s.tx := rfl
@[simp] theorem State.afterDraws_hist (k : Nat) : (s.afterDraws k).hist = s.hist := rfl
@[simp] theorem State.afterDraws_bufmem (k : Nat) : (s.afterDraws k).bufmem = s.bufmem := rfl
@[simp] theorem State.afterDraws_cmdPort (k : Nat) : (s.afterDraws k).cmdPort = s.cmdPort := rfl
@[simp] theorem State.afterDraws_responses (k : Nat) : (s.afterDraws k).responses = s.responses := rfl
@[simp] theorem State.afterDraws_env (k : Nat) : (s.afterDraws k).env = s.env.drop k := rfl
@[simp] theorem State.afterDraws_draws (k : Nat) : (s.afterDraws k).draws = s.draws + (k - s.env.length) := rfl
@[simp] theorem State.afterDraws_cell (k : Nat) (a : Word) : (s.afterDraws k).cell a = s.cell a := rfl

/-! ## Draws -/

theorem State.nextDraw_eq : s.nextDraw = s.futureDraw 0 := by
  unfold State.nextDraw State.futureDraw
  cases s.env <;> simp

theorem State.afterDraw_eq : s.afterDraw = s.afterDraws 1 := by
  unfold State.afterDraw State.afterDraws
  cases s.env <;> simp

@[simp] theorem State.afterDraws_zero : s.afterDraws 0 = s := by
  simp [State.afterDraws]

theorem State.afterDraws_afterDraws (m k : Nat) : (s.afterDraws m).afterDraws k = s.afterDraws (m + k) := by
  simp only [State.afterDraws, List.drop_drop, List.length_drop]
  congr 1
  omega

/-- Draws to come after some have been taken. -/
theorem State.futureDraw_afterDraws (m k : Nat) : (s.afterDraws m).futureDraw k = s.futureDraw (m + k) := by
  unfold State.futureDraw State.afterDraws
  simp only [List.length_drop]
  split <;> split
  · rw [List.getD_eq_getElem?_getD, List.getD_eq_getElem?_getD, List.getElem?_drop]
  · omega
  · omega
  · congr 1
    omega

/-- The draws depend only on what the environment has lined up and on the counter. -/
theorem State.futureDraw_congr {s t : State} (he : t.env = s.env) (hd : t.draws = s.draws) (k : Nat) :
    t.futureDraw k = s.futureDraw k := by
  unfold State.futureDraw
  rw [he, hd]

@[simp] theorem State.goto_futureDraw (q : Seq) (k : Nat) : (s.goto q).futureDraw k = s.futureDraw k := rfl
@[simp] theorem State.record_futureDraw (e : Event) (k : Nat) : (s.record e).futureDraw k = s.futureDraw k := rfl
@[simp] theorem State.accept_futureDraw (i : Instr) (k : Nat) : (s.accept i).futureDraw k = s.futureDraw k := rfl
@[simp] theorem State.respond_futureDraw (v : Word) (k : Nat) : (s.respond v).futureDraw k = s.futureDraw k := rfl

end Sys2Proof.Machine
end

