-- ==== Sys2Proof/Laws/Ops.lean ====
section
/-!
SUPPORT. One lemma per shared operation: for a bus primitive, what it does at each class of address, and the inversion lemma that
says once everything it can do when what follows answers a next state.
-/
namespace Sys2Proof.Machine

variable {a v : Word} {s t : State} {k : Word → State → Out} {j : State → Out}

/-! ## Stops never answer a next state -/

@[simp] theorem faultWith_ne_next (f : FaultKind) (s t : State) : faultWith f s ≠ .next t := by
  cases f <;> simp [faultWith]

@[simp] theorem refuseWith_ne_next (r : RefusalKind) (s t : State) : refuseWith r s ≠ .next t := by
  cases r <;> simp [refuseWith]

/-! ## Draws -/

@[simp] theorem afterSetclrRead_cfg (s : State) : s.afterSetclrRead.cfg = s.cfg := by
  unfold State.afterSetclrRead
  split
  · rw [State.afterDraw_eq]; rfl
  · rfl

/-- A read of a set or clear register takes one draw, or none. -/
theorem afterSetclrRead_eq (s : State) :
    s.afterSetclrRead = s.afterDraws s.cfg.setclrDraws := by
  unfold State.afterSetclrRead Config.setclrDraws
  cases hc : s.cfg.setclrRead with
  | draw => exact State.afterDraw_eq s
  | zero => exact (State.afterDraws_zero s).symm

/-- What it returns: the draw, or 0. -/
theorem setclrValue_eq (s : State) :
    s.setclrValue = s.setclrAnswer := by
  unfold State.setclrValue State.setclrAnswer
  cases hc : s.cfg.setclrRead with
  | draw => exact State.nextDraw_eq s
  | zero => rfl

/-! ## `MemRead` by class (20_memory.md R53) -/

theorem memRead_unmapped (h : s.cfg.classOf a = none) : memRead a s k = faultWith (.unmapped a) s := by
  simp [memRead, h]

theorem memRead_storage (h : s.cfg.classOf a = some .storage) :
    memRead a s k = k (s.cell a) (s.record (.read a (s.cell a))) := by
  simp [memRead, h]

theorem memRead_setReg {n : Nat} (h : s.cfg.classOf a = some (.setReg n)) :
    memRead a s k = k s.setclrAnswer ((s.afterDraws s.cfg.setclrDraws).record (.read a s.setclrAnswer)) := by
  simp [memRead, h, setclrValue_eq, afterSetclrRead_eq]

theorem memRead_clrReg {n : Nat} (h : s.cfg.classOf a = some (.clrReg n)) :
    memRead a s k = k s.setclrAnswer ((s.afterDraws s.cfg.setclrDraws).record (.read a s.setclrAnswer)) := by
  simp [memRead, h, setclrValue_eq, afterSetclrRead_eq]

theorem memRead_status (h : s.cfg.classOf a = some .status) :
    memRead a s k = k (s.futureDraw 0) ((s.afterDraws 1).record (.read a (s.futureDraw 0))) := by
  simp [memRead, h, State.nextDraw_eq, State.afterDraw_eq]

theorem memRead_txData (h : s.cfg.classOf a = some .txData) : memRead a s k = refuseWith (.readOfWriteOnlyAux a) s := by
  simp [memRead, h]

theorem memRead_iir (h : s.cfg.classOf a = some .iir) : memRead a s k = refuseWith (.readOfWriteOnlyAux a) s := by
  simp [memRead, h]

/-! ## `MemWrite` by class (20_memory.md R53) -/

theorem memWrite_unmapped (h : s.cfg.classOf a = none) : memWrite a v s j = faultWith (.unmapped a) s := by
  simp [memWrite, h]

theorem memWrite_storage (h : s.cfg.classOf a = some .storage) :
    memWrite a v s j = j ({ s with cells := s.cells.write a v }.record (.write a v)) := by
  simp [memWrite, h]

theorem memWrite_setReg {n : Nat} (h : s.cfg.classOf a = some (.setReg n)) :
    memWrite a v s j = j ({ s with out := s.out ||| actedPins s.cfg.maxPin n v }.record (.write a v)) := by
  simp [memWrite, h]

theorem memWrite_clrReg {n : Nat} (h : s.cfg.classOf a = some (.clrReg n)) :
    memWrite a v s j = j ({ s with out := s.out &&& ~~~actedPins s.cfg.maxPin n v }.record (.write a v)) := by
  simp [memWrite, h]

theorem memWrite_txData (h : s.cfg.classOf a = some .txData) :
    memWrite a v s j = j ({ s with tx := s.tx ++ [v.setWidth 8] }.record (.write a v)) := by
  simp [memWrite, h]

theorem memWrite_iir (h : s.cfg.classOf a = some .iir) : memWrite a v s j = j (s.record (.write a v)) := by
  simp [memWrite, h]

theorem memWrite_status (h : s.cfg.classOf a = some .status) : memWrite a v s j = refuseWith (.writeOfStatus a) s := by
  simp [memWrite, h]

/-! ## `ByteRead` (20_memory.md R58) -/

theorem byteRead_readable {b : Byte} {q : Byte → State → Out} (h : s.readable a = some b) :
    byteRead a s q = q b (s.record (.byteRead a b)) := by
  unfold State.readable at h
  split at h
  · cases h
  · next hd => simp [byteRead, hd, h]

theorem byteRead_unreadable {q : Byte → State → Out} (h : s.readable a = none) :
    byteRead a s q = faultWith (.unmapped a) s := by
  unfold State.readable at h
  split at h
  · next hd => simp [byteRead, hd]
  · next hd => simp [byteRead, hd, h]

/-! ## Inversion: everything a bus primitive can do on the way to a next state -/

/-- The parts of the state no bus primitive touches. -/
structure SameUnit (s t : State) : Prop where
  cfg : t.cfg = s.cfg
  latches : t.latches = s.latches
  seq : t.seq = s.seq
  uart : t.uart = s.uart
  respPort : t.respPort = s.respPort
  fault : t.fault = s.fault
  refusal : t.refusal = s.refusal
  bufmem : t.bufmem = s.bufmem
  cmdPort : t.cmdPort = s.cmdPort
  responses : t.responses = s.responses

theorem memRead_next (h : memRead a s k = .next t) :
    ∃ u s', k u s' = .next t ∧ SameUnit s s' ∧ AccessEffect s s' (.read a u) := by
  have draws (n : Nat) (u : Word) (hc : s.cfg.classOf a ≠ some .storage) :
      SameUnit s ((s.afterDraws n).record (.read a u)) ∧
        AccessEffect s ((s.afterDraws n).record (.read a u)) (.read a u) := by
    refine ⟨⟨rfl, rfl, rfl, rfl, rfl, rfl, rfl, rfl, rfl, rfl⟩, ⟨rfl, rfl, rfl, by simp [txByte], ?_, ?_⟩⟩
    · intro b w he hs
      cases he
      exact absurd hs hc
    · intro b w he
      cases he
  cases hc : s.cfg.classOf a with
  | none => rw [memRead_unmapped hc] at h; exact (faultWith_ne_next _ _ _ h).elim
  | some c =>
    cases c with
    | storage =>
      rw [memRead_storage hc] at h
      refine ⟨_, _, h, ⟨rfl, rfl, rfl, rfl, rfl, rfl, rfl, rfl, rfl, rfl⟩, ⟨rfl, rfl, rfl, by simp [txByte], ?_, ?_⟩⟩
      · intro b w he _
        cases he
        rfl
      · intro b w he
        cases he
    | setReg n =>
      rw [memRead_setReg hc] at h
      exact ⟨_, _, h, draws _ _ (by rw [hc]; simp)⟩
    | clrReg n =>
      rw [memRead_clrReg hc] at h
      exact ⟨_, _, h, draws _ _ (by rw [hc]; simp)⟩
    | status =>
      rw [memRead_status hc] at h
      exact ⟨_, _, h, draws _ _ (by rw [hc]; simp)⟩
    | iir => rw [memRead_iir hc] at h; exact (refuseWith_ne_next _ _ _ h).elim
    | txData => rw [memRead_txData hc] at h; exact (refuseWith_ne_next _ _ _ h).elim

theorem memWrite_next (h : memWrite a v s j = .next t) :
    ∃ s', j s' = .next t ∧ SameUnit s s' ∧ AccessEffect s s' (.write a v) := by
  have noRead (b w : Word) (he : Event.write a v = .read b w) : s.cfg.classOf b = some .storage → w = s.cell b := by
    cases he
  have noByte (b : Word) (w : Byte) (he : Event.write a v = .byteRead b w) : s.readable b = some w := by
    cases he
  cases hc : s.cfg.classOf a with
  | none => rw [memWrite_unmapped hc] at h; exact (faultWith_ne_next _ _ _ h).elim
  | some c =>
    cases c with
    | storage =>
      rw [memWrite_storage hc] at h
      exact ⟨_, h, ⟨rfl, rfl, rfl, rfl, rfl, rfl, rfl, rfl, rfl, rfl⟩,
        ⟨rfl, by simp [cellsAfter, hc], by simp [outAfter, hc], by simp [txByte, hc], noRead, noByte⟩⟩
    | setReg n =>
      rw [memWrite_setReg hc] at h
      exact ⟨_, h, ⟨rfl, rfl, rfl, rfl, rfl, rfl, rfl, rfl, rfl, rfl⟩,
        ⟨rfl, by simp [cellsAfter, hc], by simp [outAfter, hc], by simp [txByte, hc], noRead, noByte⟩⟩
    | clrReg n =>
      rw [memWrite_clrReg hc] at h
      exact ⟨_, h, ⟨rfl, rfl, rfl, rfl, rfl, rfl, rfl, rfl, rfl, rfl⟩,
        ⟨rfl, by simp [cellsAfter, hc], by simp [outAfter, hc], by simp [txByte, hc], noRead, noByte⟩⟩
    | txData =>
      rw [memWrite_txData hc] at h
      exact ⟨_, h, ⟨rfl, rfl, rfl, rfl, rfl, rfl, rfl, rfl, rfl, rfl⟩,
        ⟨rfl, by simp [cellsAfter, hc], by simp [outAfter, hc], by simp [txByte, hc], noRead, noByte⟩⟩
    | iir =>
      rw [memWrite_iir hc] at h
      exact ⟨_, h, ⟨rfl, rfl, rfl, rfl, rfl, rfl, rfl, rfl, rfl, rfl⟩,
        ⟨rfl, by simp [cellsAfter, hc], by simp [outAfter, hc], by simp [txByte, hc], noRead, noByte⟩⟩
    | status => rw [memWrite_status hc] at h; exact (refuseWith_ne_next _ _ _ h).elim

theorem byteRead_next {q : Byte → State → Out} (h : byteRead a s q = .next t) :
    ∃ b s', q b s' = .next t ∧ SameUnit s s' ∧ AccessEffect s s' (.byteRead a b) := by
  cases hr : s.readable a with
  | none => rw [byteRead_unreadable hr] at h; exact (faultWith_ne_next _ _ _ h).elim
  | some b =>
    rw [byteRead_readable hr] at h
    refine ⟨_, _, h, ⟨rfl, rfl, rfl, rfl, rfl, rfl, rfl, rfl, rfl, rfl⟩, ⟨rfl, rfl, rfl, by simp [txByte], ?_, ?_⟩⟩
    · intro _ _ he
      cases he
    · intro _ _ he
      cases he
      exact hr

/-! ## The read-modify-write, ALT5's accesses and the poll -/

theorem fieldRead_next {bank index : Word} {w : BitVec 2} (h : fieldRead bank index w s = .next t) :
    ∃ u s', t = s'.goto (.fieldWrite u) ∧ SameUnit s s' ∧ AccessEffect s s' (.read (regAddr bank index w) u) := by
  obtain ⟨u, s', hk, hu, he⟩ := memRead_next h
  cases hk
  exact ⟨u, s', rfl, hu, he⟩

theorem fieldWrite_next {bank index value : Word} {w : BitVec 2} {cur : Word}
    (h : fieldWrite bank index value w cur s = .next t) :
    ∃ s', t = s'.respond 0 ∧ SameUnit s s' ∧
      AccessEffect s s' (.write (regAddr bank index w) (insertField cur (fieldMask w) value (bitShift index w))) := by
  obtain ⟨s', hk, hu, he⟩ := memWrite_next h
  cases hk
  exact ⟨s', rfl, hu, he⟩

theorem pollTxReady_next {q r : Seq} (h : pollTxReady q r s = .next t) :
    ∃ u s', t = s'.goto (if txReady s.cfg u then q else r) ∧ SameUnit s s' ∧
      AccessEffect s s' (.read (s.cfg.aux .lsr) u) := by
  obtain ⟨u, s', hk, hu, he⟩ := memRead_next h
  cases hk
  exact ⟨u, s', rfl, hu, he⟩

theorem alt5Access_next {pin : BitVec 8} {m : Alt5Step} {more : Alt5Step → State → Out}
    (h : alt5Access pin m s more j = .next t) :
    ∃ e s', ((∃ m', more m' s' = .next t) ∨ j s' = .next t) ∧ SameUnit s s' ∧ AccessEffect s s' e := by
  cases m <;> simp only [alt5Access] at h
  · obtain ⟨u, s', hk, hu, he⟩ := memRead_next h
    exact ⟨_, s', .inl ⟨_, hk⟩, hu, he⟩
  · obtain ⟨s', hk, hu, he⟩ := memWrite_next h
    exact ⟨_, s', .inl ⟨_, hk⟩, hu, he⟩
  · obtain ⟨u, s', hk, hu, he⟩ := memRead_next h
    exact ⟨_, s', .inl ⟨_, hk⟩, hu, he⟩
  · obtain ⟨s', hk, hu, he⟩ := memWrite_next h
    exact ⟨_, s', .inr hk, hu, he⟩

end Sys2Proof.Machine
end

