-- ==== Sys2Proof/Laws/Exec.lean ====
section
/-!
SUPPORT. The inversion lemma of the machine: everything `exec` can do when it answers a next state. Invariants and frames cite it
and unfold no meaning.
-/
namespace Sys2Proof.Machine

/-- The command has ended: a response is on the port and the unit is idle. -/
structure Ended (s t : State) (v : Word) : Prop where
  seq : t.seq = .idle
  latches : t.latches = Latches.empty
  respPort : t.respPort = some v
  responses : t.responses = s.responses ++ [v]

/-- The command is in flight at one of its micro-steps. -/
structure InFlight (i : Instr) (s t : State) : Prop where
  seq : ownsSeq i t.seq = true
  latches : t.latches = if s.seq = .idle then latchesOf i else s.latches
  respPort : t.respPort = if s.seq = .idle then none else s.respPort
  responses : t.responses = s.responses

/-- What one micro-step of command `i` does. -/
structure ExecEffect (i : Instr) (s t : State) : Prop where
  cfg : t.cfg = s.cfg
  bufmem : t.bufmem = s.bufmem
  cmdPort : t.cmdPort = s.cmdPort
  fault : t.fault = s.fault
  refusal : t.refusal = s.refusal
  access : NoAccess s t ∨ ∃ e, AccessEffect s t e
  phase : (∃ v, Ended s t v) ∨ InFlight i s t
  uart : t.uart = s.uart ∨ (i = .uinit ∧ t.uart = .ready ∧ t.seq = .idle)
  /-- From an idle unit the state check has passed; otherwise the sequencer stood at a micro-step of the command. -/
  started : (s.seq = .idle ∧ uartFits i s.uart = true) ∨ ownsSeq i s.seq = true

variable {i : Instr} {s s' t : State}

/-! ## Composing a micro-step -/

theorem AccessEffect.trans_unit {e : Event} (h : AccessEffect s s' e) (hh : t.hist = s'.hist) (hc : t.cells = s'.cells)
    (ho : t.out = s'.out) (hx : t.tx = s'.tx) : AccessEffect s t e :=
  ⟨hh.trans h.recorded, hc.trans h.cells, ho.trans h.out, hx.trans h.tx, h.read_value, h.byte_value⟩

/-- An access from an accepted command is an access from the state before acceptance. -/
theorem AccessEffect.of_accept {e : Event} (h : AccessEffect (s.accept i) t e) : AccessEffect s t e :=
  ⟨h.recorded, h.cells, h.out, h.tx, h.read_value, h.byte_value⟩

/-- A command that answers at once. -/
theorem ExecEffect.answer (hs : s.seq = .idle) (hu : uartFits i s.uart = true) (v : Word) :
    ExecEffect i s ((s.accept i).respond v) :=
  ⟨rfl, rfl, rfl, rfl, rfl, .inl ⟨rfl, rfl, rfl, rfl⟩, .inl ⟨v, ⟨rfl, rfl, rfl, rfl⟩⟩, .inl rfl, .inl ⟨hs, hu⟩⟩

/-- The first access of a command that goes on. -/
theorem ExecEffect.start {e : Event} {q : Seq} (hs : s.seq = .idle) (hu : uartFits i s.uart = true)
    (hk : SameUnit (s.accept i) s') (he : AccessEffect (s.accept i) s' e) (hq : ownsSeq i q = true) :
    ExecEffect i s (s'.goto q) :=
  ⟨hk.cfg, hk.bufmem, hk.cmdPort, hk.fault, hk.refusal,
    .inr ⟨e, he.of_accept.trans_unit rfl rfl rfl rfl⟩,
    .inr ⟨hq, by simp [hs, hk.latches], by simp [hs, hk.respPort], hk.responses⟩, .inl hk.uart, .inl ⟨hs, hu⟩⟩

/-- A command whose first access is its last. -/
theorem ExecEffect.start_end {e : Event} {v : Word} (hs : s.seq = .idle) (hu : uartFits i s.uart = true)
    (hk : SameUnit (s.accept i) s') (he : AccessEffect (s.accept i) s' e) : ExecEffect i s (s'.respond v) :=
  ⟨hk.cfg, hk.bufmem, hk.cmdPort, hk.fault, hk.refusal,
    .inr ⟨e, he.of_accept.trans_unit rfl rfl rfl rfl⟩,
    .inl ⟨v, ⟨rfl, rfl, rfl, by simp [hk.responses]⟩⟩, .inl hk.uart, .inl ⟨hs, hu⟩⟩

/-- A later access of a command that goes on. -/
theorem ExecEffect.move {e : Event} {q : Seq} (hs : ownsSeq i s.seq = true) (hn : s.seq ≠ .idle)
    (hk : SameUnit s s') (he : AccessEffect s s' e) (hq : ownsSeq i q = true) : ExecEffect i s (s'.goto q) :=
  ⟨hk.cfg, hk.bufmem, hk.cmdPort, hk.fault, hk.refusal, .inr ⟨e, he.trans_unit rfl rfl rfl rfl⟩,
    .inr ⟨hq, by simp [hn, hk.latches], by simp [hn, hk.respPort], hk.responses⟩, .inl hk.uart, .inr hs⟩

/-- The last access of a command. -/
theorem ExecEffect.finish {e : Event} {v : Word} (hs : ownsSeq i s.seq = true)
    (hk : SameUnit s s') (he : AccessEffect s s' e) : ExecEffect i s (s'.respond v) :=
  ⟨hk.cfg, hk.bufmem, hk.cmdPort, hk.fault, hk.refusal, .inr ⟨e, he.trans_unit rfl rfl rfl rfl⟩,
    .inl ⟨v, ⟨rfl, rfl, rfl, by simp [hk.responses]⟩⟩, .inl hk.uart, .inr hs⟩

/-! ## One lemma per meaning -/

theorem execSetfield_next {bank index value : Word} {w : BitVec 2} {maxidx : Word}
    (h : execSetfield bank index value w maxidx s = .next t) :
    w ≠ 0 ∧ ExecEffect (.setfield bank index value w maxidx) s t := by
  unfold execSetfield at h
  split at h
  · exact (refuseWith_ne_next _ _ _ h).elim
  · next hw =>
    refine ⟨hw, ?_⟩
    split at h
    · next hs =>
      split at h
      · obtain ⟨u, s', rfl, hk, he⟩ := fieldRead_next h
        exact .start hs rfl hk he rfl
      · cases h; exact .answer hs rfl _
      · cases h; exact .answer hs rfl _
    · next cur hs =>
      obtain ⟨s', rfl, hk, he⟩ := fieldWrite_next h
      exact .finish (by rw [hs]; rfl) hk he
    · cases h

theorem gpioField_next {bank value : Word} {pin : BitVec 8} {w : BitVec 2}
    (hi : ∀ cur, ownsSeq i (.fieldWrite cur) = true) (hu : uartFits i s.uart = true)
    (h : gpioField i bank pin value w s = .next t) : ExecEffect i s t := by
  unfold gpioField at h
  split at h
  · next hs =>
    split at h
    · cases h; exact .answer hs hu _
    · obtain ⟨u, s', rfl, hk, he⟩ := fieldRead_next h
      exact .start hs hu hk he (hi u)
  · next cur hs =>
    obtain ⟨s', rfl, hk, he⟩ := fieldWrite_next h
    exact .finish (by rw [hs]; exact hi cur) hk he
  · cases h

theorem execAlt5_next {pin : BitVec 8} (h : execAlt5 pin s = .next t) : ExecEffect (.alt5 pin) s t := by
  simp only [execAlt5] at h
  split at h
  · next hs =>
    split at h
    · cases h; exact .answer hs rfl _
    · obtain ⟨e, s', ⟨m, hm⟩ | hd, hk, he⟩ := alt5Access_next h
      · cases hm; exact .start hs rfl hk he rfl
      · cases hd; exact .start_end hs rfl hk he
  · next m hs =>
    obtain ⟨e, s', ⟨m', hm⟩ | hd, hk, he⟩ := alt5Access_next h
    · cases hm; exact .move (by rw [hs]; rfl) (by rw [hs]; simp) hk he rfl
    · cases hd; exact .finish (by rw [hs]; rfl) hk he
  · cases h

/-- What an entry of `INIT_SEQ` does, from an accepted UINIT or between two entries. -/
theorem initAccess_next {todo : List InitStep} {m : Alt5Step} (h : initAccess todo m s = .next t) :
    ∃ s', (s' = s ∧ todo = [] ∨ SameUnit s s' ∧ ∃ e, AccessEffect s s' e) ∧
      ((∃ rest m', t = s'.goto (.init rest m')) ∨ t = State.respond { s' with uart := .ready } 0) := by
  have after {rest : List InitStep} {s' : State} (h : initAfter rest s' = .next t) :
      (∃ rest m', t = s'.goto (.init rest m')) ∨ t = State.respond { s' with uart := .ready } 0 := by
    cases rest with
    | nil => cases h; exact .inr rfl
    | cons x l => cases h; exact .inl ⟨_, _, rfl⟩
  unfold initAccess at h
  split at h
  · exact ⟨s, .inl ⟨rfl, rfl⟩, after h⟩
  · obtain ⟨s', hk, hu, he⟩ := memWrite_next h
    exact ⟨s', .inr ⟨hu, _, he⟩, after hk⟩
  · obtain ⟨e, s', ⟨m', hm⟩ | hd, hk, he⟩ := alt5Access_next h
    · cases hm; exact ⟨s', .inr ⟨hk, e, he⟩, .inl ⟨_, _, rfl⟩⟩
    · exact ⟨s', .inr ⟨hk, e, he⟩, after hd⟩
  · obtain ⟨e, s', ⟨m', hm⟩ | hd, hk, he⟩ := alt5Access_next h
    · cases hm; exact ⟨s', .inr ⟨hk, e, he⟩, .inl ⟨_, _, rfl⟩⟩
    · exact ⟨s', .inr ⟨hk, e, he⟩, after hd⟩

theorem execUinit_next (h : execUinit s = .next t) : ExecEffect .uinit s t := by
  unfold execUinit at h
  split at h
  · next hs =>
    split at h
    · exact (faultWith_ne_next _ _ _ h).elim
    · next hu =>
      have fits : uartFits .uinit s.uart = true := by rw [hu]; rfl
      obtain ⟨s', ⟨rfl, -⟩ | ⟨hk, e, he⟩, ⟨rest, m', rfl⟩ | rfl⟩ := initAccess_next h
      · exact ⟨rfl, rfl, rfl, rfl, rfl, .inl ⟨rfl, rfl, rfl, rfl⟩, .inr ⟨rfl, by simp [hs], by simp [hs], rfl⟩, .inl rfl,
          .inl ⟨hs, fits⟩⟩
      · exact ⟨rfl, rfl, rfl, rfl, rfl, .inl ⟨rfl, rfl, rfl, rfl⟩, .inl ⟨0, ⟨rfl, rfl, rfl, rfl⟩⟩,
          .inr ⟨rfl, rfl, rfl⟩, .inl ⟨hs, fits⟩⟩
      · exact .start hs fits hk he rfl
      · exact ⟨hk.cfg, hk.bufmem, hk.cmdPort, hk.fault, hk.refusal,
          .inr ⟨e, he.of_accept.trans_unit rfl rfl rfl rfl⟩, .inl ⟨0, ⟨rfl, rfl, rfl, by simp [hk.responses]⟩⟩,
          .inr ⟨rfl, rfl, rfl⟩, .inl ⟨hs, fits⟩⟩
  · next todo m hs =>
    have owns : ownsSeq .uinit s.seq = true := by rw [hs]; rfl
    have busy : s.seq ≠ .idle := by rw [hs]; simp
    obtain ⟨s', ⟨rfl, -⟩ | ⟨hk, e, he⟩, ⟨rest, m', rfl⟩ | rfl⟩ := initAccess_next h
    · exact ⟨rfl, rfl, rfl, rfl, rfl, .inl ⟨rfl, rfl, rfl, rfl⟩, .inr ⟨rfl, by simp [busy], by simp [busy], rfl⟩,
        .inl rfl, .inr owns⟩
    · exact ⟨rfl, rfl, rfl, rfl, rfl, .inl ⟨rfl, rfl, rfl, rfl⟩, .inl ⟨0, ⟨rfl, rfl, rfl, rfl⟩⟩,
        .inr ⟨rfl, rfl, rfl⟩, .inr owns⟩
    · exact .move owns busy hk he rfl
    · exact ⟨hk.cfg, hk.bufmem, hk.cmdPort, hk.fault, hk.refusal, .inr ⟨e, he.trans_unit rfl rfl rfl rfl⟩,
        .inl ⟨0, ⟨rfl, rfl, rfl, by simp [hk.responses]⟩⟩, .inr ⟨rfl, rfl, rfl⟩, .inr owns⟩
  · cases h

theorem execUrdy_next (h : execUrdy s = .next t) : ExecEffect .urdy s t := by
  unfold execUrdy at h
  split at h
  · next hs =>
    obtain ⟨u, s', hk, hu, he⟩ := memRead_next h
    cases hk
    exact .start_end hs rfl hu he
  · cases h

theorem execUsend_next {b : Byte} (h : execUsend b s = .next t) : ExecEffect (.usend b) s t := by
  have poll (u : Word) (s : State) : ownsSeq (.usend b) (if txReady s.cfg u then .sendWrite else .sendPoll) = true := by
    split <;> rfl
  unfold execUsend at h
  split at h
  · next hs =>
    split at h
    · exact (faultWith_ne_next _ _ _ h).elim
    · next hu =>
      obtain ⟨u, s', rfl, hk, he⟩ := pollTxReady_next h
      exact .start hs (by rw [hu]; rfl) hk he (poll u _)
  · next hs =>
    obtain ⟨u, s', rfl, hk, he⟩ := pollTxReady_next h
    exact .move (by rw [hs]; rfl) (by rw [hs]; simp) hk he (poll u _)
  · next hs =>
    obtain ⟨s', hk, hu, he⟩ := memWrite_next h
    cases hk
    exact .finish (by rw [hs]; rfl) hu he
  · cases h

/-- Reading one byte of the text: the terminator ends the command, any other byte goes on. -/
theorem textByte_next {p : Word} (h : textByte p s = .next t) :
    ∃ b s', SameUnit s s' ∧ AccessEffect s s' (.byteRead p b) ∧
      (t = s'.respond 0 ∨ t = s'.goto (.textPollCr p) ∨ t = s'.goto (.textPoll p b)) := by
  obtain ⟨b, s', hk, hu, he⟩ := byteRead_next h
  refine ⟨b, s', hu, he, ?_⟩
  split at hk
  · cases hk; exact .inl rfl
  · split at hk
    · cases hk; exact .inr (.inl rfl)
    · cases hk; exact .inr (.inr rfl)

theorem execUtext_next {buf : Word} (h : execUtext buf s = .next t) : ExecEffect (.utext buf) s t := by
  have pollCr (u p : Word) (s : State) :
      ownsSeq (.utext buf) (if txReady s.cfg u then .textWriteCr p else .textPollCr p) = true := by
    split <;> rfl
  have poll (u p : Word) (b : Byte) (s : State) :
      ownsSeq (.utext buf) (if txReady s.cfg u then .textWrite p b else .textPoll p b) = true := by
    split <;> rfl
  unfold execUtext at h
  split at h
  · next hs =>
    split at h
    · exact (faultWith_ne_next _ _ _ h).elim
    · next hu =>
      have fits : uartFits (.utext buf) s.uart = true := by rw [hu]; rfl
      obtain ⟨b, s', hk, he, rfl | rfl | rfl⟩ := textByte_next h
      · exact .start_end hs fits hk he
      · exact .start hs fits hk he rfl
      · exact .start hs fits hk he rfl
  · next p hs =>
    have owns : ownsSeq (.utext buf) s.seq = true := by rw [hs]; rfl
    have busy : s.seq ≠ .idle := by rw [hs]; simp
    obtain ⟨b, s', hk, he, rfl | rfl | rfl⟩ := textByte_next h
    · exact .finish owns hk he
    · exact .move owns busy hk he rfl
    · exact .move owns busy hk he rfl
  · next p hs =>
    obtain ⟨u, s', rfl, hk, he⟩ := pollTxReady_next h
    exact .move (by rw [hs]; rfl) (by rw [hs]; simp) hk he (pollCr u p _)
  · next p hs =>
    obtain ⟨s', hk, hu, he⟩ := memWrite_next h
    cases hk
    exact .move (by rw [hs]; rfl) (by rw [hs]; simp) hu he rfl
  · next p b hs =>
    obtain ⟨u, s', rfl, hk, he⟩ := pollTxReady_next h
    exact .move (by rw [hs]; rfl) (by rw [hs]; simp) hk he (poll u p b _)
  · next p b hs =>
    obtain ⟨s', hk, hu, he⟩ := memWrite_next h
    cases hk
    exact .move (by rw [hs]; rfl) (by rw [hs]; simp) hu he rfl
  · cases h

/-- Everything `exec` can do when it answers a next state. -/
theorem exec_next (h : exec i s = .next t) : i.wf = true ∧ ExecEffect i s t := by
  cases i with
  | setfield bank index value w maxidx =>
    obtain ⟨hw, he⟩ := execSetfield_next h
    exact ⟨by simpa [Instr.wf] using hw, he⟩
  | fsel pin f => exact ⟨rfl, gpioField_next (fun _ => rfl) rfl h⟩
  | sethigh pin => exact ⟨rfl, gpioField_next (fun _ => rfl) rfl h⟩
  | setlow pin => exact ⟨rfl, gpioField_next (fun _ => rfl) rfl h⟩
  | pull pin m => exact ⟨rfl, gpioField_next (fun _ => rfl) rfl h⟩
  | alt5 pin => exact ⟨rfl, execAlt5_next h⟩
  | uinit => exact ⟨rfl, execUinit_next h⟩
  | urdy => exact ⟨rfl, execUrdy_next h⟩
  | usend b => exact ⟨rfl, execUsend_next h⟩
  | utext buf => exact ⟨rfl, execUtext_next h⟩

end Sys2Proof.Machine
end

