-- ==== Sys2Proof/Laws/Meanings.lean ====
section
/-!
SUPPORT. The equations of the meanings: what `exec` is at each micro-step of each command, and what the shared read-modify-write and
poll are at each class of register. Proofs about one command rewrite with these and unfold no meaning.
-/
namespace Sys2Proof.Machine

variable {s : State}

/-! ## The read-modify-write at each class -/

section
variable {bank index value cur : Word} {w : BitVec 2} {n : Nat}

theorem fieldRead_storage (h : s.cfg.classOf (regAddr bank index w) = some .storage) :
    fieldRead bank index w s
      = .next ((s.record (.read (regAddr bank index w) (s.cell (regAddr bank index w)))).goto
          (.fieldWrite (s.cell (regAddr bank index w)))) :=
  memRead_storage h

theorem fieldRead_setReg (h : s.cfg.classOf (regAddr bank index w) = some (.setReg n)) :
    fieldRead bank index w s
      = .next (((s.afterDraws s.cfg.setclrDraws).record (.read (regAddr bank index w) s.setclrAnswer)).goto
          (.fieldWrite s.setclrAnswer)) :=
  memRead_setReg h

theorem fieldRead_clrReg (h : s.cfg.classOf (regAddr bank index w) = some (.clrReg n)) :
    fieldRead bank index w s
      = .next (((s.afterDraws s.cfg.setclrDraws).record (.read (regAddr bank index w) s.setclrAnswer)).goto
          (.fieldWrite s.setclrAnswer)) :=
  memRead_clrReg h

theorem fieldWrite_storage (h : s.cfg.classOf (regAddr bank index w) = some .storage) :
    fieldWrite bank index value w cur s
      = .next (({ s with
          cells := s.cells.write (regAddr bank index w)
            (insertField cur (fieldMask w) value (bitShift index w)) }.record
          (.write (regAddr bank index w) (insertField cur (fieldMask w) value (bitShift index w)))).respond 0) :=
  memWrite_storage h

theorem fieldWrite_setReg (h : s.cfg.classOf (regAddr bank index w) = some (.setReg n)) :
    fieldWrite bank index value w cur s
      = .next (({ s with
          out := s.out ||| actedPins s.cfg.maxPin n
            (insertField cur (fieldMask w) value (bitShift index w)) }.record
          (.write (regAddr bank index w) (insertField cur (fieldMask w) value (bitShift index w)))).respond 0) :=
  memWrite_setReg h

theorem fieldWrite_clrReg (h : s.cfg.classOf (regAddr bank index w) = some (.clrReg n)) :
    fieldWrite bank index value w cur s
      = .next (({ s with
          out := s.out &&& ~~~actedPins s.cfg.maxPin n
            (insertField cur (fieldMask w) value (bitShift index w)) }.record
          (.write (regAddr bank index w) (insertField cur (fieldMask w) value (bitShift index w)))).respond 0) :=
  memWrite_clrReg h

end

/-! ## SETFIELD -/

section
variable {bank index value maxidx cur : Word} {w : BitVec 2}

theorem validate_eq_ok (hi : index ≤ maxidx) (hv : value ≤ fieldMask w) (hb : bank % 4 = 0) :
    validate bank index value w maxidx = .ok := by
  unfold validate
  rw [if_neg (BitVec.not_lt.mpr hi), if_neg (BitVec.not_lt.mpr hv), if_neg (not_not.mpr hb)]

theorem exec_setfield_start (hw : w ≠ 0) (hs : s.seq = .idle) (hv : validate bank index value w maxidx = .ok) :
    exec (.setfield bank index value w maxidx) s
      = fieldRead bank index w (s.accept (.setfield bank index value w maxidx)) := by
  show execSetfield bank index value w maxidx s = _
  unfold execSetfield
  rw [if_neg hw, hs, hv]

theorem exec_setfield_write (hw : w ≠ 0) (hs : s.seq = .fieldWrite cur) :
    exec (.setfield bank index value w maxidx) s = fieldWrite bank index value w cur s := by
  show execSetfield bank index value w maxidx s = _
  unfold execSetfield
  rw [if_neg hw, hs]

/-- A failing SETFIELD answers at once. -/
theorem exec_setfield_fail {rc : ResultCode} (hw : w ≠ 0) (hs : s.seq = .idle)
    (hv : validate bank index value w maxidx = rc) (hrc : rc ≠ .ok) :
    exec (.setfield bank index value w maxidx) s = .next (s.answered rc.word) := by
  show execSetfield bank index value w maxidx s = _
  unfold execSetfield
  rw [if_neg hw, hs, hv]
  cases rc with
  | ok => exact absurd rfl hrc
  | outOfRange => rfl
  | misaligned => rfl

end

/-! ## The GPIO commands -/

section
variable {i : Instr} {bank value cur : Word} {pin : BitVec 8} {w : BitVec 2}

theorem gpioField_start (hs : s.seq = .idle) (hp : pin.setWidth 32 ≤ s.cfg.maxPin) :
    gpioField i bank pin value w s = fieldRead bank (pin.setWidth 32) w (s.accept i) := by
  unfold gpioField
  rw [hs]
  exact if_neg (BitVec.not_lt.mpr hp)

theorem gpioField_write (hs : s.seq = .fieldWrite cur) :
    gpioField i bank pin value w s = fieldWrite bank (pin.setWidth 32) value w cur s := by
  unfold gpioField
  rw [hs]

theorem gpioField_outOfRange (hs : s.seq = .idle) (hp : s.cfg.maxPin < pin.setWidth 32) :
    gpioField i bank pin value w s = .next (s.answered 1) := by
  unfold gpioField
  rw [hs]
  exact if_pos hp

theorem exec_fsel (f : GpioFunction) :
    exec (.fsel pin f) s = gpioField (.fsel pin f) s.cfg.gpfsel0 pin ((s.cfg.fselCode.code f).setWidth 32) 3 s := rfl

theorem exec_sethigh : exec (.sethigh pin) s = gpioField (.sethigh pin) s.cfg.gpset0 pin 1 1 s := rfl

theorem exec_setlow : exec (.setlow pin) s = gpioField (.setlow pin) s.cfg.gpclr0 pin 1 1 s := rfl

theorem exec_pull (m : PullMode) :
    exec (.pull pin m) s = gpioField (.pull pin m) s.cfg.gppuppdn0 pin ((s.cfg.pullCode.code m).setWidth 32) 2 s := rfl

/-! The four accesses of ALT5 on storage registers (41_gpio.md R122). -/

section
variable {more : Alt5Step → State → Out} {done : State → Out}

theorem alt5Access_pullRead (h : s.cfg.classOf (regAddr s.cfg.gppuppdn0 (pin.setWidth 32) 2) = some .storage) :
    alt5Access pin .pullRead s more done
      = more (.pullWrite (s.cell (regAddr s.cfg.gppuppdn0 (pin.setWidth 32) 2)))
          (s.record (.read (regAddr s.cfg.gppuppdn0 (pin.setWidth 32) 2)
            (s.cell (regAddr s.cfg.gppuppdn0 (pin.setWidth 32) 2)))) := by
  unfold alt5Access
  exact memRead_storage h

theorem alt5Access_pullWrite (h : s.cfg.classOf (regAddr s.cfg.gppuppdn0 (pin.setWidth 32) 2) = some .storage) :
    alt5Access pin (.pullWrite cur) s more done
      = more .fselRead ({ s with
          cells := s.cells.write (regAddr s.cfg.gppuppdn0 (pin.setWidth 32) 2)
            (insertField cur (fieldMask 2) ((s.cfg.pullCode.code .none).setWidth 32)
              (bitShift (pin.setWidth 32) 2)) }.record
          (.write (regAddr s.cfg.gppuppdn0 (pin.setWidth 32) 2)
            (insertField cur (fieldMask 2) ((s.cfg.pullCode.code .none).setWidth 32)
              (bitShift (pin.setWidth 32) 2)))) :=
  memWrite_storage h

theorem alt5Access_fselRead (h : s.cfg.classOf (regAddr s.cfg.gpfsel0 (pin.setWidth 32) 3) = some .storage) :
    alt5Access pin .fselRead s more done
      = more (.fselWrite (s.cell (regAddr s.cfg.gpfsel0 (pin.setWidth 32) 3)))
          (s.record (.read (regAddr s.cfg.gpfsel0 (pin.setWidth 32) 3)
            (s.cell (regAddr s.cfg.gpfsel0 (pin.setWidth 32) 3)))) := by
  unfold alt5Access
  exact memRead_storage h

theorem alt5Access_fselWrite (h : s.cfg.classOf (regAddr s.cfg.gpfsel0 (pin.setWidth 32) 3) = some .storage) :
    alt5Access pin (.fselWrite cur) s more done
      = done ({ s with
          cells := s.cells.write (regAddr s.cfg.gpfsel0 (pin.setWidth 32) 3)
            (insertField cur (fieldMask 3) ((s.cfg.fselCode.code .alt5).setWidth 32)
              (bitShift (pin.setWidth 32) 3)) }.record
          (.write (regAddr s.cfg.gpfsel0 (pin.setWidth 32) 3)
            (insertField cur (fieldMask 3) ((s.cfg.fselCode.code .alt5).setWidth 32)
              (bitShift (pin.setWidth 32) 3)))) :=
  memWrite_storage h

end

/-- What ALT5 does after each of its first three accesses, and after the last. -/
theorem exec_alt5_start (hs : s.seq = .idle) (hp : pin.setWidth 32 ≤ s.cfg.maxPin) :
    exec (.alt5 pin) s
      = alt5Access pin .pullRead (s.accept (.alt5 pin)) (fun m s' => .next (s'.goto (.alt5 m)))
          (fun s' => .next (s'.respond 0)) := by
  show execAlt5 pin s = _
  unfold execAlt5
  rw [hs]
  exact if_neg (BitVec.not_lt.mpr hp)

theorem exec_alt5_go {m : Alt5Step} (hs : s.seq = .alt5 m) :
    exec (.alt5 pin) s
      = alt5Access pin m s (fun m s' => .next (s'.goto (.alt5 m))) (fun s' => .next (s'.respond 0)) := by
  show execAlt5 pin s = _
  unfold execAlt5
  rw [hs]
  rfl

end

/-! ## The UART commands -/

section
variable {b : Byte} {buf p : Word} {ready again : Seq}

theorem pollTxReady_status (h : s.cfg.classOf (s.cfg.aux .lsr) = some .status) :
    pollTxReady ready again s
      = .next (((s.afterDraws 1).record (.read (s.cfg.aux .lsr) (s.futureDraw 0))).goto
          (if txReady s.cfg (s.futureDraw 0) then ready else again)) :=
  memRead_status h

theorem exec_uinit_start (hs : s.seq = .idle) (hu : s.uart = .uninitialized) :
    exec .uinit s = initAccess s.cfg.initSeq .pullRead (s.accept .uinit) := by
  show execUinit s = _
  unfold execUinit
  rw [hs, hu]

theorem exec_uinit_go {todo : List InitStep} {m : Alt5Step} (hs : s.seq = .init todo m) :
    exec .uinit s = initAccess todo m s := by
  show execUinit s = _
  unfold execUinit
  rw [hs]

theorem exec_urdy (hs : s.seq = .idle) (h : s.cfg.classOf (s.cfg.aux .lsr) = some .status) :
    exec .urdy s
      = .next ((((s.accept .urdy).afterDraws 1).record (.read (s.cfg.aux .lsr) (s.futureDraw 0))).respond
          (readyWord s.cfg (s.futureDraw 0))) := by
  show execUrdy s = _
  unfold execUrdy
  rw [hs]
  exact memRead_status (s := s.accept .urdy) h

theorem exec_usend_start (hs : s.seq = .idle) (hu : s.uart = .ready) :
    exec (.usend b) s = pollTxReady .sendWrite .sendPoll (s.accept (.usend b)) := by
  show execUsend b s = _
  unfold execUsend
  rw [hs, hu]

theorem exec_usend_poll (hs : s.seq = .sendPoll) : exec (.usend b) s = pollTxReady .sendWrite .sendPoll s := by
  show execUsend b s = _
  unfold execUsend
  rw [hs]

theorem exec_usend_write (hs : s.seq = .sendWrite) :
    exec (.usend b) s = memWrite (s.cfg.aux .io) (b.setWidth 32) s fun s' => .next (s'.respond 0) := by
  show execUsend b s = _
  unfold execUsend
  rw [hs]

theorem exec_utext_start (hs : s.seq = .idle) (hu : s.uart = .ready) :
    exec (.utext buf) s = textByte buf (s.accept (.utext buf)) := by
  show execUtext buf s = _
  unfold execUtext
  rw [hs, hu]

theorem exec_utext_read (hs : s.seq = .textRead p) : exec (.utext buf) s = textByte p s := by
  show execUtext buf s = _
  unfold execUtext
  rw [hs]

theorem exec_utext_pollCr (hs : s.seq = .textPollCr p) :
    exec (.utext buf) s = pollTxReady (.textWriteCr p) (.textPollCr p) s := by
  show execUtext buf s = _
  unfold execUtext
  rw [hs]

theorem exec_utext_writeCr (hs : s.seq = .textWriteCr p) :
    exec (.utext buf) s
      = memWrite (s.cfg.aux .io) 0x0000000D s fun s' => .next (s'.goto (.textPoll p 0x0A)) := by
  show execUtext buf s = _
  unfold execUtext
  rw [hs]

theorem exec_utext_poll (hs : s.seq = .textPoll p b) :
    exec (.utext buf) s = pollTxReady (.textWrite p b) (.textPoll p b) s := by
  show execUtext buf s = _
  unfold execUtext
  rw [hs]

theorem exec_utext_write (hs : s.seq = .textWrite p b) :
    exec (.utext buf) s
      = memWrite (s.cfg.aux .io) (b.setWidth 32) s fun s' => .next (s'.goto (.textRead (p + 1))) := by
  show execUtext buf s = _
  unfold execUtext
  rw [hs]

end

/-! ## Repeated micro-steps -/

theorem execFor_succ {i : Instr} {n : Nat} {t : State} (h : exec i s = .next t) :
    execFor i (n + 1) s = execFor i n t := by
  simp [execFor, h]

theorem execFor_add {i : Instr} {m n : Nat} {t : State} (h : execFor i m s = .next t) :
    execFor i (m + n) s = execFor i n t := by
  induction m generalizing s with
  | zero =>
    cases h
    rw [Nat.zero_add]
  | succ m ih =>
    rw [Nat.succ_add]
    simp only [execFor] at h ⊢
    cases he : exec i s with
    | next u => rw [he] at h; exact ih h
    | fault r => rw [he] at h; cases h
    | refused r => rw [he] at h; cases h

end Sys2Proof.Machine
end

