-- ==== Sys2Proof/Laws/Operands.lean ====
section
/-!
SUPPORT. The addressor's mapping in natural numbers, and the bits of an inserted field and of a set or clear word.
-/
namespace Sys2Proof.Machine

/-- A well-formed width is 1, 2 or 3 (00_scope.md R7). -/
theorem width_cases {w : BitVec 2} (h : w ≠ 0) : w = 1 ∨ w = 2 ∨ w = 3 := by
  revert w
  decide

theorem fieldsPerRegister_toNat (w : BitVec 2) : (fieldsPerRegister w).toNat = 32 / w.toNat := by
  revert w
  decide

theorem fieldMask_toNat (w : BitVec 2) : (fieldMask w).toNat = 2 ^ w.toNat - 1 := by
  revert w
  decide

theorem bitShift_toNat (index : Word) (w : BitVec 2) :
    (bitShift index w).toNat = index.toNat % (32 / w.toNat) * w.toNat := by
  by_cases h : w = 0
  · subst h
    simp [bitShift]
  · unfold bitShift
    rw [BitVec.toNat_mul, BitVec.toNat_umod, fieldsPerRegister_toNat, BitVec.toNat_setWidth]
    obtain rfl | rfl | rfl := width_cases h
    · simp; omega
    · simp; omega
    · simp; omega

/-- A field lies within its register (40_addressor.md R99). -/
theorem bitShift_add_width {w : BitVec 2} (h : w ≠ 0) (index : Word) : (bitShift index w).toNat + w.toNat ≤ 32 := by
  rw [bitShift_toNat]
  obtain rfl | rfl | rfl := width_cases h
  · show index.toNat % 32 * 1 + 1 ≤ 32; omega
  · show index.toNat % 16 * 2 + 2 ≤ 32; omega
  · show index.toNat % 10 * 3 + 3 ≤ 32; omega

theorem regAddr_eq (bank index : Word) (w : BitVec 2) :
    regAddr bank index w = bank + BitVec.ofNat 32 (index.toNat / (32 / w.toNat) * 4) := by
  have h : index / fieldsPerRegister w * 4 = BitVec.ofNat 32 (index.toNat / (32 / w.toNat) * 4) := by
    apply BitVec.eq_of_toNat_eq
    rw [BitVec.toNat_mul, BitVec.toNat_udiv, fieldsPerRegister_toNat, BitVec.toNat_ofNat]
    rfl
  rw [regAddr, h]

/-- Bit `j` of `field_mask(w)`. -/
theorem fieldMask_getLsbD {w : BitVec 2} (j : Nat) : (fieldMask w).getLsbD j = decide (j < w.toNat) := by
  rw [BitVec.getLsbD, fieldMask_toNat, Nat.testBit_two_pow_sub_one]

/-- A value no larger than the field mask has no bit at or above the width. -/
theorem getLsbD_of_le_fieldMask {value : Word} {w : BitVec 2} (h : value ≤ fieldMask w) {j : Nat} (hj : w.toNat ≤ j) :
    value.getLsbD j = false := by
  have h1 : value.toNat ≤ 2 ^ w.toNat - 1 := by
    rw [← fieldMask_toNat]
    exact BitVec.le_def.mp h
  have h2 : 2 ^ w.toNat ≤ 2 ^ j := Nat.pow_le_pow_right (by decide) hj
  have h3 : 0 < 2 ^ w.toNat := Nat.two_pow_pos _
  exact Nat.testBit_lt_two_pow (by omega)

/-- Every bit of a register after a field is inserted (40_addressor.md R96). -/
theorem insertField_getLsbD {cur value : Word} {w : BitVec 2} {shift : Word} (hv : value ≤ fieldMask w) {j : Nat}
    (hj : j < 32) :
    (insertField cur (fieldMask w) value shift).getLsbD j
      = if shift.toNat ≤ j ∧ j < shift.toNat + w.toNat then value.getLsbD (j - shift.toNat) else cur.getLsbD j := by
  unfold insertField
  simp only [BitVec.getLsbD_or, BitVec.getLsbD_and, BitVec.getLsbD_not, BitVec.getLsbD_shiftLeft, fieldMask_getLsbD, hj,
    decide_true, Bool.true_and]
  by_cases h1 : j < shift.toNat
  · simp [h1, show ¬ shift.toNat ≤ j by omega]
  · by_cases h2 : j - shift.toNat < w.toNat
    · simp [h1, h2, show shift.toNat ≤ j by omega, show j < shift.toNat + w.toNat by omega]
    · have h3 : value.getLsbD (j - shift.toNat) = false := getLsbD_of_le_fieldMask hv (by omega)
      simp [h1, h2, h3, show ¬ j < shift.toNat + w.toNat by omega]

/-- Bit `p` of the mask of existing pins. -/
theorem pinMask_getLsbD (maxPin : Word) {p : Nat} (hp : p < 64) :
    (pinMask maxPin).getLsbD p = decide (p ≤ maxPin.toNat) := by
  have hn : 1 ≤ 2 ^ (maxPin.toNat + 1) := Nat.one_le_two_pow
  have h : pinMask maxPin = BitVec.ofNat 64 (2 ^ (maxPin.toNat + 1) - 1) := by
    apply BitVec.eq_of_toNat_eq
    unfold pinMask
    have h1 : (1 : BitVec 64).toNat = 1 := rfl
    simp only [BitVec.toNat_sub, BitVec.toNat_shiftLeft, BitVec.toNat_ofNat, Nat.shiftLeft_eq, h1]
    omega
  rw [h, BitVec.getLsbD_ofNat, Nat.testBit_two_pow_sub_one]
  simp [hp]

/-- Which pins a word written to a set or clear register acts on (10_state.md R34, R35). -/
theorem actedPins_getLsbD (maxPin v : Word) (k : Nat) {p : Nat} (hp : p < 64) :
    (actedPins maxPin k v).getLsbD p
      = (decide (32 * k ≤ p) && decide (p < 32 * k + 32) && decide (p ≤ maxPin.toNat) && v.getLsbD (p - 32 * k)) := by
  unfold actedPins
  rw [BitVec.getLsbD_and, pinMask_getLsbD maxPin hp, BitVec.getLsbD_shiftLeft, BitVec.getLsbD_setWidth]
  by_cases h1 : p < 32 * k
  · simp [h1, show ¬ 32 * k ≤ p by omega]
  · by_cases h2 : p < 32 * k + 32
    · simp [hp, h1, h2, show 32 * k ≤ p by omega, show p - 32 * k < 64 by omega, Bool.and_comm]
    · have h3 : v.getLsbD (p - 32 * k) = false := BitVec.getLsbD_of_ge _ _ (by omega)
      simp [h3]

end Sys2Proof.Machine
end

