-- ==== Sys2Proof/Laws/PerInstr.lean ====
section
/-!
SUPPORT. Statements about every command as syntax, one lemma per constructor (LAWS.json, "per_instruction").
-/

namespace Sys2Proof.Laws.Latch

open Sys2Proof Sys2Proof.Machine

/-- The latches a command fills give the command back: no operand is dropped (30_encoding.md R74). -/
def Statement (i : Instr) : Prop := latchedCommand (latchesOf i) = some i

theorem setfield (bank index value : Word) (w : BitVec 2) (maxidx : Word) :
    Statement (.setfield bank index value w maxidx) := rfl
theorem fsel (pin : BitVec 8) (f : GpioFunction) : Statement (.fsel pin f) := by cases f <;> rfl
theorem sethigh (pin : BitVec 8) : Statement (.sethigh pin) := rfl
theorem setlow (pin : BitVec 8) : Statement (.setlow pin) := rfl
theorem pull (pin : BitVec 8) (m : PullMode) : Statement (.pull pin m) := by cases m <;> rfl
theorem alt5 (pin : BitVec 8) : Statement (.alt5 pin) := rfl
theorem uinit : Statement .uinit := rfl
theorem urdy : Statement .urdy := rfl
theorem usend (b : Byte) : Statement (.usend b) := rfl
theorem utext (buf : Word) : Statement (.utext buf) := rfl

/-- The family, over all commands. -/
theorem all (i : Instr) : Statement i := by
  cases i with
  | setfield => exact setfield ..
  | fsel => exact fsel ..
  | sethigh => exact sethigh ..
  | setlow => exact setlow ..
  | pull => exact pull ..
  | alt5 => exact alt5 ..
  | uinit => exact uinit
  | urdy => exact urdy
  | usend => exact usend ..
  | utext => exact utext ..

end Sys2Proof.Laws.Latch

namespace Sys2Proof.Laws.Opcode

open Sys2Proof Sys2Proof.Machine

/-- Bits 3:0 of word 0 are the command's opcode (30_encoding.md R71, R75). -/
def Statement (i : Instr) : Prop := fieldOpc i.word0 = opcodeOf i

theorem of_commandWord (v : BitVec 3) (p : BitVec 8) (o : BitVec 4) : fieldOpc (commandWord v p o) = o := by
  ext j hj
  have h4 : j < 4 := hj
  simp only [fieldOpc, commandWord, BitVec.getElem_extractLsb', BitVec.getLsbD_or, BitVec.getLsbD_shiftLeft]
  simp [show j < 16 by omega, show j < 8 by omega, show j < 32 by omega, BitVec.getLsbD_eq_getElem h4]

theorem setfield (bank index value : Word) (w : BitVec 2) (maxidx : Word) :
    Statement (.setfield bank index value w maxidx) := of_commandWord ..
theorem fsel (pin : BitVec 8) (f : GpioFunction) : Statement (.fsel pin f) := of_commandWord ..
theorem sethigh (pin : BitVec 8) : Statement (.sethigh pin) := of_commandWord ..
theorem setlow (pin : BitVec 8) : Statement (.setlow pin) := of_commandWord ..
theorem pull (pin : BitVec 8) (m : PullMode) : Statement (.pull pin m) := of_commandWord ..
theorem alt5 (pin : BitVec 8) : Statement (.alt5 pin) := of_commandWord ..
theorem uinit : Statement .uinit := of_commandWord ..
theorem urdy : Statement .urdy := of_commandWord ..
theorem usend (b : Byte) : Statement (.usend b) := of_commandWord ..
theorem utext (buf : Word) : Statement (.utext buf) := of_commandWord ..

end Sys2Proof.Laws.Opcode
end

