-- ==== Sys2Proof/Laws/Step.lean ====
section
/-!
SUPPORT. The inversion lemma of the step: a next state comes from waiting, from a command taken off the port, or from the next
micro-step of the latched command.
-/
namespace Sys2Proof.Machine

variable {s t : State}

/-- The three ways a step answers a next state. -/
inductive StepCase (s t : State) : Prop where
  /-- An idle unit with no whole command on the port waits. -/
  | wait (idle : s.seq = .idle) (fetch : s.fetch = .incomplete) (same : t = s)
  /-- An idle unit takes a command. -/
  | take (i : Instr) (rest : List Word) (idle : s.seq = .idle) (fetch : s.fetch = .command i rest)
      (runs : exec i (s.take rest) = .next t)
  /-- A busy unit goes on with the latched command. -/
  | go (i : Instr) (busy : s.seq ≠ .idle) (latched : latchedCommand s.latches = some i) (runs : exec i s = .next t)

theorem step_next (h : step s = .next t) : s.Unmarked ∧ StepCase s t := by
  unfold step at h
  split at h
  · exact (faultWith_ne_next _ _ _ h).elim
  · exact (refuseWith_ne_next _ _ _ h).elim
  · next hf hr =>
    refine ⟨⟨hf, hr⟩, ?_⟩
    split at h
    · next hs =>
      unfold stepIdle at h
      split at h
      · next i rest hd => exact .take i rest hs hd h
      · exact (refuseWith_ne_next _ _ _ h).elim
      · next hd => cases h; exact .wait hs hd rfl
    · next hs =>
      unfold stepBusy at h
      split at h
      · next i hi => exact .go i hs hi h
      · cases h

/-- The step of an unmarked idle unit. -/
theorem step_idle (hm : s.Unmarked) (hs : s.seq = .idle) : step s = stepIdle s := by
  unfold step
  rw [hm.1, hm.2]
  simp [hs]

end Sys2Proof.Machine
end

