-- ==== Sys2Proof/Tests/Slice0.lean ====
section
/-!
SUPPORT. The model's own tests. Expected values are those of 95_test_vectors.md (the vector is named) or of the rule named, never the
model's own answer. The theorems `witness_…` show for each statement with hypotheses a state and operands that meet them together.
-/
namespace Sys2Proof.Tests

open Sys2Proof Sys2Proof.Machine

/-! ## Helpers -/

/-- A part of the next state an outcome carries: `look f o = some v` says that `o` is `next t` with `f t = v`. -/
def look {α : Type} (f : State → α) : Out → Option α
  | .next t => some (f t)
  | .fault _ => none
  | .refused _ => none

/-- A fault's reason and the events its final state holds. -/
def faultOf : Out → Option (FaultKind × List Event)
  | .fault (.unmapped a t) => some (.unmapped a, t.hist)
  | .fault (.uartNotInitialized t) => some (.uartNotInitialized, t.hist)
  | .fault (.uartReinitialized t) => some (.uartReinitialized, t.hist)
  | .next _ => none
  | .refused _ => none

/-- A refusal's reason and the events its final state holds. -/
def refusalOf : Out → Option (RefusalKind × List Event)
  | .refused (.illegalCommand w t) => some (.illegalCommand w, t.hist)
  | .refused (.readOfWriteOnlyAux a t) => some (.readOfWriteOnlyAux a, t.hist)
  | .refused (.writeOfStatus a t) => some (.writeOfStatus a, t.hist)
  | _ => none

/-- What a command leaves after so many micro-steps: its events and its response. -/
def after (i : Instr) (n : Nat) (s : State) : Option (List Event × Option Word) :=
  look (fun t => (t.hist, t.respPort)) (execFor i n s)

/-- Reset with these storage registers. -/
def withCells (c : Cells) : State := { State.reset with cells := c }

/-- Reset with these answers lined up. -/
def withEnv (l : List Word) : State := { State.reset with env := l }

/-- A ready UART with these answers lined up. -/
def readyUart (l : List Word) : State := { State.reset with uart := .ready, env := l }

/-- `SETCLR_READ = Zero`. -/
def zeroRead (s : State) : State := { s with cfg := { s.cfg with setclrRead := .zero } }

/-! ## Well-formedness -/

theorem test_wf_refuses_width_zero : (Instr.setfield 0xFE200000 0 0 0 57).wf = false := by decide
theorem test_wf_accepts_every_width :
    (Instr.setfield 0 0 0 1 0).wf = true ∧ (Instr.setfield 0 0 0 2 0).wf = true ∧ (Instr.setfield 0 0 0 3 0).wf = true := by
  decide

/-! ## Decoding (30_encoding.md R82; 95_test_vectors.md 2.6) -/

theorem test_decode_setfield : -- T-DEC-12
    decode [0x00030001, 0xFE200000, 0x0000000E, 0x00000002, 0x00000039]
      = .command (.setfield 0xFE200000 14 2 3 57) [] := by decide
theorem test_decode_fsel : decode [0x00070E02] = .command (.fsel 14 .alt5) [] := by decide -- T-DEC-1
theorem test_decode_sethigh : decode [0x0000FF03] = .command (.sethigh 255) [] := by decide -- T-DEC-13
theorem test_decode_setlow : decode [0x00001504] = .command (.setlow 21) [] := by decide -- T-DEC-4
theorem test_decode_pull : decode [0x00020E05] = .command (.pull 14 .pullDown) [] := by decide -- T-DEC-6
theorem test_decode_alt5 : decode [0x00000F06] = .command (.alt5 15) [] := by decide -- T-DEC-7
theorem test_decode_uinit : decode [0x00000007, 0x0000000A] = .command .uinit [0x0000000A] := by decide -- T-DEC-8
theorem test_decode_urdy : decode [0x00000008] = .command .urdy [] := by decide -- T-DEC-9
theorem test_decode_usend : decode [0x00006109] = .command (.usend 0x61) [] := by decide -- T-DEC-10
theorem test_decode_utext : decode [0x0000000A, 0x00080000] = .command (.utext 0x00080000) [] := by decide -- T-DEC-11

theorem test_decode_reserved_opcode : -- T-DEC-14, T-DEC-15
    decode [0x00000000] = .illegal 0x00000000 .reservedOpcode
      ∧ decode [0x0000000B] = .illegal 0x0000000B .reservedOpcode
      ∧ decode [0x0000000F] = .illegal 0x0000000F .reservedOpcode := by decide
theorem test_decode_bad_operand : -- T-DEC-16, T-DEC-19, T-DEC-20
    decode [0x00000001] = .illegal 0x00000001 .widthZero
      ∧ decode [0x00030E05] = .illegal 0x00030E05 .pullModeReserved
      ∧ decode [0x00070E05] = .illegal 0x00070E05 .pullModeReserved := by decide
theorem test_decode_reserved_bit : -- T-DEC-17, 18, 21, 22, 23, 24, 25
    decode [0x00070001] = .illegal 0x00070001 .reservedBit
      ∧ decode [0x00010101] = .illegal 0x00010101 .reservedBit
      ∧ decode [0x00080E02] = .illegal 0x00080E02 .reservedBit
      ∧ decode [0x00010E03] = .illegal 0x00010E03 .reservedBit
      ∧ decode [0x00000017] = .illegal 0x00000017 .reservedBit
      ∧ decode [0x00000107] = .illegal 0x00000107 .reservedBit
      ∧ decode [0x80000009] = .illegal 0x80000009 .reservedBit := by decide

/-- No two rows of the opcode map select one word (30_encoding.md R75: the patterns differ in OPC, which every mask holds). -/
theorem test_opcode_rows_disjoint :
    opcodeTable.Pairwise (fun r q => r.pattern &&& (r.mask &&& q.mask) ≠ q.pattern &&& (r.mask &&& q.mask)) := by decide

/-- A table word runs as the first command after reset: UINIT's first access (30_encoding.md R75; 95_test_vectors.md P1). -/
theorem test_fetch_word :
    look (·.hist) (step (State.reset.withFetchWord 32 0x00000007)) = some [.write 0xFE215004 0x1] := by decide
theorem test_decode_table_word :
    decodeTableWord 160 0x0000003900000002_0000000E_FE200000_00030001 = some (.setfield 0xFE200000 14 2 3 57) := by decide

/-! ## SETFIELD (95_test_vectors.md 2.1 to 2.3) -/

theorem test_setfield_rmw : -- T-RMW-9
    after (.setfield 0xFE200000 57 4 3 57) 2 (withCells [(0xFE200014, 0x12345678)])
      = some ([.read 0xFE200014 0x12345678, .write 0xFE200014 0x12945678], some 0) := by decide
theorem test_setfield_checks_and_stops : -- T-VAL-6, T-VAL-7, T-VAL-8, the wrap of 2.1, T-RMW-13, T-RMW-14
    after (.setfield 0xFE200002 5 1 3 57) 1 State.reset = some ([], some 2)
      ∧ after (.setfield 0xFE200001 58 1 3 57) 1 State.reset = some ([], some 1)
      ∧ after (.setfield 0xFE200003 5 9 3 57) 1 State.reset = some ([], some 1)
      ∧ faultOf (exec (.setfield 0xFFFFFFFC 10 0 3 57) State.reset) = some (.unmapped 0, [])
      ∧ refusalOf (exec (.setfield 0xFE215040 0 1 1 0) State.reset) = some (.readOfWriteOnlyAux 0xFE215040, [])
      ∧ refusalOf (execFor (.setfield 0xFE215054 0 1 1 0) 2 (withEnv [0x60]))
        = some (.writeOfStatus 0xFE215054, [.read 0xFE215054 0x60]) := by decide

/-! ## GPIO (95_test_vectors.md 2.4) -/

theorem test_fsel_alt4 : -- T-GPIO-4
    after (.fsel 0 .alt4) 2 State.reset
      = some ([.read 0xFE200000 0, .write 0xFE200000 0x00000003], some 0) := by decide
theorem test_fsel_output : -- T-GPIO-2
    after (.fsel 21 .output) 2 (withCells [(0xFE200008, 0xFFFFFFFF)])
      = some ([.read 0xFE200008 0xFFFFFFFF, .write 0xFE200008 0xFFFFFFCF], some 0) := by decide
theorem test_sethigh_draw : -- T-GPIO-7
    look (fun t => (t.hist, t.out)) (execFor (.sethigh 21) 2 (withEnv [0x00000400]))
      = some ([.read 0xFE20001C 0x400, .write 0xFE20001C 0x00200400], 0x00200400) := by decide
theorem test_sethigh_max_pin : -- T-GPIO-11: bits 31:26 of GPSET1 are pins above MAX_PIN
    look (·.out) (execFor (.sethigh 53) 2 (withEnv [0xFC000000])) = some (1#64 <<< 53) := by decide
theorem test_setlow : -- T-GPIO-12
    look (fun t => (t.hist, t.out)) (execFor (.setlow 21) 2 (zeroRead { State.reset with out := 0x00600000 }))
      = some ([.read 0xFE200028 0, .write 0xFE200028 0x00200000], 0x00400000) := by decide
theorem test_setlow_out_of_range : after (.setlow 58) 1 State.reset = some ([], some 1) := by decide -- T-GPIO-13
theorem test_pull_none : -- T-GPIO-14
    after (.pull 14 .none) 2 (withCells [(0xFE2000E4, 0xFFFFFFFF)])
      = some ([.read 0xFE2000E4 0xFFFFFFFF, .write 0xFE2000E4 0xCFFFFFFF], some 0) := by decide
theorem test_pull_down : -- T-GPIO-17
    after (.pull 57 .pullDown) 2 State.reset
      = some ([.read 0xFE2000F0 0, .write 0xFE2000F0 0x00080000], some 0) := by decide
theorem test_alt5 : -- T-ALT5-1
    after (.alt5 14) 4 (withCells [(0xFE200004, 0xFFFFFFFF), (0xFE2000E4, 0xFFFFFFFF)])
      = some ([.read 0xFE2000E4 0xFFFFFFFF, .write 0xFE2000E4 0xCFFFFFFF,
          .read 0xFE200004 0xFFFFFFFF, .write 0xFE200004 0xFFFFAFFF], some 0) := by decide
theorem test_alt5_out_of_range : after (.alt5 58) 1 State.reset = some ([], some 1) := by decide -- T-ALT5-3

/-! ## UART (95_test_vectors.md 2.5, Part 3 P1) -/

theorem test_uinit_events : -- P1 command 1
    after .uinit 16 (withCells [(0xFE200004, 0x00024000), (0xFE2000E4, 0x55555555)])
      = some ([.write 0xFE215004 0x1, .write 0xFE215044 0x0, .write 0xFE215060 0x0, .write 0xFE21504C 0x3,
          .write 0xFE215050 0x0, .write 0xFE215048 0xC6, .write 0xFE215068 0x21D,
          .read 0xFE2000E4 0x55555555, .write 0xFE2000E4 0x45555555,
          .read 0xFE200004 0x00024000, .write 0xFE200004 0x00022000,
          .read 0xFE2000E4 0x45555555, .write 0xFE2000E4 0x05555555,
          .read 0xFE200004 0x00022000, .write 0xFE200004 0x00012000, .write 0xFE215060 0x3], some 0) := by decide
theorem test_uinit_twice : -- T-UART-2
    faultOf (exec .uinit (readyUart [])) = some (.uartReinitialized, []) := by decide
theorem test_urdy : -- T-URDY-1 to T-URDY-3
    after .urdy 1 (withEnv [0x60]) = some ([.read 0xFE215054 0x60], some 1)
      ∧ after .urdy 1 (withEnv [0x40]) = some ([.read 0xFE215054 0x40], some 0)
      ∧ after .urdy 1 (withEnv [0xFFFFFFDF]) = some ([.read 0xFE215054 0xFFFFFFDF], some 0) := by decide
theorem test_usend : -- T-USEND-2
    look (fun t => (t.tx, t.hist, t.respPort)) (execFor (.usend 0x61) 4 (readyUart [0x00, 0x00, 0x20]))
      = some ([0x61], [.read 0xFE215054 0, .read 0xFE215054 0, .read 0xFE215054 0x20, .write 0xFE215040 0x61], some 0) := by
  decide
theorem test_usend_not_initialized : -- T-USEND-5
    faultOf (exec (.usend 0x61) State.reset) = some (.uartNotInitialized, []) := by decide
theorem test_utext : -- T-UTEXT-2
    look (fun t => (t.tx, t.respPort)) (execFor (.utext 0x80000) 12
        { readyUart [0x20, 0x20, 0x20, 0x20] with
          bufmem := [(0x80000, 0x61), (0x80001, 0x0A), (0x80002, 0x62), (0x80003, 0x00)] })
      = some ([0x61, 0x0D, 0x0A, 0x62], some 0) := by decide
theorem test_utext_unreadable : -- T-UTEXT-7
    (faultOf (execFor (.utext 0x80000) 7
        { readyUart [0x20, 0x20] with bufmem := [(0x80000, 0x61), (0x80001, 0x62)] })).map (·.1)
      = some (.unmapped 0x80002) := by decide

/-- T-DIV: the default divisor is 541, and with `UART_CLOCK_HZ = 250000000` it is 270 (95_test_vectors.md 2.5). -/
theorem test_divisor :
    Config.default.divisor = 541 ∧ ({ Config.default with uartClockHz := 250000000 } : Config).divisor = 270 := by decide

/-! ## The constraint on `INIT_SEQ` (42_uart.md R145, R148) -/

/-- The five source steps alone, in the source's order. -/
def sourceSteps : List InitStep :=
  [.write .ier (.literal 0), .write .lcr (.literal 3), .write .baud .divisor, .muxTx, .muxRx, .write .cntl (.literal 3)]

theorem test_init_order_kept : -- R145's table; the steps alone; LCR 1 and RX first
    initOrdered defaultInitSeq = true ∧ initOrdered sourceSteps = true
      ∧ initOrdered [.write .ier (.literal 0), .write .lcr (.literal 1), .write .baud .divisor, .muxRx, .muxTx,
          .write .cntl (.literal 3)] = true := by decide
theorem test_init_order_broken : -- a pin before BAUD; a pin after CNTL; IER, LCR, BAUD exchanged; off at the end; a step missing
    initOrdered (.muxTx :: sourceSteps) = false ∧ initOrdered (sourceSteps ++ [.muxRx]) = false
      ∧ initOrdered [.write .lcr (.literal 3), .write .ier (.literal 0), .write .baud .divisor, .muxTx, .muxRx,
          .write .cntl (.literal 3)] = false
      ∧ initOrdered [.write .ier (.literal 0), .write .baud .divisor, .write .lcr (.literal 3), .muxTx, .muxRx,
          .write .cntl (.literal 3)] = false
      ∧ initOrdered (sourceSteps ++ [.write .cntl (.literal 0)]) = false ∧ initOrdered (sourceSteps.eraseIdx 3) = false := by
  decide

/-- `TARGET_BAUD` is fixed (00_scope.md R6). -/
theorem test_wf_fixes_target_baud :
    Config.default.wf = true ∧ ({ Config.default with maxPin := 53 } : Config).wf = true
      ∧ ({ Config.default with targetBaud := 0x20000000 } : Config).wf = false := by decide

/-! ## Every statement with hypotheses has an input that meets them -/

theorem witness_DecodeOfEncode : (Instr.setfield 0xFFFFFFFF 0 0 1 0).wf = true ∧ (Instr.fsel 255 .alt5).wf = true := by decide
theorem witness_EncodeOfDecode : decode [0x00030001, 1, 2, 3, 4, 5] = .command (.setfield 1 2 3 3 4) [5] := by
  decide
theorem witness_IllegalWordsAreThoseOfR77 : decode [0x00030E05, 7] = .illegal 0x00030E05 .pullModeReserved := by decide
theorem witness_CommandLengthIsGivenByOpcode :
    decode [0x00010001, 1, 2, 3, 4, 5] = .command (.setfield 1 2 3 1 4) [5]
      ∧ decode [0x0000000A, 9, 5] = .command (.utext 9) [5] ∧ decode [0x00000008, 5] = .command .urdy [5] := by decide

/-- An idle unit with these words on its port. -/
def presented (ws : List Word) : State := { State.reset with cmdPort := ws }

/-- FSEL of pin 57 in flight, between its two micro-steps. -/
def midway : State :=
  { State.reset with
    latches := latchesOf (.fsel 57 .alt0)
    seq := .fieldWrite 0x3FFFFFFF
    cells := [(0xFE200014, 0x3FFFFFFF)]
    hist := [.read 0xFE200014 0x3FFFFFFF] }

theorem witness_StepRunsDecodedCommand :
    (presented [0x00003902, 8]).Unmarked ∧ (presented [0x00003902, 8]).seq = .idle
      ∧ decode (presented [0x00003902, 8]).cmdPort = .command (.fsel 57 .input) [8] :=
  ⟨⟨rfl, rfl⟩, rfl, by decide⟩
theorem witness_StepContinuesLatchedCommand :
    midway.Unmarked ∧ midway.seq ≠ .idle ∧ midway.latches = latchesOf (.fsel 57 .alt0) :=
  ⟨⟨rfl, rfl⟩, by decide, rfl⟩
theorem witness_StepRefusesIllegalCommand :
    (presented [0x0000000F]).Unmarked ∧ (presented [0x0000000F]).seq = .idle
      ∧ decode (presented [0x0000000F]).cmdPort = .illegal 0x0000000F .reservedOpcode :=
  ⟨⟨rfl, rfl⟩, rfl, by decide⟩
theorem witness_IdleUnitWaitsForACommand :
    (presented [0x0000000A]).Unmarked ∧ (presented [0x0000000A]).seq = .idle
      ∧ decode (presented [0x0000000A]).cmdPort = .incomplete ∧ decode State.reset.cmdPort = .incomplete :=
  ⟨⟨rfl, rfl⟩, rfl, by decide, by decide⟩
theorem witness_AcceptedCommandIsLatchedOrAnswered :
    look (·.seq) (exec (.fsel 58 .alt5) State.reset) = some .idle
      ∧ look (·.seq) (exec (.fsel 57 .alt5) State.reset) = some (.fieldWrite 0) := by decide
theorem witness_MarkedStateIsNeverLeft :
    ({ State.reset with fault := some (.unmapped 0xFFFFFFFF) } : State).fault = some (.unmapped 0xFFFFFFFF)
      ∧ ({ State.reset with fault := some .uartNotInitialized } : State).fault = some .uartNotInitialized
      ∧ ({ State.reset with fault := some .uartReinitialized } : State).fault = some .uartReinitialized
      ∧ ({ State.reset with refusal := some (.illegalCommand 0) } : State).refusal = some (.illegalCommand 0)
      ∧ ({ State.reset with refusal := some (.readOfWriteOnlyAux 0xFE215040) } : State).refusal
        = some (.readOfWriteOnlyAux 0xFE215040)
      ∧ ({ State.reset with refusal := some (.writeOfStatus 0xFE215054) } : State).refusal
        = some (.writeOfStatus 0xFE215054)
      ∧ State.reset.fault = none := by decide

theorem witness_UnmappedAccessFaultsUnrecorded :
    Config.default.classOf 0xFE200018 = none ∧ Config.default.classOf 0xFE21506C = none
      ∧ State.reset.bufmem.read 0xFFFFFFFF = none := by decide
theorem witness_RepeatedWrites :
    State.reset.cells.wf = true ∧ Config.default.classOf 0xFE2000F0 = some .storage
      ∧ Config.default.classOf 0xFE200020 = some (.setReg 1) ∧ Config.default.classOf 0xFE20002C = some (.clrReg 1)
      ∧ Config.default.classOf 0xFE215040 = some .txData := by decide

theorem witness_BankStride :
    (3 : BitVec 2) ≠ 0 ∧ (0xFFFFFFF5 : Word).toNat + (fieldsPerRegister 3).toNat < 2 ^ 32 := by decide
theorem witness_FieldsAreContainedAndDisjoint :
    (3 : BitVec 2) ≠ 0 ∧ (7 : Word) ≤ fieldMask 3 ∧ (0 : Word) ≠ 0xFFFFFFFF := by decide
theorem witness_BankSpan : (1 : BitVec 2) ≠ 0 := by decide

theorem witness_SetfieldValidatesInOrder :
    (3 : BitVec 2) ≠ 0 ∧ State.reset.seq = .idle ∧ (57 : Word) < 58
      ∧ (57 : Word) ≤ 57 ∧ (1#32 <<< (3 : BitVec 2).toNat) - 1 < (8 : Word)
      ∧ (7 : Word) ≤ (1#32 <<< (3 : BitVec 2).toNat) - 1 ∧ (0xFE200003 : Word) % 4 ≠ 0 := by decide
theorem witness_FailingSetfieldMakesNoAccess :
    State.reset.seq = .idle ∧ (3 : BitVec 2) ≠ 0 ∧ (57 : Word) < 58 ∧ (1#32 <<< (3 : BitVec 2).toNat) - 1 < (8 : Word)
      ∧ look (fun t => (t.respPort, t.seq)) (exec (.setfield 0xFE200000 58 7 3 57) State.reset) = some (some 1, .idle)
      ∧ look (fun t => (t.respPort, t.seq)) (exec (.setfield 0xFE200002 57 7 3 57) State.reset) = some (some 2, .idle) := by
  decide
theorem witness_SetfieldCompletesOnStorage :
    (3 : BitVec 2) ≠ 0 ∧ State.reset.seq = .idle ∧ (57 : Word) ≤ 57 ∧ (7 : Word) ≤ (1#32 <<< (3 : BitVec 2).toNat) - 1
      ∧ (0xFE200000 : Word) % 4 = 0
      ∧ Config.default.classOf (0xFE200000 + 57 / (32 / (3 : BitVec 2).setWidth 32) * 4) = some .storage := by decide
theorem witness_SetfieldCompletesOnSetAndClearRegisters :
    (1 : BitVec 2) ≠ 0 ∧ State.reset.seq = .idle ∧ (57 : Word) ≤ 57 ∧ (1 : Word) ≤ (1#32 <<< (1 : BitVec 2).toNat) - 1
      ∧ (0xFE20001C : Word) % 4 = 0 ∧ (0xFE200028 : Word) % 4 = 0
      ∧ Config.default.classOf (0xFE20001C + 57 / (32 / (1 : BitVec 2).setWidth 32) * 4) = some (.setReg 1)
      ∧ Config.default.classOf (0xFE200028 + 57 / (32 / (1 : BitVec 2).setWidth 32) * 4) = some (.clrReg 1) := by decide
theorem witness_SetfieldStops :
    (3 : BitVec 2) ≠ 0 ∧ State.reset.seq = .idle ∧ (0 : Word) ≤ 0 ∧ (7 : Word) ≤ (1#32 <<< (3 : BitVec 2).toNat) - 1
      ∧ Config.default.classOf (0x00000000 + 0 / (32 / (3 : BitVec 2).setWidth 32) * 4) = none
      ∧ Config.default.classOf (0xFE215040 + 0 / (32 / (3 : BitVec 2).setWidth 32) * 4) = some .txData
      ∧ Config.default.classOf (0xFE215048 + 0 / (32 / (3 : BitVec 2).setWidth 32) * 4) = some .iir
      ∧ Config.default.classOf (0xFE215054 + 0 / (32 / (3 : BitVec 2).setWidth 32) * 4) = some .status
      ∧ (0xFE215040 : Word) % 4 = 0 ∧ (0xFE215048 : Word) % 4 = 0 ∧ (0xFE215054 : Word) % 4 = 0 := by decide
theorem witness_SetfieldReadBackAndPreservation :
    State.reset.cells.wf = true ∧ State.reset.seq = .idle
      ∧ Config.default.classOf (regAddr 0xFE200000 57 3) = some .storage
      ∧ look (·.seq) (exec (.setfield 0xFE200000 57 7 3 57) State.reset) = some (.fieldWrite 0)
      ∧ look (·.respPort) (execFor (.setfield 0xFE200000 57 7 3 57) 2 State.reset) = some (some 0) := by decide

theorem witness_FselCompletes :
    State.reset.seq = .idle ∧ (57#8).setWidth 32 ≤ Config.default.maxPin
      ∧ Config.default.classOf (Config.default.gpfsel0 + (57#8).setWidth 32 / 10 * 4) = some .storage := by decide
theorem witness_PullCompletes :
    State.reset.seq = .idle ∧ (57#8).setWidth 32 ≤ Config.default.maxPin
      ∧ Config.default.classOf (Config.default.gppuppdn0 + (57#8).setWidth 32 / 16 * 4) = some .storage := by decide
theorem witness_SethighCompletes :
    State.reset.seq = .idle ∧ (57#8).setWidth 32 ≤ Config.default.maxPin ∧ Config.default.maxPin < 64
      ∧ Config.default.classOf (Config.default.gpset0 + (57#8).setWidth 32 / 32 * 4) = some (.setReg (57 / 32))
      ∧ (zeroRead State.reset).cfg.setclrRead = .zero ∧ (zeroRead State.reset).cfg.maxPin = 57 := by decide
theorem witness_SetlowCompletes :
    State.reset.seq = .idle ∧ (57#8).setWidth 32 ≤ Config.default.maxPin ∧ Config.default.maxPin < 64
      ∧ Config.default.classOf (Config.default.gpclr0 + (57#8).setWidth 32 / 32 * 4) = some (.clrReg (57 / 32))
      ∧ (zeroRead State.reset).cfg.setclrRead = .zero := by decide
theorem witness_Alt5Completes :
    State.reset.seq = .idle ∧ (57#8).setWidth 32 ≤ Config.default.maxPin
      ∧ Config.default.classOf (Config.default.gppuppdn0 + (57#8).setWidth 32 / 16 * 4) = some .storage
      ∧ Config.default.classOf (Config.default.gpfsel0 + (57#8).setWidth 32 / 10 * 4) = some .storage := by decide
theorem witness_Alt5EndState :
    State.reset.cfg = Config.default ∧ State.reset.cells.wf = true ∧ State.reset.seq = .idle ∧ (57 : BitVec 8) ≤ 57 :=
  ⟨rfl, rfl, rfl, by decide⟩
theorem witness_GpioPinOutOfRange :
    State.reset.seq = .idle ∧ Config.default.maxPin < (58#8).setWidth 32 ∧ Config.default.maxPin < (255#8).setWidth 32 := by
  decide
theorem witness_GpioCommandsAreSetfield :
    Config.default.gpfsel0 % 4 = 0 ∧ Config.default.gpset0 % 4 = 0 ∧ Config.default.gpclr0 % 4 = 0
      ∧ Config.default.gppuppdn0 % 4 = 0 := by decide
theorem witness_Alt5IsPullThenFsel :
    ∃ u t, State.reset.seq = .idle ∧ (57#8).setWidth 32 ≤ State.reset.cfg.maxPin
      ∧ execFor (.pull 57 .none) 2 State.reset = .next u ∧ execFor (.fsel 57 .alt5) 2 u = .next t :=
  ⟨_, _, rfl, by decide, rfl, rfl⟩
theorem witness_LaterSetOrClearWins :
    State.reset.seq = .idle ∧ (57#8).setWidth 32 ≤ Config.default.maxPin ∧ (57#8).toNat < 64
      ∧ Config.default.classOf (regAddr Config.default.gpset0 ((57#8).setWidth 32) 1) = some (.setReg ((57#8).toNat / 32))
      ∧ Config.default.classOf (regAddr Config.default.gpclr0 ((57#8).setWidth 32) 1)
        = some (.clrReg ((57#8).toNat / 32)) := by decide
theorem witness_DefaultParametersReachTheBanks : (57 : BitVec 8) ≤ 57 ∧ (0 : BitVec 8) ≤ 57 := by decide
theorem witness_DivisorOfTheDefaultClock :
    ({ Config.default with uartClockHz := 921599 } : Config).uartClockHz < Config.default.targetBaud * 8 := by decide

theorem witness_InitSeqConstraintKeepsTheOrder : initOrdered sourceSteps = true := by decide
theorem witness_UinitCompletes :
    State.reset.cfg = Config.default ∧ State.reset.cells.wf = true ∧ State.reset.seq = .idle
      ∧ State.reset.uart = .uninitialized :=
  ⟨rfl, rfl, rfl, rfl⟩
theorem witness_UartContractViolationsFault :
    State.reset.seq = .idle ∧ State.reset.uart = .uninitialized ∧ (readyUart []).seq = .idle
      ∧ (readyUart []).uart = .ready := by decide
theorem witness_UrdyCompletes :
    State.reset.seq = .idle ∧ Config.default.classOf (Config.default.aux .lsr) = some .status := by decide

theorem hasUart_default : Config.default.HasUart := ⟨by decide, by decide⟩

theorem witness_UsendCompletesAfterPolls :
    let s := readyUart [0, 0xFFFFFFDF, 0x20]
    s.seq = .idle ∧ s.uart = .ready ∧ s.cfg.HasUart
      ∧ (∀ k, k < 2 → txReady s.cfg (s.futureDraw k) = false) ∧ txReady s.cfg (s.futureDraw 2) = true :=
  ⟨rfl, rfl, hasUart_default, by decide, by decide⟩
theorem witness_PollLoopReadsOncePerStep :
    Config.default.classOf (Config.default.aux .lsr) = some .status
      ∧ ({ readyUart [0] with seq := .sendPoll } : State).seq = .sendPoll
      ∧ ({ readyUart [0] with seq := .textPollCr 0xFFFFFFFF } : State).seq = .textPollCr 0xFFFFFFFF
      ∧ ({ readyUart [0] with seq := .textPoll 0 0xFF } : State).seq = .textPoll 0 0xFF := by decide
theorem witness_PollHangsWhileNotReady :
    let s := { readyUart [0, 0xFFFFFFDF] with seq := .sendPoll }
    s.seq = .sendPoll ∧ ({ s with seq := .textPollCr 5 } : State).seq = .textPollCr 5
      ∧ ({ s with seq := .textPoll 5 6 } : State).seq = .textPoll 5 6
      ∧ s.cfg.HasUart ∧ ∀ k, k < 2 → txReady s.cfg (s.futureDraw k) = false :=
  ⟨rfl, rfl, rfl, hasUart_default, by decide⟩

/-- A ready UART, one not-ready answer and three ready ones, and a text that begins at the last byte of the address space. -/
def texting : State :=
  { readyUart [0x00, 0x20, 0x20, 0x20] with bufmem := [(0x00000000, 0x0A), (0x00000001, 0x00), (0xFFFFFFFF, 0x61)] }

theorem witness_UtextOfTheEmptyText :
    texting.seq = .idle ∧ texting.uart = .ready ∧ texting.readable 1 = some 0 := by decide
theorem witness_UtextSendsTheTranslatedText :
    texting.seq = .idle ∧ texting.uart = .ready ∧ texting.cfg.HasUart ∧ texting.HasText 0xFFFFFFFF [0x61, 0x0A]
      ∧ texting.TxReadyTimes (crlf [0x61, 0x0A]).length :=
  ⟨rfl, rfl, hasUart_default, ⟨⟨by decide, by decide, by decide, by decide, trivial⟩, by decide⟩, ⟨4, by decide⟩⟩
theorem witness_UtextFaultsAtAnUnreadableByte :
    let s := { readyUart [0x20] with bufmem := [(0xFE1FFFFF, 0x61)] }
    s.seq = .idle ∧ s.uart = .ready ∧ s.cfg.HasUart ∧ s.HasBytes 0xFE1FFFFF [0x61]
      ∧ s.readable (0xFE1FFFFF + BitVec.ofNat 32 1) = none ∧ s.TxReadyTimes (crlf [0x61]).length :=
  ⟨rfl, rfl, hasUart_default, ⟨by decide, by decide, trivial⟩, by decide, ⟨1, by decide⟩⟩

theorem witness_RegisterCommandFrame :
    State.reset.cells.wf = true ∧ State.reset.seq = .idle
      ∧ (look (·.seq) (exec (.setfield 0xFE200000 57 7 3 57) State.reset)).isSome
      ∧ (look (·.seq) (exec (.fsel 57 .alt5) midway)).isSome
      ∧ (look (·.seq) (exec (.sethigh 57) (withEnv [0]))).isSome ∧ (look (·.seq) (exec (.setlow 57) (withEnv [0]))).isSome
      ∧ (look (·.seq) (exec (.pull 57 .none) State.reset)).isSome ∧ (look (·.seq) (exec (.alt5 57) State.reset)).isSome
      ∧ Config.default.classOf (regAddr Config.default.gpfsel0 57 3) = some .storage
      ∧ (0xFE200010 : Word) ≠ regAddr Config.default.gpfsel0 57 3 := by decide
theorem witness_TransmitCommandFrame :
    (look (·.seq) (exec .urdy (withEnv [0]))).isSome
      ∧ look (·.tx) (exec (.usend 0x61) { readyUart [] with seq := .sendWrite }) = some [0x61]
      ∧ look (·.tx) (exec (.utext 0) { readyUart [] with seq := .textWriteCr 5 }) = some [0x0D]
      ∧ look (·.tx) (exec (.utext 0) { readyUart [] with seq := .textWrite 5 0xFF }) = some [0xFF]
      ∧ look (·.tx) (exec (.utext 1) texting) = some [] := by decide
theorem witness_UinitFrame :
    let s := { State.reset with seq := .init [.muxRx, .write .cntl (.literal 3)] (.fselWrite 7) }
    s.cfg = Config.default ∧ s.cells.wf = true ∧ (∃ done, defaultInitSeq = done ++ [.muxRx, .write .cntl (.literal 3)])
      ∧ look (·.seq) (exec .uinit s) = some (.init [.write .cntl (.literal 3)] .pullRead)
      ∧ (0xFE200000#32) ∉ [0xFE215004#32, 0xFE2000E4#32, 0xFE200004#32] :=
  ⟨rfl, rfl, ⟨defaultInitSeq.take 8, rfl⟩, by decide, by decide⟩

theorem witness_ResponsesOfEachCommand :
    look (fun t => (t.seq, t.respPort)) (exec .urdy (withEnv [0x20])) = some (.idle, some 1)
      ∧ look (fun t => (t.seq, t.respPort)) (exec (.fsel 57 .alt0) midway) = some (.idle, some 0)
      ∧ look (fun t => (t.seq, t.respPort)) (exec (.setfield 2 0 0 1 0) State.reset) = some (.idle, some 2)
      ∧ look (fun t => (t.seq, t.respPort)) (exec (.utext 1) texting) = some (.idle, some 0) := by decide
theorem witness_ErrorsChangeNothing :
    Instr.pull 255 .none ≠ .urdy
      ∧ look (fun t => (t.seq, t.respPort)) (exec (.pull 255 .none) State.reset) = some (.idle, some 1) := by decide

/-- UINIT before its last access. -/
def lastOfInit : State :=
  { State.reset with latches := latchesOf .uinit, seq := .init [.write .cntl (.literal 3)] .pullRead }

theorem witness_UartStateChangesOnlyInUinit :
    look (·.uart) (exec .uinit lastOfInit) = some .ready ∧ lastOfInit.uart = .uninitialized
      ∧ (faultOf (exec (.setfield 0 0 0 1 0) State.reset)).isSome ∧ (faultOf (exec (.usend 0) State.reset)).isSome
      ∧ (faultOf (exec .uinit (readyUart []))).isSome
      ∧ ∃ t, Host.Core.run core 1 (readyUart []) = .next t :=
  ⟨by decide, rfl, by decide, by decide, by decide, ⟨_, rfl⟩⟩
theorem witness_OneAccessPerStep :
    look (·.hist) (step midway)
        = some [.read 0xFE200014 0x3FFFFFFF, .write 0xFE200014 0x3F9FFFFF]
      ∧ look (·.hist) (step State.reset) = some [] := by decide
theorem witness_StepOnlyAppends : look (·.responses) (step midway) = some [0] := by decide
theorem witness_HistoryDeterminesTheDevice :
    midway.cells.wf = true ∧ ∃ t, Host.Core.run core 1 midway = .next t :=
  ⟨by decide, ⟨_, rfl⟩⟩

/-- A launch with other register contents than reset's (10_state.md R46). -/
def otherLaunch : State :=
  { State.reset with
    out := 0x03FFFFFFFFFFFFFF
    cells := [(0xFE200004, 0x00024000), (0xFE2000E4, 0x55555555)]
    bufmem := [(0x80000, 0x68), (0x80001, 0x00)]
    cmdPort := [0x00000007] }

theorem witness_LaunchStatesMeetTheInvariant : otherLaunch.Launch where
  cfg_wf := by decide
  latches_empty := rfl
  seq_idle := rfl
  uart_uninitialized := rfl
  tx_empty := rfl
  hist_empty := rfl
  no_fault := rfl
  not_refused := rfl
  no_response := ⟨rfl, rfl⟩
  cells_wf := by decide
  cells_storage := by decide
  bufmem_wf := by decide
  bufmem_apart := by decide
  out_in_range := by decide

theorem midway_inv : midway.Inv where
  cells_wf := by decide
  cells_storage := by decide
  bufmem_wf := by decide
  bufmem_apart := by decide
  out_in_range := by decide
  in_step := .inr ⟨.fsel 57 .alt0, by decide, rfl, rfl, rfl, rfl⟩
  tx_history := by decide

theorem witness_EveryStepKeepsTheInvariant : midway.Inv ∧ (look (·.seq) (step midway)).isSome :=
  ⟨midway_inv, by decide⟩

/-- An idle unit with a refused word, and one with a command that faults. -/
theorem idle_inv (ws : List Word) : (presented ws).Inv where
  cells_wf := rfl
  cells_storage := by simp [presented, State.reset]
  bufmem_wf := rfl
  bufmem_apart := by simp [presented, State.reset]
  out_in_range := by simp [presented, State.reset]
  in_step := .inl ⟨rfl, rfl, rfl⟩
  tx_history := rfl

theorem witness_StepStopsOnlyAsTheSpecSays :
    (presented [0]).Inv ∧ (refusalOf (step (presented [0]))).isSome
      ∧ (presented [0x00000009]).Inv ∧ (faultOf (step (presented [0x00000009]))).isSome :=
  ⟨idle_inv _, by decide, idle_inv _, by decide⟩

end Sys2Proof.Tests
end

/-! # The state: what every step keeps, and what a history determines (10_state.md) -/

namespace Sys2Proof.Machine

/-! ## Replaying a history -/

theorem replayCell_append (a : Word) (es fs : List Event) (v : Word) :
    replayCell a (es ++ fs) v = replayCell a fs (replayCell a es v) := by
  induction es generalizing v with
  | nil => rfl
  | cons e es ih => cases e <;> exact ih _

theorem readsAgree_append (c : Config) (start : Word → Word) (before es fs : List Event) :
    readsAgree c start before (es ++ fs) ↔
      readsAgree c start before es ∧ readsAgree c start (before ++ es) fs := by
  induction es generalizing before with
  | nil => simp [readsAgree]
  | cons e es ih => simp only [List.cons_append, readsAgree, ih, List.append_assoc, List.nil_append, and_assoc]

/-- The cells after one event stay in canonical form. -/
theorem cellsAfter_wf {c : Config} {cells : Cells} (h : cells.wf = true) (e : Event) :
    (cellsAfter c cells e).wf = true := by
  cases e with
  | read a v => exact h
  | byteRead a b => exact h
  | write a v =>
    simp only [cellsAfter]
    split
    · exact Cells.write_wf h a v
    · exact h

/-- A storage register after one event holds what replaying that event gives. -/
theorem cellsAfter_read {c : Config} {cells : Cells} (h : cells.wf = true) (e : Event) {b : Word}
    (hb : c.classOf b = some .storage) : (cellsAfter c cells e).read b = replayCell b [e] (cells.read b) := by
  cases e with
  | read a v => rfl
  | byteRead a v => rfl
  | write a v =>
    simp only [cellsAfter, replayCell]
    split
    · rw [Cells.read_write h]
      simp only [eq_comm]
    · next ha =>
      have hne : a ≠ b := fun hab => ha (hab ▸ hb)
      rw [if_neg hne]

/-- An event adds a cell only at a storage register. -/
theorem cellsAfter_storage {c : Config} {cells : Cells}
    (h : ∀ x ∈ cells, assocFind c.deviceMap x.1 = some .storage) (e : Event) :
    ∀ x ∈ cellsAfter c cells e, assocFind c.deviceMap x.1 = some .storage := by
  cases e with
  | read a v => exact h
  | byteRead a b => exact h
  | write a v =>
    simp only [cellsAfter]
    split
    · next ha =>
      intro x hx
      obtain ⟨rfl, -⟩ | hx := Cells.mem_write hx
      · exact ha
      · exact h x hx
    · exact h

/-- No event sets a pin latch above `MAX_PIN` (10_state.md R34, R35). -/
theorem outAfter_in_range {c : Config} {o : BitVec 64} (h : o &&& ~~~pinMask c.maxPin = 0) (e : Event) :
    outAfter c o e &&& ~~~pinMask c.maxPin = 0 := by
  have acted (k : Nat) (v : Word) : actedPins c.maxPin k v &&& ~~~pinMask c.maxPin = 0 := by
    simp [actedPins, BitVec.and_assoc]
  cases e with
  | read a v => exact h
  | byteRead a b => exact h
  | write a v =>
    simp only [outAfter]
    split
    · simp [BitVec.and_or_distrib_right, h, acted]
    · rw [BitVec.and_assoc, BitVec.and_comm (~~~_), ← BitVec.and_assoc, h]; exact BitVec.zero_and
    all_goals exact h

/-! ## What a step does to the device and the ports -/

/-- The words a decoded command leaves are the last words of the port (30_encoding.md R70). -/
theorem decode_command_suffix {ws rest : List Word} {i : Instr} (h : decode ws = .command i rest) :
    ∃ taken, ws = taken ++ rest := by
  have operands {op : Operation} {w0 : Word} {ws : List Word} (h : decodeOperands op w0 ws = .command i rest) :
      ∃ taken, ws = taken ++ rest := by
    cases op <;> simp only [decodeOperands] at h
    case setfield =>
      split at h
      · cases h
      · split at h
        · next bank index value maxidx rest => cases h; exact ⟨[bank, index, value, maxidx], rfl⟩
        · cases h
    case pull =>
      split at h
      · cases h; exact ⟨[], rfl⟩
      · cases h
    case utext =>
      split at h
      · next buf rest => cases h; exact ⟨[buf], rfl⟩
      · cases h
    all_goals cases h; exact ⟨[], rfl⟩
  cases ws with
  | nil => cases h
  | cons w0 ws =>
    simp only [decode] at h
    split at h
    · obtain ⟨taken, rfl⟩ := operands h
      exact ⟨w0 :: taken, rfl⟩
    · cases h

/-- What every step keeps, and how the device and the ports change. -/
structure StepEffect (s t : State) : Prop where
  cfg : t.cfg = s.cfg
  bufmem : t.bufmem = s.bufmem
  access : NoAccess s t ∨ ∃ e, AccessEffect s t e
  responses : ∃ vs, t.responses = s.responses ++ vs
  cmdPort : ∃ taken, s.cmdPort = taken ++ t.cmdPort

variable {i : Instr} {s t : State}

theorem ExecEffect.responses_append (h : ExecEffect i s t) : ∃ vs, t.responses = s.responses ++ vs := by
  obtain ⟨v, hv⟩ | hf := h.phase
  · exact ⟨[v], hv.responses⟩
  · exact ⟨[], by rw [hf.responses, List.append_nil]⟩

theorem NoAccess.of_take {ws : List Word} (h : NoAccess (s.take ws) t) : NoAccess s t :=
  ⟨h.recorded, h.cells, h.out, h.tx⟩

theorem AccessEffect.of_take {ws : List Word} {e : Event} (h : AccessEffect (s.take ws) t e) : AccessEffect s t e :=
  ⟨h.recorded, h.cells, h.out, h.tx, h.read_value, h.byte_value⟩

theorem step_effect (h : step s = .next t) : StepEffect s t := by
  obtain ⟨-, hc⟩ := step_next h
  cases hc with
  | wait _ _ same =>
    subst same
    exact ⟨rfl, rfl, .inl ⟨rfl, rfl, rfl, rfl⟩, ⟨[], by simp⟩, ⟨[], rfl⟩⟩
  | take i rest _ fetch runs =>
    obtain ⟨-, he⟩ := exec_next runs
    have access := he.access.imp NoAccess.of_take (Exists.imp fun _ => AccessEffect.of_take)
    refine ⟨he.cfg, he.bufmem, access, he.responses_append, ?_⟩
    rw [he.cmdPort]
    exact decode_command_suffix fetch
  | go i _ _ runs =>
    obtain ⟨-, he⟩ := exec_next runs
    exact ⟨he.cfg, he.bufmem, he.access, he.responses_append, ⟨[], by rw [he.cmdPort, List.nil_append]⟩⟩

/-- What every step keeps, every run keeps. -/
theorem run_induction {P : State → Prop} (hstep : ∀ s t, P s → step s = .next t → P t) (n : Nat) {s t : State}
    (hs : P s) (h : Host.Core.run core n s = .next t) : P t := by
  induction n generalizing s with
  | zero => cases h; exact hs
  | succ n ih =>
    simp only [Host.Core.run] at h
    split at h
    · next s' h1 => exact ih (hstep s s' hs h1) h
    · cases h
    · cases h

/-! ## The history determines the device (O53) -/

/-- The device in `t` is what the events `es`, recorded since `s`, make of the device in `s`. -/
structure Explains (s t : State) (es : List Event) : Prop where
  cfg : t.cfg = s.cfg
  cells_wf : t.cells.wf = true
  hist : t.hist = s.hist ++ es
  cell : ∀ a, s.cfg.classOf a = some .storage → t.cell a = replayCell a es (s.cell a)
  reads : readsAgree s.cfg (fun a => s.cell a) [] es
  out : t.out = es.foldl (outAfter s.cfg) s.out
  tx : t.tx = s.tx ++ es.filterMap (txByte s.cfg)

variable {u : State} {es : List Event}

theorem Explains.refl (h : s.cells.wf = true) : Explains s s [] :=
  ⟨rfl, h, by simp, fun _ _ => rfl, trivial, rfl, by simp⟩

theorem Explains.noAccess (h : Explains s t es) (hc : u.cfg = t.cfg) (hn : NoAccess t u) : Explains s u es where
  cfg := hc.trans h.cfg
  cells_wf := by rw [hn.cells, h.cells_wf]
  hist := hn.recorded.trans h.hist
  cell a ha := by
    rw [← h.cell a ha, State.cell, hn.cells]
    rfl
  reads := h.reads
  out := hn.out.trans h.out
  tx := hn.tx.trans h.tx

/-- A read appended to the events agrees, since the register holds what the events before it say. -/
theorem Explains.access {e : Event} (h : Explains s t es) (hc : u.cfg = t.cfg) (he : AccessEffect t u e) :
    Explains s u (es ++ [e]) where
  cfg := hc.trans h.cfg
  cells_wf := by
    rw [he.cells]
    exact cellsAfter_wf h.cells_wf e
  hist := by rw [he.recorded, h.hist, List.append_assoc]
  cell a ha := by
    rw [replayCell_append, ← h.cell a ha, State.cell, he.cells]
    exact cellsAfter_read h.cells_wf e (h.cfg ▸ ha)
  reads := by
    refine (readsAgree_append ..).mpr ⟨h.reads, ?_, trivial⟩
    cases e with
    | write a v => trivial
    | byteRead a b => trivial
    | read a v =>
      intro ha
      exact (he.read_value a v rfl (h.cfg ▸ ha)).trans (h.cell a ha)
  out := by rw [he.out, h.out, h.cfg, List.foldl_append, List.foldl_cons, List.foldl_nil]
  tx := by
    rw [he.tx, h.tx, h.cfg, List.filterMap_append, List.append_assoc]
    cases hb : txByte s.cfg e <;> simp [hb]

theorem Explains.of_step (h : Explains s t es) (hs : step t = .next u) : ∃ fs, Explains s u fs := by
  have he := step_effect hs
  obtain hn | ⟨e, ha⟩ := he.access
  · exact ⟨es, h.noAccess he.cfg hn⟩
  · exact ⟨es ++ [e], h.access he.cfg ha⟩

/-- Settles O53: "some events recorded since the start explain the device" holds at the start and every step keeps it. -/
theorem historyDeterminesTheDevice : Obligations.HistoryDeterminesTheDevice := by
  intro n s t hwf hrun
  obtain ⟨es, h⟩ := run_induction (P := fun u => ∃ es, Explains s u es) (fun _ _ ⟨_, h⟩ hs => h.of_step hs) n
    ⟨[], .refl hwf⟩ hrun
  exact ⟨es, h.hist, h.cell, h.reads, h.out, h.tx⟩

/-! ## The invariant (O56) -/

theorem latchedCommand_latchesOf (i : Instr) : latchedCommand (latchesOf i) = some i := Laws.Latch.all i

theorem latchesOf_injective {i i' : Instr} (h : latchesOf i = latchesOf i') : i = i' := by
  have hs : some i = some i' := by rw [← latchedCommand_latchesOf i, h, latchedCommand_latchesOf]
  exact Option.some.inj hs

/-- A command in flight does not stand at the position between commands. -/
theorem seq_ne_idle_of_ownsSeq {q : Seq} (h : ownsSeq i q = true) : q ≠ .idle := by
  rintro rfl
  cases i <;> cases h

/-- The invariant's clause on the sequencer, the latches and the response port (`State.Inv.in_step`). -/
def State.InStep (s : State) : Prop :=
  (s.seq = .idle ∧ s.latches = Latches.empty ∧ s.respPort = s.responses.getLast?)
    ∨ ∃ i, i.wf = true ∧ s.latches = latchesOf i ∧ ownsSeq i s.seq = true ∧ uartFits i s.uart = true ∧ s.respPort = none

/-- A state that meets the invariant still does when command words were taken off its port: no clause reads the command port. -/
theorem State.Inv.take (h : s.Inv) (ws : List Word) : (s.take ws).Inv :=
  ⟨h.cells_wf, h.cells_storage, h.bufmem_wf, h.bufmem_apart, h.out_in_range, h.in_step, h.tx_history⟩

/-- The clauses of the invariant on the device are kept by an access and by none; the clause on the sequencer is shown apart. -/
theorem State.Inv.of_effect (h : s.Inv) (hc : t.cfg = s.cfg) (hb : t.bufmem = s.bufmem)
    (ha : NoAccess s t ∨ ∃ e, AccessEffect s t e) (hq : t.InStep) : t.Inv := by
  have bufmem_wf : t.bufmem.wf = true := hb ▸ h.bufmem_wf
  have bufmem_apart : ∀ e ∈ t.bufmem, t.cfg.isDeviceByte (BitVec.ofNat 32 e.1) = false := by
    rw [hb, hc]
    exact h.bufmem_apart
  obtain hn | ⟨e, he⟩ := ha
  · refine ⟨?_, ?_, bufmem_wf, bufmem_apart, ?_, hq, ?_⟩
    · rw [hn.cells, h.cells_wf]
    · rw [hn.cells, hc]
      exact h.cells_storage
    · rw [hn.out, hc, h.out_in_range]
    · rw [hn.tx, hn.recorded, hc, h.tx_history]
  · refine ⟨?_, ?_, bufmem_wf, bufmem_apart, ?_, hq, ?_⟩
    · rw [he.cells]
      exact cellsAfter_wf h.cells_wf e
    · rw [he.cells, hc]
      exact cellsAfter_storage h.cells_storage e
    · rw [he.out, hc]
      exact outAfter_in_range h.out_in_range e
    · rw [he.tx, he.recorded, hc, h.tx_history, List.filterMap_append]
      cases hb : txByte s.cfg e <;> simp [hb]

/-- In a state that meets the invariant, a command that moves on fits `uart_state` and is the one the latches hold, if any. -/
theorem State.Inv.fits (h : s.Inv) (hl : s.seq = .idle ∨ s.latches = latchesOf i) (he : ExecEffect i s t) :
    uartFits i s.uart = true ∧ (s.seq ≠ .idle → s.latches = latchesOf i ∧ s.respPort = none) := by
  obtain ⟨hi, hu⟩ | ho := he.started
  · exact ⟨hu, fun hn => absurd hi hn⟩
  · have busy := seq_ne_idle_of_ownsSeq ho
    obtain ⟨hi, -, -⟩ | ⟨i', -, hl', -, hu, hp⟩ := h.in_step
    · exact absurd hi busy
    · have hil := hl.resolve_left busy
      obtain rfl := latchesOf_injective (hil.symm.trans hl')
      exact ⟨hu, fun _ => ⟨hil, hp⟩⟩

/-- A micro-step of a command from an idle unit, or of the latched command, keeps the invariant. -/
theorem State.Inv.of_exec (h : s.Inv) (hl : s.seq = .idle ∨ s.latches = latchesOf i) (hx : exec i s = .next t) : t.Inv := by
  obtain ⟨hwf, he⟩ := exec_next hx
  refine h.of_effect he.cfg he.bufmem he.access ?_
  obtain ⟨v, hv⟩ | hf := he.phase
  · exact .inl ⟨hv.seq, hv.latches, by rw [hv.respPort, hv.responses, List.getLast?_concat]⟩
  · obtain ⟨hu, hbusy⟩ := h.fits hl he
    have latched : t.latches = latchesOf i ∧ t.respPort = none := by
      rw [hf.latches, hf.respPort]
      split
      · exact ⟨rfl, rfl⟩
      · next hn => exact hbusy hn
    have uart : t.uart = s.uart := he.uart.resolve_right fun ⟨_, _, hi⟩ => seq_ne_idle_of_ownsSeq hf.seq hi
    exact .inr ⟨i, hwf, latched.1, hf.seq, uart ▸ hu, latched.2⟩

/-- Settles O56: each way a step answers a next state is waiting or one micro-step of the command the invariant speaks of. -/
theorem everyStepKeepsTheInvariant : Obligations.EveryStepKeepsTheInvariant := by
  intro s t h hs
  obtain ⟨-, hc⟩ := step_next hs
  cases hc with
  | wait _ _ same => exact same ▸ h
  | take i rest idle _ runs => exact (h.take rest).of_exec (.inl idle) runs
  | go i busy latched runs =>
    obtain ⟨hi, -, -⟩ | ⟨i', -, hl, -, -, -⟩ := h.in_step
    · exact absurd hi busy
    · rw [hl, latchedCommand_latchesOf] at latched
      cases latched
      exact h.of_exec (.inr hl) runs

/-! ## The frame of a step (O51, O52) -/

/-- Settles O51, from the inversion of the step. -/
theorem oneAccessPerStep : Obligations.OneAccessPerStep :=
  fun _ _ h => (step_effect h).access

/-- Settles O52: the history and the transmit stream grow by what the one access of the step, if any, says. -/
theorem stepOnlyAppends : Obligations.StepOnlyAppends := by
  intro s t h
  have he := step_effect h
  have grows : (∃ es, t.hist = s.hist ++ es) ∧ ∃ bs, t.tx = s.tx ++ bs := by
    obtain hn | ⟨e, ha⟩ := he.access
    · exact ⟨⟨[], by rw [hn.recorded, List.append_nil]⟩, ⟨[], by rw [hn.tx, List.append_nil]⟩⟩
    · exact ⟨⟨_, ha.recorded⟩, ⟨_, ha.tx⟩⟩
  exact ⟨he.cfg, he.bufmem, grows.1, grows.2, he.responses, he.cmdPort⟩

/-! ## The command in flight (O10, O6, O7, O11) -/

/-- Settles O10: a micro-step from an idle unit ends the command or leaves it in flight. -/
theorem acceptedCommandIsLatchedOrAnswered : Obligations.AcceptedCommandIsLatchedOrAnswered := by
  intro i s t hs hx
  obtain ⟨-, he⟩ := exec_next hx
  obtain ⟨v, hv⟩ | hf := he.phase
  · exact .inl ⟨hv.seq, hv.latches, v, hv.respPort, hv.responses⟩
  · exact .inr ⟨seq_ne_idle_of_ownsSeq hf.seq, by rw [hf.latches, if_pos hs], by rw [hf.respPort, if_pos hs],
      hf.responses⟩

/-- The step of an unmarked busy unit. -/
theorem step_busy (hm : s.Unmarked) (hs : s.seq ≠ .idle) : step s = stepBusy s := by
  obtain ⟨hf, hr⟩ := hm
  simp only [step, hf, hr, if_neg hs]

/-- Settles O6: an idle unit steps by what it fetches from the port. -/
theorem stepRunsDecodedCommand : Obligations.StepRunsDecodedCommand := by
  intro s i rest hm hs hd
  rw [step_idle hm hs, stepIdle, State.fetch, hd]
  rfl

/-- Settles O7: the latches a command fills give it back. -/
theorem stepContinuesLatchedCommand : Obligations.StepContinuesLatchedCommand := by
  intro s i hm hs hl
  rw [step_busy hm hs, stepBusy, hl, latchedCommand_latchesOf]

/-- A state with a fault mark stops with that fault. -/
theorem step_of_fault {k : FaultKind} (h : s.fault = some k) : step s = faultWith k s := by
  simp only [step, h]

/-- A state with a refusal mark and no fault mark stops with that refusal. -/
theorem step_of_refusal {r : RefusalKind} (hf : s.fault = none) (h : s.refusal = some r) : step s = refuseWith r s := by
  simp only [step, hf, h]

/-- Setting the fault mark a state already has changes nothing. -/
theorem State.fault_mark_self {k : FaultKind} (h : s.fault = some k) : { s with fault := some k } = s := by
  rw [← h]

/-- Setting the refusal mark a state already has changes nothing. -/
theorem State.refusal_mark_self {r : RefusalKind} (h : s.refusal = some r) : { s with refusal := some r } = s := by
  rw [← h]

/-- Settles O11: a marked state repeats its stop, and setting its mark again leaves the state as it is. -/
theorem markedStateIsNeverLeft : Obligations.MarkedStateIsNeverLeft := by
  refine ⟨fun s a h => ?_, fun s h => ?_, fun s h => ?_, fun s w hf h => ?_, fun s a hf h => ?_, fun s a hf h => ?_⟩
  · rw [step_of_fault h, faultWith, State.fault_mark_self h]
  · rw [step_of_fault h, faultWith, State.fault_mark_self h]
  · rw [step_of_fault h, faultWith, State.fault_mark_self h]
  · rw [step_of_refusal hf h, refuseWith, State.refusal_mark_self h]
  · rw [step_of_refusal hf h, refuseWith, State.refusal_mark_self h]
  · rw [step_of_refusal hf h, refuseWith, State.refusal_mark_self h]

/-! ## The responses of each command (O48) -/

theorem fieldRead_busy {bank index : Word} {w : BitVec 2} (h : fieldRead bank index w s = .next t) : t.seq ≠ .idle := by
  obtain ⟨u, s', rfl, -, -⟩ := fieldRead_next h
  simp

theorem fieldWrite_respPort {bank index value cur : Word} {w : BitVec 2}
    (h : fieldWrite bank index value w cur s = .next t) : t.respPort = some 0 := by
  obtain ⟨s', rfl, -, -⟩ := fieldWrite_next h
  rfl

theorem pollTxReady_busy {q r : Seq} (hq : q ≠ .idle) (hr : r ≠ .idle) (h : pollTxReady q r s = .next t) :
    t.seq ≠ .idle := by
  obtain ⟨u, s', rfl, -, -⟩ := pollTxReady_next h
  rw [State.goto_seq]
  split
  · exact hq
  · exact hr

/-- Where a command on one bank ends, it answers 0, or 1 at once. -/
theorem gpioField_completes {bank value : Word} {pin : BitVec 8} {w : BitVec 2}
    (h : gpioField i bank pin value w s = .next t) (hi : t.seq = .idle) :
    t.respPort = some 0 ∨ s.seq = .idle ∧ t = s.answered 1 := by
  unfold gpioField at h
  split at h
  · next hs =>
    split at h
    · cases h; exact .inr ⟨hs, rfl⟩
    · exact absurd hi (fieldRead_busy h)
  · exact .inl (fieldWrite_respPort h)
  · cases h

/-- Where SETFIELD ends, it answers 0, or the code of the failed check at once. -/
theorem execSetfield_completes {bank index value maxidx : Word} {w : BitVec 2}
    (h : execSetfield bank index value w maxidx s = .next t) (hi : t.seq = .idle) :
    t.respPort = some 0 ∨ s.seq = .idle ∧ (t = s.answered 1 ∨ t = s.answered 2) := by
  unfold execSetfield at h
  split at h
  · exact (refuseWith_ne_next _ _ _ h).elim
  · split at h
    · next hs =>
      split at h
      · exact absurd hi (fieldRead_busy h)
      · cases h; exact .inr ⟨hs, .inl rfl⟩
      · cases h; exact .inr ⟨hs, .inr rfl⟩
    · exact .inl (fieldWrite_respPort h)
    · cases h

/-- Where ALT5 ends, it answers 0, or 1 at once. -/
theorem execAlt5_completes {pin : BitVec 8} (h : execAlt5 pin s = .next t) (hi : t.seq = .idle) :
    t.respPort = some 0 ∨ s.seq = .idle ∧ t = s.answered 1 := by
  have access {m : Alt5Step} {s : State}
      (h : alt5Access pin m s (fun m s' => .next (s'.goto (.alt5 m))) (fun s' => .next (s'.respond 0)) = .next t) :
      t.respPort = some 0 := by
    obtain ⟨e, s', ⟨m, hm⟩ | hd, -, -⟩ := alt5Access_next h
    · cases hm; cases hi
    · cases hd; rfl
  simp only [execAlt5] at h
  split at h
  · next hs =>
    split at h
    · cases h; exact .inr ⟨hs, rfl⟩
    · exact .inl (access h)
  · exact .inl (access h)
  · cases h

/-- Where UINIT ends, it answers 0. -/
theorem execUinit_respPort (h : execUinit s = .next t) (hi : t.seq = .idle) : t.respPort = some 0 := by
  have access {todo : List InitStep} {m : Alt5Step} {s : State} (h : initAccess todo m s = .next t) :
      t.respPort = some 0 := by
    obtain ⟨s', -, ⟨rest, m', rfl⟩ | rfl⟩ := initAccess_next h
    · cases hi
    · rfl
  unfold execUinit at h
  split at h
  · split at h
    · exact (faultWith_ne_next _ _ _ h).elim
    · exact access h
  · exact access h
  · cases h

/-- URDY answers the ready bit. -/
theorem execUrdy_respPort (h : execUrdy s = .next t) : t.respPort = some 0 ∨ t.respPort = some 1 := by
  unfold execUrdy at h
  split at h
  · obtain ⟨lsr, s', hk, -, -⟩ := memRead_next h
    cases hk
    rw [State.respond_respPort, readyWord]
    split
    · exact .inr rfl
    · exact .inl rfl
  · cases h

/-- Where USEND ends, it answers 0. -/
theorem execUsend_respPort {b : Byte} (h : execUsend b s = .next t) (hi : t.seq = .idle) : t.respPort = some 0 := by
  unfold execUsend at h
  split at h
  · split at h
    · exact (faultWith_ne_next _ _ _ h).elim
    · exact absurd hi (pollTxReady_busy (by simp) (by simp) h)
  · exact absurd hi (pollTxReady_busy (by simp) (by simp) h)
  · obtain ⟨s', hk, -, -⟩ := memWrite_next h
    cases hk
    rfl
  · cases h

/-- Where UTEXT ends, it answers 0. -/
theorem execUtext_respPort {buf : Word} (h : execUtext buf s = .next t) (hi : t.seq = .idle) : t.respPort = some 0 := by
  have text {p : Word} {s : State} (h : textByte p s = .next t) : t.respPort = some 0 := by
    obtain ⟨b, s', -, -, rfl | rfl | rfl⟩ := textByte_next h
    · rfl
    · cases hi
    · cases hi
  have write {a v : Word} {q : Seq} (hq : q ≠ .idle) (h : memWrite a v s (fun s' => .next (s'.goto q)) = .next t) :
      t.respPort = some 0 := by
    obtain ⟨s', hk, -, -⟩ := memWrite_next h
    cases hk
    exact absurd hi hq
  unfold execUtext at h
  split at h
  · split at h
    · exact (faultWith_ne_next _ _ _ h).elim
    · exact text h
  · exact text h
  · exact absurd hi (pollTxReady_busy (by simp) (by simp) h)
  · exact write (by simp) h
  · exact absurd hi (pollTxReady_busy (by simp) (by simp) h)
  · exact write (by simp) h
  · cases h

/-- Settles O48: a command that ended put one response on the port; which words it can be is the meaning's own lemma. -/
theorem responsesOfEachCommand : Obligations.ResponsesOfEachCommand := by
  intro i s t hx hi
  obtain ⟨-, he⟩ := exec_next hx
  obtain ⟨v, hv⟩ := he.phase.resolve_right fun hf => seq_ne_idle_of_ownsSeq hf.seq hi
  have port {u : Word} (h : t.respPort = some u) : v = u := Option.some.inj (hv.respPort.symm.trans h)
  have okOrOne (h : t.respPort = some 0 ∨ s.seq = .idle ∧ t = s.answered 1) : v = 0 ∨ v = 1 :=
    h.imp port fun ⟨_, ht⟩ => port (ht ▸ rfl)
  refine ⟨v, hv.respPort, hv.responses, ?_⟩
  cases i with
  | setfield bank index value w maxidx =>
    obtain h | ⟨-, rfl | rfl⟩ := execSetfield_completes hx hi
    · exact .inl (port h)
    · exact .inr (.inl (port rfl))
    · exact .inr (.inr (port rfl))
  | fsel pin f => exact okOrOne (gpioField_completes hx hi)
  | sethigh pin => exact okOrOne (gpioField_completes hx hi)
  | setlow pin => exact okOrOne (gpioField_completes hx hi)
  | pull pin m => exact okOrOne (gpioField_completes hx hi)
  | alt5 pin => exact okOrOne (execAlt5_completes hx hi)
  | uinit => exact port (execUinit_respPort hx hi)
  | urdy => exact (execUrdy_respPort hx).imp port port
  | usend b => exact port (execUsend_respPort hx hi)
  | utext buf => exact port (execUtext_respPort hx hi)

/-! ## The GPIO commands as SETFIELD (O31) -/

/-- Every value of `w` bits fits a field of width `w`. -/
theorem setWidth_le_fieldMask (w : BitVec 2) (v : BitVec w.toNat) : v.setWidth 32 ≤ fieldMask w := by
  rw [BitVec.le_def, fieldMask_toNat, BitVec.toNat_setWidth]
  have := v.isLt
  exact (Nat.mod_le ..).trans (by omega)

/-- Which command is accepted shows in the latches alone, after the addressor's read too. -/
theorem fieldRead_accept_sansLatches (i i' : Instr) (bank index : Word) (w : BitVec 2) (s : State) :
    outSansLatches (fieldRead bank index w (s.accept i)) = outSansLatches (fieldRead bank index w (s.accept i')) := by
  have accepted (j : Instr) : (s.accept j).cfg.classOf (regAddr bank index w) = s.cfg.classOf (regAddr bank index w) := rfl
  unfold fieldRead
  cases hc : s.cfg.classOf (regAddr bank index w) with
  | none => simp only [memRead_unmapped, accepted, hc]; rfl
  | some c =>
    cases c with
    | storage => simp only [memRead_storage, accepted, hc]; rfl
    | setReg n => simp only [memRead_setReg ((accepted _).trans hc)]; rfl
    | clrReg n => simp only [memRead_clrReg ((accepted _).trans hc)]; rfl
    | status => simp only [memRead_status, accepted, hc]; rfl
    | iir => simp only [memRead_iir, accepted, hc]; rfl
    | txData => simp only [memRead_txData, accepted, hc]; rfl

/-- A GPIO command on a bank is SETFIELD with the pin as index and `MAX_PIN` as limit (30_encoding.md R81; 41_gpio.md R110). -/
theorem gpioField_eq_setfield (i : Instr) {bank value : Word} (pin : BitVec 8) {w : BitVec 2} (s : State)
    (hw : w ≠ 0) (hv : value ≤ fieldMask w) (hb : bank % 4 = 0) :
    outSansLatches (gpioField i bank pin value w s)
      = outSansLatches (exec (.setfield bank (pin.setWidth 32) value w s.cfg.maxPin) s) := by
  cases hs : s.seq with
  | idle =>
    by_cases hp : s.cfg.maxPin < pin.setWidth 32
    · have hr : validate bank (pin.setWidth 32) value w s.cfg.maxPin = .outOfRange := if_pos hp
      rw [gpioField_outOfRange hs hp, exec_setfield_fail hw hs hr (by simp)]
      rfl
    · have hp := BitVec.not_lt.mp hp
      rw [gpioField_start hs hp, exec_setfield_start hw hs (validate_eq_ok hp hv hb)]
      exact fieldRead_accept_sansLatches ..
  | fieldWrite cur => rw [gpioField_write hs, exec_setfield_write hw hs]
  | _ => simp only [gpioField, exec, execSetfield, hs, if_neg hw]

/-- Settles O31: each of the four commands is the shared operation on one bank with a value that fits its field. -/
theorem gpioCommandsAreSetfield : Obligations.GpioCommandsAreSetfield := by
  intro pin f m s hfsel hset hclr hpull
  refine ⟨?_, ?_, ?_, ?_⟩
  · exact gpioField_eq_setfield _ pin s (by decide) (setWidth_le_fieldMask 3 _) hfsel
  · exact gpioField_eq_setfield _ pin s (by decide) (by decide) hset
  · exact gpioField_eq_setfield _ pin s (by decide) (by decide) hclr
  · exact gpioField_eq_setfield _ pin s (by decide) (setWidth_le_fieldMask 2 _) hpull

/-! ## Parameters, reset and launch (O34, O54, O55) -/

/-- The register a pin's field lies in, by its number in the bank (40_addressor.md R93). -/
theorem regAddr_pin (bank : Word) (pin : BitVec 8) (w : BitVec 2) :
    regAddr bank (pin.setWidth 32) w = bank + BitVec.ofNat 32 (pin.toNat / (32 / w.toNat) * 4) := by
  rw [regAddr_eq, BitVec.toNat_setWidth_of_le (by decide)]

/-- GPFSEL0 to GPFSEL5 (10_state.md R27). -/
theorem default_gpfsel_storage :
    ∀ k < 6, Config.default.classOf (0xFE200000 + BitVec.ofNat 32 (k * 4)) = some .storage := by decide

/-- GPSET0 and GPSET1. -/
theorem default_gpset_setReg :
    ∀ k < 2, Config.default.classOf (0xFE20001C + BitVec.ofNat 32 (k * 4)) = some (.setReg k) := by decide

/-- GPCLR0 and GPCLR1. -/
theorem default_gpclr_clrReg :
    ∀ k < 2, Config.default.classOf (0xFE200028 + BitVec.ofNat 32 (k * 4)) = some (.clrReg k) := by decide

/-- GPPUPPDN0 to GPPUPPDN3. -/
theorem default_gppuppdn_storage :
    ∀ k < 4, Config.default.classOf (0xFE2000E4 + BitVec.ofNat 32 (k * 4)) = some .storage := by decide

/-- Settles O34: pins 0 to 57 lie in the 6, 2, 2 and 4 registers of the banks; the tables are looked up row by row. -/
theorem defaultParametersReachTheBanks : Obligations.DefaultParametersReachTheBanks := by
  refine ⟨fun pin hp => ?_, by decide⟩
  have hp : pin.toNat ≤ 57 := hp
  simp only [regAddr_pin]
  refine ⟨default_gpfsel_storage _ ?_, default_gpset_setReg _ ?_, default_gpclr_clrReg _ ?_,
    default_gppuppdn_storage _ ?_⟩
  · show pin.toNat / 10 < 6; omega
  · show pin.toNat / 32 < 2; omega
  · show pin.toNat / 32 < 2; omega
  · show pin.toNat / 16 < 4; omega

/-- Settles O54, clause by clause of a launch. -/
theorem resetIsALaunchState : Obligations.ResetIsALaunchState where
  left :=
    { cfg_wf := by decide
      latches_empty := rfl
      seq_idle := rfl
      uart_uninitialized := rfl
      tx_empty := rfl
      hist_empty := rfl
      no_fault := rfl
      not_refused := rfl
      no_response := ⟨rfl, rfl⟩
      cells_wf := Cells.nil_wf
      cells_storage := by simp [State.reset]
      bufmem_wf := Memory.nil_wf
      bufmem_apart := by simp [State.reset]
      out_in_range := BitVec.zero_and }
  right := ⟨fun _ => rfl, fun _ => BitVec.getLsbD_zero⟩

/-- Settles O55: a launch has an idle unit, and an empty stream and history agree. -/
theorem launchStatesMeetTheInvariant : Obligations.LaunchStatesMeetTheInvariant := by
  intro s h
  obtain ⟨no_port, no_responses⟩ := h.no_response
  exact
    { cells_wf := h.cells_wf
      cells_storage := h.cells_storage
      bufmem_wf := h.bufmem_wf
      bufmem_apart := h.bufmem_apart
      out_in_range := h.out_in_range
      in_step := .inl ⟨h.seq_idle, h.latches_empty, by rw [no_port, no_responses]; rfl⟩
      tx_history := by rw [h.tx_empty, h.hist_empty]; rfl }

end Sys2Proof.Machine

/-! # The bus primitives: what a stop keeps and what a repeated write adds (20_memory.md) -/

namespace Sys2Proof.Machine

section
variable {s : State} {a v : Word} {j : State → Out} {n : Nat}

/-! ## A write performed twice (20_memory.md R56) -/

/-- The second write finds the cell as the first left it. -/
theorem memWrite_twice_storage (hw : s.cells.wf = true) (h : s.cfg.classOf a = some .storage) :
    memWrite a v s (fun u => memWrite a v u j)
      = j { s with cells := s.cells.write a v, hist := s.hist ++ [.write a v, .write a v] } := by
  rw [memWrite_storage h, memWrite_storage (by exact h)]
  simp [State.record, Cells.write_write hw]

/-- Setting latches is idempotent: `x ||| p ||| p = x ||| p`. -/
theorem memWrite_twice_setReg (h : s.cfg.classOf a = some (.setReg n)) :
    memWrite a v s (fun u => memWrite a v u j)
      = j { s with out := s.out ||| actedPins s.cfg.maxPin n v, hist := s.hist ++ [.write a v, .write a v] } := by
  rw [memWrite_setReg h, memWrite_setReg (by exact h)]
  simp [State.record, BitVec.or_assoc]

/-- Clearing latches is idempotent: `x &&& m &&& m = x &&& m`. -/
theorem memWrite_twice_clrReg (h : s.cfg.classOf a = some (.clrReg n)) :
    memWrite a v s (fun u => memWrite a v u j)
      = j { s with
          out := s.out &&& ~~~actedPins s.cfg.maxPin n v
          hist := s.hist ++ [.write a v, .write a v] } := by
  rw [memWrite_clrReg h, memWrite_clrReg (by exact h)]
  simp [State.record, BitVec.and_assoc]

/-- Transmitting is not idempotent: each write appends its byte. -/
theorem memWrite_twice_txData (h : s.cfg.classOf a = some .txData) :
    memWrite a v s (fun u => memWrite a v u j)
      = j { s with
          tx := s.tx ++ [v.setWidth 8, v.setWidth 8]
          hist := s.hist ++ [.write a v, .write a v] } := by
  rw [memWrite_txData h, memWrite_txData (by exact h)]
  simp [State.record]

end

/-- Settles O13, class by class. -/
theorem repeatedWrites : Obligations.RepeatedWrites := by
  intro s a v j hw
  exact ⟨memWrite_twice_storage hw, fun _ => memWrite_twice_setReg, fun _ => memWrite_twice_clrReg,
    memWrite_twice_txData⟩

/-! ## Unmapped accesses and unreadable bytes (20_memory.md R57, R58) -/

/-- Only a byte of buffer memory is readable. -/
theorem State.readable_of_bufmem_none {s : State} {a : Word} (h : s.bufmem.read a = none) : s.readable a = none := by
  unfold State.readable
  split
  · rfl
  · exact h

/-- Settles O12: each primitive faults in the state it was given. -/
theorem unmappedAccessFaultsUnrecorded : Obligations.UnmappedAccessFaultsUnrecorded := by
  intro s a v k j q
  refine ⟨fun hc => ⟨?_, ?_⟩, fun hb => ?_⟩
  · rw [memRead_unmapped hc, faultWith]
  · rw [memWrite_unmapped hc, faultWith]
  · rw [byteRead_unreadable (State.readable_of_bufmem_none hb), faultWith]

/-! ## Where SETFIELD stops (20_memory.md R53, R57; 40_addressor.md R95) -/

section
variable {s : State} {bank index value cur : Word} {w : BitVec 2}

theorem fieldRead_unmapped (h : s.cfg.classOf (regAddr bank index w) = none) :
    fieldRead bank index w s = faultWith (.unmapped (regAddr bank index w)) s :=
  memRead_unmapped h

theorem fieldRead_writeOnly
    (h : s.cfg.classOf (regAddr bank index w) = some .txData ∨ s.cfg.classOf (regAddr bank index w) = some .iir) :
    fieldRead bank index w s = refuseWith (.readOfWriteOnlyAux (regAddr bank index w)) s :=
  h.elim memRead_txData memRead_iir

theorem fieldRead_status (h : s.cfg.classOf (regAddr bank index w) = some .status) :
    fieldRead bank index w s
      = .next (((s.afterDraws 1).record (.read (regAddr bank index w) (s.futureDraw 0))).goto
          (.fieldWrite (s.futureDraw 0))) :=
  memRead_status h

theorem fieldWrite_status (h : s.cfg.classOf (regAddr bank index w) = some .status) :
    fieldWrite bank index value w cur s = refuseWith (.writeOfStatus (regAddr bank index w)) s :=
  memWrite_status h

end

/-- SETFIELD's word 0 at the ill-formed width is its bare opcode, whatever its operand words. -/
theorem exec_setfield_width_zero (bank index value maxidx : Word) (s : State) :
    exec (.setfield bank index value 0 maxidx) s = refuseWith (.illegalCommand 0x00000001) s := rfl

/-- Settles O22: the read stops where the address is unmapped or write-only; at a status register the read goes through and the
write stops. -/
theorem setfieldStops : Obligations.SetfieldStops := by
  intro bank index value w maxidx s i a s0
  refine ⟨?_, fun hw hs hi hv hb => ?_⟩
  · rintro rfl
    exact exec_setfield_width_zero bank index value maxidx s
  · have start : exec i s = fieldRead bank index w s0 := exec_setfield_start hw hs (validate_eq_ok hi hv hb)
    refine ⟨fun hc => ?_, fun hc => ?_, fun hc => ?_⟩
    · exact start.trans (fieldRead_unmapped hc)
    · exact start.trans (fieldRead_writeOnly hc)
    · exact ⟨_, start.trans (fieldRead_status hc), rfl,
        (exec_setfield_write hw rfl).trans (fieldWrite_status hc)⟩

end Sys2Proof.Machine

/-! # The command encoding: a round trip both ways, and the words that are refused (30_encoding.md) -/

namespace Sys2Proof

section
variable (v : BitVec 3) (p : BitVec 8) (o : BitVec 4) (w0 : Word)

/-! ## The fields of a command word (R71, R79) -/

@[simp] theorem fieldOpc_commandWord : fieldOpc (commandWord v p o) = o :=
  Laws.Opcode.of_commandWord v p o

@[simp] theorem fieldPin_commandWord : fieldPin (commandWord v p o) = p := by
  ext j hj
  have ho : o.getLsbD (8 + j) = false := BitVec.getLsbD_of_ge _ _ (by omega)
  simp only [fieldPin, commandWord, BitVec.getElem_extractLsb', BitVec.getLsbD_or, BitVec.getLsbD_shiftLeft]
  simp [show 8 + j < 16 by omega, show 8 + j < 32 by omega, show j < 32 by omega, BitVec.getLsbD_eq_getElem hj, ho]

/-- `BYTE` and `PIN` are the same bits. -/
@[simp] theorem fieldByte_commandWord : fieldByte (commandWord v p o) = p :=
  fieldPin_commandWord v p o

@[simp] theorem fieldVal_commandWord : fieldVal (commandWord v p o) = v := by
  ext j hj
  have hp : p.getLsbD (16 + j - 8) = false := BitVec.getLsbD_of_ge _ _ (by omega)
  have ho : o.getLsbD (16 + j) = false := BitVec.getLsbD_of_ge _ _ (by omega)
  simp only [fieldVal, commandWord, BitVec.getElem_extractLsb', BitVec.getLsbD_or, BitVec.getLsbD_shiftLeft]
  simp [show 16 + j < 32 by omega, show j < 32 by omega, BitVec.getLsbD_eq_getElem hj, hp, ho]

/-- `W` is the two low bits of `VAL`. -/
theorem fieldW_eq_setWidth_fieldVal : fieldW w0 = (fieldVal w0).setWidth 2 := by
  ext j hj
  simp [fieldW, fieldVal, show j < 3 by omega]

@[simp] theorem fieldW_commandWord : fieldW (commandWord v p o) = v.setWidth 2 := by
  rw [fieldW_eq_setWidth_fieldVal, fieldVal_commandWord]

/-- A field put back in its place is the word under the field's mask. -/
theorem extractLsb'_shiftLeft (s n : Nat) :
    (w0.extractLsb' s n).setWidth 32 <<< s = w0 &&& (BitVec.allOnes n).setWidth 32 <<< s := by
  ext j hj
  by_cases h : j < s
  · simp [h]
  · simp [h, show s + (j - s) = j by omega, BitVec.getLsbD_eq_getElem hj, Bool.and_comm]

theorem setWidth_fieldOpc : (fieldOpc w0).setWidth 32 = w0 &&& 0x0000000F :=
  (BitVec.shiftLeft_zero _).symm.trans (extractLsb'_shiftLeft w0 0 4)

/-- The command word of a word's fields is the word under the three fields' mask. -/
theorem commandWord_fields : commandWord (fieldVal w0) (fieldPin w0) (fieldOpc w0) = w0 &&& 0x0007FF0F := by
  have hv : (fieldVal w0).setWidth 32 <<< 16 = w0 &&& 0x00070000 := extractLsb'_shiftLeft w0 16 3
  have hp : (fieldPin w0).setWidth 32 <<< 8 = w0 &&& 0x0000FF00 := extractLsb'_shiftLeft w0 8 8
  rw [commandWord, hv, hp, setWidth_fieldOpc, ← BitVec.and_or_distrib_left, ← BitVec.and_or_distrib_left]
  rfl

end

theorem fieldOpc_and (a b : Word) : fieldOpc (a &&& b) = fieldOpc a &&& fieldOpc b := BitVec.extractLsb'_and
theorem fieldPin_and (a b : Word) : fieldPin (a &&& b) = fieldPin a &&& fieldPin b := BitVec.extractLsb'_and
theorem fieldVal_and (a b : Word) : fieldVal (a &&& b) = fieldVal a &&& fieldVal b := BitVec.extractLsb'_and

/-- Masking a command word masks its fields. -/
theorem commandWord_and (v : BitVec 3) (p : BitVec 8) (o : BitVec 4) (m : Word) :
    commandWord v p o &&& m = commandWord (v &&& fieldVal m) (p &&& fieldPin m) (o &&& fieldOpc m) := by
  have h := commandWord_fields (commandWord v p o &&& m)
  have hc := commandWord_fields (commandWord v p o)
  simp only [fieldVal_and, fieldPin_and, fieldOpc_and, fieldVal_commandWord, fieldPin_commandWord,
    fieldOpc_commandWord] at h hc
  rw [h, BitVec.and_assoc, BitVec.and_comm m, ← BitVec.and_assoc, ← hc]

/-! ## The named operands (10_state.md R31, R33) -/

@[simp] theorem GpioFunction.ofOrdinal_ordinal (f : GpioFunction) : ofOrdinal f.ordinal = f := by
  cases f <;> rfl

@[simp] theorem GpioFunction.ordinal_ofOrdinal (v : BitVec 3) : (ofOrdinal v).ordinal = v := by
  revert v
  decide

theorem PullMode.ofOrdinal?_eq_some_iff (v : BitVec 3) (m : PullMode) : ofOrdinal? v = some m ↔ m.ordinal = v := by
  cases m <;> revert v <;> decide

theorem PullMode.ofOrdinal?_eq_none_iff (v : BitVec 3) : ofOrdinal? v = Option.none ↔ 3#3 ≤ v := by
  revert v
  decide

/-! ## Which row a word selects (R75) -/

/-- The opcode of an operation (R75). -/
def Operation.opc : Operation → BitVec 4
  | .setfield => 0x1
  | .fsel => 0x2
  | .sethigh => 0x3
  | .setlow => 0x4
  | .pull => 0x5
  | .alt5 => 0x6
  | .uinit => 0x7
  | .urdy => 0x8
  | .usend => 0x9
  | .utext => 0xA

/-- Each row's mask is `OPC` and R71's must-be-zero bits, its pattern the opcode. -/
theorem opcodeTable_row : ∀ r ∈ opcodeTable,
    r.mask = mustBeZero r.op.opc ||| 0x0000000F ∧ r.pattern = r.op.opc.setWidth 32 := by decide

/-- Rows with one opcode are rows of one operation. -/
theorem opcodeTable_opc : ∀ r ∈ opcodeTable, ∀ q ∈ opcodeTable, r.op.opc = q.op.opc → r.op = q.op := by decide

/-- Each operation has a row. -/
theorem Operation.exists_row (op : Operation) : ∃ r ∈ opcodeTable, r.op = op := by
  cases op <;> decide

variable {w0 : Word} {o : BitVec 4} {op : Operation} {ws rest : List Word} {i : Instr}

/-- A word agrees with a row when its opcode does and its must-be-zero bits are 0. -/
theorem and_mask_eq_iff :
    w0 &&& (mustBeZero o ||| 0x0000000F) = o.setWidth 32 ↔ fieldOpc w0 = o ∧ w0 &&& mustBeZero o = 0 := by
  constructor
  · intro h
    have opcMask : ∀ o, fieldOpc (mustBeZero o ||| 0x0000000F) = BitVec.allOnes 4 := by decide
    have opcPattern : ∀ o : BitVec 4, fieldOpc (o.setWidth 32) = o := by decide
    have zeroMask : ∀ o, (mustBeZero o ||| 0x0000000F) &&& mustBeZero o = mustBeZero o := by decide
    have zeroPattern : ∀ o : BitVec 4, o.setWidth 32 &&& mustBeZero o = 0 := by decide
    constructor
    · rw [← opcPattern o, ← h, fieldOpc_and, opcMask, BitVec.and_allOnes]
    · rw [← zeroMask, ← BitVec.and_assoc, h, zeroPattern]
  · rintro ⟨rfl, hz⟩
    rw [BitVec.and_or_distrib_left, hz, setWidth_fieldOpc]
    exact BitVec.zero_or

theorem OpcodeRow.selects_iff {r : OpcodeRow} (hr : r ∈ opcodeTable) :
    r.selects w0 = true ↔ fieldOpc w0 = r.op.opc ∧ w0 &&& mustBeZero r.op.opc = 0 := by
  obtain ⟨hm, hp⟩ := opcodeTable_row r hr
  rw [OpcodeRow.selects, beq_iff_eq, hm, hp, and_mask_eq_iff]

theorem selectedRow_some {r : OpcodeRow} (h : selectedRow w0 = some r) :
    fieldOpc w0 = r.op.opc ∧ w0 &&& mustBeZero r.op.opc = 0 :=
  (OpcodeRow.selects_iff (List.mem_of_find?_eq_some h)).mp (List.find?_some (p := (OpcodeRow.selects · w0)) h)

/-- The opcode alone picks the row, once the must-be-zero bits are 0. -/
theorem exists_selectedRow (ho : fieldOpc w0 = op.opc) (hz : w0 &&& mustBeZero op.opc = 0) :
    ∃ r, selectedRow w0 = some r ∧ r.op = op := by
  obtain ⟨q, hq, rfl⟩ := op.exists_row
  have found : (selectedRow w0).isSome := List.find?_isSome.mpr ⟨q, hq, (OpcodeRow.selects_iff hq).mpr ⟨ho, hz⟩⟩
  obtain ⟨r, hr⟩ := Option.isSome_iff_exists.mp found
  exact ⟨r, hr, opcodeTable_opc r (List.mem_of_find?_eq_some hr) q hq ((selectedRow_some hr).1.symm.trans ho)⟩

/-- An opcode is reserved or some operation's. -/
theorem reserved_or_opc (o : BitVec 4) : (o = 0 ∨ 0xB#4 ≤ o) ∨ ∃ op : Operation, op.opc = o := by
  have rows : ∀ o : BitVec 4, (o = 0 ∨ 0xB#4 ≤ o) ∨ ∃ r ∈ opcodeTable, r.op.opc = o := by decide
  exact (rows o).imp_right fun ⟨r, _, h⟩ => ⟨r.op, h⟩

theorem Operation.opc_not_reserved (op : Operation) : ¬ (op.opc = 0 ∨ 0xB#4 ≤ op.opc) := by
  cases op <;> decide

/-- No row is selected exactly at a reserved opcode or at a 1 in a must-be-zero bit (R77 items 1 and 2). -/
theorem selectedRow_eq_none_iff :
    selectedRow w0 = none
      ↔ (fieldOpc w0 = 0 ∨ 0xB#4 ≤ fieldOpc w0) ∨ w0 &&& mustBeZero (fieldOpc w0) ≠ 0 := by
  constructor
  · intro hn
    refine (reserved_or_opc (fieldOpc w0)).imp_right fun ⟨op, ho⟩ hz => ?_
    obtain ⟨r, hr, -⟩ := exists_selectedRow ho.symm (ho ▸ hz)
    rw [hn] at hr
    cases hr
  · intro h
    cases hr : selectedRow w0 with
    | none => rfl
    | some r =>
      obtain ⟨ho, hz⟩ := selectedRow_some hr
      rw [ho] at h
      exact (h.elim r.op.opc_not_reserved (· hz)).elim

/-- The operation with the word's opcode reads the operands. -/
theorem decode_of_opc (ho : fieldOpc w0 = op.opc) (hz : w0 &&& mustBeZero op.opc = 0) :
    decode (w0 :: ws) = decodeOperands op w0 ws := by
  obtain ⟨r, hr, rfl⟩ := exists_selectedRow ho hz
  rw [decode, hr]

/-- The bits of `VAL` an operation leaves 0: all but FSEL's and PULL's `VAL` and SETFIELD's `W`. -/
theorem fieldVal_mustBeZero :
    ∀ o, fieldVal (mustBeZero o) = if o = 0x1 then 0b100 else if o = 0x2 ∨ o = 0x5 then 0 else 0b111 := by decide

/-- The bits of `PIN` an operation leaves 0: all for SETFIELD, UINIT, URDY and UTEXT. -/
theorem fieldPin_mustBeZero :
    ∀ o, fieldPin (mustBeZero o) = if o = 0x1 ∨ o = 0x7 ∨ o = 0x8 ∨ o = 0xA then 0xFF else 0 := by decide

/-- A word with an opcode and no 1 in its must-be-zero bits is the command word of fields that leave those bits 0. -/
theorem eq_commandWord_iff :
    (fieldOpc w0 = o ∧ w0 &&& mustBeZero o = 0)
      ↔ ∃ v p, w0 = commandWord v p o
          ∧ v &&& fieldVal (mustBeZero o) = 0 ∧ p &&& fieldPin (mustBeZero o) = 0 := by
  constructor
  · rintro ⟨rfl, hz⟩
    have hm : ∀ o, 0xFFF800F0 = mustBeZero o &&& 0xFFF800F0 := by decide
    have outside : w0 &&& 0xFFF800F0 = 0 := by
      rw [hm, ← BitVec.and_assoc, hz]
      exact BitVec.zero_and
    refine ⟨fieldVal w0, fieldPin w0, ?_, ?_, ?_⟩
    · calc w0 = w0 &&& (0x0007FF0F ||| 0xFFF800F0) := BitVec.and_allOnes.symm
        _ = w0 &&& 0x0007FF0F ||| w0 &&& 0xFFF800F0 := BitVec.and_or_distrib_left
        _ = w0 &&& 0x0007FF0F := by rw [outside]; exact BitVec.or_zero
        _ = _ := (commandWord_fields w0).symm
    · rw [← fieldVal_and, hz]; rfl
    · rw [← fieldPin_and, hz]; rfl
  · rintro ⟨v, p, rfl, hv, hp⟩
    have ho : ∀ o : BitVec 4, o &&& fieldOpc (mustBeZero o) = 0 := by decide
    refine ⟨fieldOpc_commandWord v p o, ?_⟩
    rw [commandWord_and, hv, hp, ho]
    rfl

/-! ## The round trip (O1, O2) -/

/-- The operation of a command. -/
def Instr.operation : Instr → Operation
  | .setfield _ _ _ _ _ => .setfield
  | .fsel _ _ => .fsel
  | .sethigh _ => .sethigh
  | .setlow _ => .setlow
  | .pull _ _ => .pull
  | .alt5 _ => .alt5
  | .uinit => .uinit
  | .urdy => .urdy
  | .usend _ => .usend
  | .utext _ => .utext

/-- Word 0 of a command has its opcode and only its operands' bits. -/
theorem Instr.word0_fields (i : Instr) :
    fieldOpc i.word0 = i.operation.opc ∧ i.word0 &&& mustBeZero i.operation.opc = 0 := by
  rw [eq_commandWord_iff]
  simp only [fieldVal_mustBeZero, fieldPin_mustBeZero]
  cases i with
  | setfield bank index value w maxidx =>
    have hw : ∀ w : BitVec 2, w.setWidth 3 &&& 0b100#3 = 0 := by decide
    exact ⟨_, _, rfl, hw w, BitVec.zero_and⟩
  | fsel pin f => exact ⟨_, _, rfl, BitVec.and_zero, BitVec.and_zero⟩
  | pull pin m => exact ⟨_, _, rfl, BitVec.and_zero, BitVec.and_zero⟩
  | sethigh pin => exact ⟨_, _, rfl, BitVec.zero_and, BitVec.and_zero⟩
  | setlow pin => exact ⟨_, _, rfl, BitVec.zero_and, BitVec.and_zero⟩
  | alt5 pin => exact ⟨_, _, rfl, BitVec.zero_and, BitVec.and_zero⟩
  | usend b => exact ⟨_, _, rfl, BitVec.zero_and, BitVec.and_zero⟩
  | uinit => exact ⟨_, _, rfl, BitVec.zero_and, BitVec.zero_and⟩
  | urdy => exact ⟨_, _, rfl, BitVec.zero_and, BitVec.zero_and⟩
  | utext buf => exact ⟨_, _, rfl, BitVec.zero_and, BitVec.zero_and⟩

/-- The operands are read back from the words of a command. -/
theorem decodeOperands_word0 (hi : i.wf = true) :
    decodeOperands i.operation i.word0 (i.operandWords ++ rest) = .command i rest := by
  cases i with
  | setfield bank index value w maxidx =>
    have hw : w ≠ 0 := bne_iff_ne.mp hi
    have hf : fieldW (Instr.setfield bank index value w maxidx).word0 = w := by
      simp [Instr.word0]
    simp only [decodeOperands, Instr.operation, Instr.operandWords, hf, if_neg hw]
    rfl
  | pull pin m =>
    have hm : PullMode.ofOrdinal? m.ordinal = some m := (PullMode.ofOrdinal?_eq_some_iff ..).mpr rfl
    simp [decodeOperands, Instr.operation, Instr.operandWords, Instr.word0, hm]
  | _ => simp [decodeOperands, Instr.operation, Instr.operandWords, Instr.word0]

/-- Settles O1: word 0 selects the command's row, and the row's operands are read back. -/
theorem decodeOfEncode : Obligations.DecodeOfEncode := by
  intro i rest hi
  obtain ⟨ho, hz⟩ := i.word0_fields
  exact (decode_of_opc ho hz).trans (decodeOperands_word0 hi)

/-- The command read at a selected row is well-formed and has the words read. -/
theorem encode_of_decodeOperands {v : BitVec 3} {p : BitVec 8} (hv : v &&& fieldVal (mustBeZero op.opc) = 0)
    (hp : p &&& fieldPin (mustBeZero op.opc) = 0)
    (h : decodeOperands op (commandWord v p op.opc) ws = .command i rest) :
    i.wf = true ∧ commandWord v p op.opc :: ws = encode i ++ rest := by
  have val (hm : fieldVal (mustBeZero op.opc) = BitVec.allOnes 3) : v = 0 := by
    rwa [hm, BitVec.and_allOnes] at hv
  have pin (hm : fieldPin (mustBeZero op.opc) = BitVec.allOnes 8) : p = 0 := by
    rwa [hm, BitVec.and_allOnes] at hp
  cases op <;> simp only [decodeOperands, fieldPin_commandWord, fieldByte_commandWord, fieldVal_commandWord,
    fieldW_commandWord] at h
  case setfield =>
    have hw : ∀ v : BitVec 3, v &&& fieldVal (mustBeZero 0x1) = 0 → (v.setWidth 2).setWidth 3 = v := by decide
    split at h
    · cases h
    · next h0 =>
      split at h
      · cases h
        refine ⟨bne_iff_ne.mpr h0, ?_⟩
        rw [pin rfl, encode, Instr.word0, hw v hv]
        rfl
      · cases h
  case fsel =>
    cases h
    exact ⟨rfl, by rw [encode, Instr.word0, GpioFunction.ordinal_ofOrdinal]; rfl⟩
  case pull =>
    split at h
    · next m hm =>
      cases h
      obtain rfl := (PullMode.ofOrdinal?_eq_some_iff ..).mp hm
      exact ⟨rfl, rfl⟩
    · cases h
  case utext =>
    obtain rfl := val rfl
    obtain rfl := pin rfl
    split at h
    · cases h; exact ⟨rfl, rfl⟩
    · cases h
  case uinit | urdy =>
    obtain rfl := val rfl
    obtain rfl := pin rfl
    cases h
    exact ⟨rfl, rfl⟩
  case sethigh | setlow | alt5 | usend =>
    obtain rfl := val rfl
    cases h
    exact ⟨rfl, rfl⟩

/-- Settles O2: the selected row fixes every bit of word 0 that no operand holds. -/
theorem encodeOfDecode : Obligations.EncodeOfDecode := by
  intro ws rest i h
  cases ws with
  | nil => cases h
  | cons w0 ws =>
    simp only [decode] at h
    split at h
    · next r hr =>
      obtain ⟨v, p, rfl, hv, hp⟩ := eq_commandWord_iff.mp (selectedRow_some hr)
      exact encode_of_decodeOperands hv hp h
    · cases h

/-! ## The length of a command (O4) -/

/-- Settles O4: the words a command took are its encoding, whose length goes with its opcode. -/
theorem commandLengthIsGivenByOpcode : Obligations.CommandLengthIsGivenByOpcode := by
  intro w0 ws rest i h
  obtain ⟨-, hw⟩ := encodeOfDecode _ _ _ h
  obtain ⟨rfl, rfl⟩ := List.cons.inj hw
  have ho : i.word0.extractLsb' 0 4 = i.operation.opc := i.word0_fields.1
  rw [ho]
  cases i <;> simp +arith [Instr.operation, Operation.opc, Instr.operandWords]

/-! ## The refused words (O3, O5, O8) -/

/-- The four items of R77. -/
def IsRefusedWord (w0 : Word) : Prop :=
  (fieldOpc w0 = 0 ∨ 0xB#4 ≤ fieldOpc w0)
    ∨ w0 &&& mustBeZero (fieldOpc w0) ≠ 0
    ∨ (fieldOpc w0 = 0x1 ∧ fieldW w0 = 0)
    ∨ (fieldOpc w0 = 0x5 ∧ 3#3 ≤ fieldVal w0)

/-- A selected row's operands are refused for items 3 and 4 alone. -/
theorem decodeOperands_illegal_iff {x : Word} :
    (∃ why, decodeOperands op w0 ws = .illegal x why)
      ↔ x = w0 ∧ ((op.opc = 0x1 ∧ fieldW w0 = 0) ∨ (op.opc = 0x5 ∧ 3#3 ≤ fieldVal w0)) := by
  cases op with
  | setfield =>
    by_cases hw : fieldW w0 = 0
    · simp [decodeOperands, Operation.opc, hw, eq_comm]
    · simp only [decodeOperands, Operation.opc, if_neg hw]
      split <;> simpa using fun _ => hw
  | pull =>
    rw [← PullMode.ofOrdinal?_eq_none_iff]
    cases hm : PullMode.ofOrdinal? (fieldVal w0) <;> simp [decodeOperands, Operation.opc, hm, eq_comm]
  | utext => cases ws <;> simp [decodeOperands, Operation.opc]
  | _ => simp [decodeOperands, Operation.opc]

/-- A word is refused by name exactly for an item of R77, whatever follows it. -/
theorem decode_illegal_iff {x : Word} :
    (∃ why, decode (w0 :: ws) = .illegal x why) ↔ x = w0 ∧ IsRefusedWord w0 := by
  cases hr : selectedRow w0 with
  | none =>
    have refused : IsRefusedWord w0 := (selectedRow_eq_none_iff.mp hr).imp_right .inl
    rw [decode, hr]
    simp only [refused, and_true]
    exact ⟨fun ⟨_, h⟩ => (Decoded.illegal.inj h).1.symm, fun h => ⟨_, by rw [h]⟩⟩
  | some r =>
    obtain ⟨ho, hz⟩ := selectedRow_some hr
    rw [decode_of_opc ho hz, decodeOperands_illegal_iff, IsRefusedWord, ho]
    simp only [r.op.opc_not_reserved, hz, ne_eq, not_true_eq_false, false_or]

/-- Settles O3: the refused words are the same whatever follows them, and the reason names the word. -/
theorem illegalWordsAreThoseOfR77 : Obligations.IllegalWordsAreThoseOfR77 := by
  intro w0 ws
  refine ⟨⟨fun ⟨x, h⟩ => (decode_illegal_iff.mp h).2, fun h => ⟨w0, decode_illegal_iff.mpr ⟨rfl, h⟩⟩⟩, ?_⟩
  exact fun x why h => (decode_illegal_iff.mp ⟨why, h⟩).1

/-- Settles O5: the words of the legal examples are the encodings of their commands; the other three are refused. -/
theorem encodingExamplesDecode : Obligations.EncodingExamplesDecode := by
  have legal (i : Instr) (hi : i.wf = true) : decode (encode i ++ []) = .command i [] := decodeOfEncode i [] hi
  exact ⟨legal (.fsel 14 .alt5) rfl, legal (.fsel 21 .output) rfl, legal (.sethigh 21) rfl, legal (.setlow 21) rfl,
    legal (.pull 14 .none) rfl, legal (.pull 14 .pullDown) rfl, legal (.alt5 15) rfl, legal .uinit rfl, legal .urdy rfl,
    legal (.usend 0x61) rfl, legal (.utext 0x00080000) rfl, legal (.setfield 0xFE200000 14 2 3 57) rfl,
    by decide, by decide, by decide⟩

end Sys2Proof

namespace Sys2Proof.Machine

/-- Settles O8: an unmarked idle unit steps by what it fetches, and the refusal keeps the state but for the mark. -/
theorem stepRefusesIllegalCommand : Obligations.StepRefusesIllegalCommand := by
  intro s w0 why hm hs hd
  rw [step_idle hm hs, stepIdle, State.fetch, hd]
  rfl

/-! ## ALT5 as PULL and FSEL (O32; R81, R122) -/

/-- The device, the command port and the history of `s`, with the sequencer, the latches and the responses of `c`. -/
def State.withUnit (s c : State) : State :=
  { s with latches := c.latches, seq := c.seq, respPort := c.respPort, responses := c.responses }

/-- In the device of `s`, whatever the unit is doing, a read of `a` returns `v` and leaves the device of `t`. -/
structure Reads (s : State) (a v : Word) (t : State) : Prop where
  cfg : t.cfg = s.cfg
  read (c : State) (k : Word → State → Out) : memRead a (s.withUnit c) k = k v (t.withUnit c)

/-- In the device of `s`, whatever the unit is doing, a write of `v` to `a` leaves the device of `t`. -/
structure Writes (s : State) (a v : Word) (t : State) : Prop where
  cfg : t.cfg = s.cfg
  write (c : State) (j : State → Out) : memWrite a v (s.withUnit c) j = j (t.withUnit c)

section
variable {s t : State} {a v : Word} {i : Instr} {n : Nat}

/-- A read on the way to a next state does not depend on what the unit is doing. -/
theorem exists_reads {k : Word → State → Out} (h : memRead a s k = .next t) :
    ∃ v s', Reads s a v s' ∧ k v s' = .next t := by
  cases hc : s.cfg.classOf a with
  | none => rw [memRead_unmapped hc] at h; exact (faultWith_ne_next _ _ _ h).elim
  | some cl =>
    cases cl with
    | storage =>
      rw [memRead_storage hc] at h
      refine ⟨_, _, ?_, h⟩
      exact ⟨rfl, fun c _ => memRead_storage (s := s.withUnit c) hc⟩
    | setReg n =>
      rw [memRead_setReg hc] at h
      refine ⟨_, _, ?_, h⟩
      exact ⟨rfl, fun c _ => memRead_setReg (s := s.withUnit c) hc⟩
    | clrReg n =>
      rw [memRead_clrReg hc] at h
      refine ⟨_, _, ?_, h⟩
      exact ⟨rfl, fun c _ => memRead_clrReg (s := s.withUnit c) hc⟩
    | status =>
      rw [memRead_status hc] at h
      refine ⟨_, _, ?_, h⟩
      exact ⟨rfl, fun c _ => memRead_status (s := s.withUnit c) hc⟩
    | iir => rw [memRead_iir hc] at h; exact (refuseWith_ne_next _ _ _ h).elim
    | txData => rw [memRead_txData hc] at h; exact (refuseWith_ne_next _ _ _ h).elim

/-- A write on the way to a next state does not depend on what the unit is doing. -/
theorem exists_writes {j : State → Out} (h : memWrite a v s j = .next t) :
    ∃ s', Writes s a v s' ∧ j s' = .next t := by
  cases hc : s.cfg.classOf a with
  | none => rw [memWrite_unmapped hc] at h; exact (faultWith_ne_next _ _ _ h).elim
  | some cl =>
    cases cl with
    | storage =>
      rw [memWrite_storage hc] at h
      refine ⟨_, ?_, h⟩
      exact ⟨rfl, fun c _ => memWrite_storage (s := s.withUnit c) hc⟩
    | setReg n =>
      rw [memWrite_setReg hc] at h
      refine ⟨_, ?_, h⟩
      exact ⟨rfl, fun c _ => memWrite_setReg (s := s.withUnit c) hc⟩
    | clrReg n =>
      rw [memWrite_clrReg hc] at h
      refine ⟨_, ?_, h⟩
      exact ⟨rfl, fun c _ => memWrite_clrReg (s := s.withUnit c) hc⟩
    | txData =>
      rw [memWrite_txData hc] at h
      refine ⟨_, ?_, h⟩
      exact ⟨rfl, fun c _ => memWrite_txData (s := s.withUnit c) hc⟩
    | iir =>
      rw [memWrite_iir hc] at h
      refine ⟨_, ?_, h⟩
      exact ⟨rfl, fun c _ => memWrite_iir (s := s.withUnit c) hc⟩
    | status => rw [memWrite_status hc] at h; exact (refuseWith_ne_next _ _ _ h).elim

/-- The first of the micro-steps of a command that goes through. -/
theorem exec_of_execFor_succ (h : execFor i (n + 1) s = .next t) :
    ∃ s', exec i s = .next s' ∧ execFor i n s' = .next t := by
  rw [execFor] at h
  cases he : exec i s with
  | next s' => rw [he] at h; exact ⟨s', rfl, h⟩
  | fault r => rw [he] at h; cases h
  | refused r => rw [he] at h; cases h

/-- A command on one bank that goes through has read its register and written it back (41_gpio.md R110). -/
theorem gpioField_accesses {bank value : Config → Word} {pin : BitVec 8} {w : BitVec 2}
    (hx : ∀ s, exec i s = gpioField i (bank s.cfg) pin (value s.cfg) w s) (hs : s.seq = .idle)
    (hp : pin.setWidth 32 ≤ s.cfg.maxPin) (h : execFor i 2 s = .next t) :
    ∃ cur d e, Reads s (regAddr (bank s.cfg) (pin.setWidth 32) w) cur d
      ∧ Writes d (regAddr (bank d.cfg) (pin.setWidth 32) w)
          (insertField cur (fieldMask w) (value d.cfg) (bitShift (pin.setWidth 32) w)) e
      ∧ t = e.respond 0 := by
  obtain ⟨s1, hread, h⟩ := exec_of_execFor_succ h
  obtain ⟨s2, hwrite, hend⟩ := exec_of_execFor_succ h
  rw [hx, gpioField_start hs hp] at hread
  obtain ⟨cur, d, hr, hread⟩ := exists_reads hread
  cases hread
  rw [hx, gpioField_write rfl] at hwrite
  obtain ⟨e, hw, hwrite⟩ := exists_writes hwrite
  cases hwrite
  cases hend
  exact ⟨cur, d, e, ⟨hr.cfg, hr.read⟩, ⟨hw.cfg, hw.write⟩, rfl⟩

/-- ALT5 runs through where its four accesses do, each in the device the one before left (41_gpio.md R122). -/
theorem execFor_alt5_of_accesses {pin : BitVec 8} {c1 c2 : Word} {s d1 e1 d2 e2 : State} (hs : s.seq = .idle)
    (hp : pin.setWidth 32 ≤ s.cfg.maxPin)
    (hr1 : Reads s (regAddr s.cfg.gppuppdn0 (pin.setWidth 32) 2) c1 d1)
    (hw1 : Writes d1 (regAddr d1.cfg.gppuppdn0 (pin.setWidth 32) 2)
      (insertField c1 (fieldMask 2) ((d1.cfg.pullCode.code .none).setWidth 32) (bitShift (pin.setWidth 32) 2)) e1)
    (hr2 : Reads e1 (regAddr e1.cfg.gpfsel0 (pin.setWidth 32) 3) c2 d2)
    (hw2 : Writes d2 (regAddr d2.cfg.gpfsel0 (pin.setWidth 32) 3)
      (insertField c2 (fieldMask 3) ((d2.cfg.fselCode.code .alt5).setWidth 32) (bitShift (pin.setWidth 32) 3)) e2) :
    execFor (.alt5 pin) 4 s = .next ((e2.withUnit s).respond 0) := by
  have pullRead : exec (.alt5 pin) s = .next (d1.withUnit ((s.accept (.alt5 pin)).goto (.alt5 (.pullWrite c1)))) :=
    (exec_alt5_start hs hp).trans
      (hr1.read (s.accept (.alt5 pin)) fun cur s' => .next (s'.goto (.alt5 (.pullWrite cur))))
  have pullWrite (c : State) : exec (.alt5 pin) (d1.withUnit (c.goto (.alt5 (.pullWrite c1))))
      = .next (e1.withUnit (c.goto (.alt5 .fselRead))) :=
    (exec_alt5_go (m := .pullWrite c1) rfl).trans
      (hw1.write (c.goto (.alt5 (.pullWrite c1))) fun s' => .next (s'.goto (.alt5 .fselRead)))
  have fselRead (c : State) : exec (.alt5 pin) (e1.withUnit (c.goto (.alt5 .fselRead)))
      = .next (d2.withUnit (c.goto (.alt5 (.fselWrite c2)))) :=
    (exec_alt5_go (m := .fselRead) rfl).trans
      (hr2.read (c.goto (.alt5 .fselRead)) fun cur s' => .next (s'.goto (.alt5 (.fselWrite cur))))
  have fselWrite (c : State) : exec (.alt5 pin) (d2.withUnit (c.goto (.alt5 (.fselWrite c2))))
      = .next ((e2.withUnit c).respond 0) :=
    (exec_alt5_go (m := .fselWrite c2) rfl).trans
      (hw2.write (c.goto (.alt5 (.fselWrite c2))) fun s' => .next (s'.respond 0))
  rw [execFor_succ pullRead, execFor_succ (pullWrite _), execFor_succ (fselRead _), execFor_succ (fselWrite _)]
  rfl

end

/-- Settles O32: ALT5's four accesses are those of the two commands, each made in the same device. -/
theorem alt5IsPullThenFsel : Obligations.Alt5IsPullThenFsel := by
  intro pin s u t hs hp hpull hfsel
  obtain ⟨c1, d1, e1, hr1, hw1, rfl⟩ := gpioField_accesses (i := .pull pin .none)
    (bank := Config.gppuppdn0) (value := fun c => (c.pullCode.code .none).setWidth 32) (fun _ => exec_pull .none) hs hp hpull
  have cfg1 : e1.cfg = s.cfg := hw1.cfg.trans hr1.cfg
  have hp1 : pin.setWidth 32 ≤ e1.cfg.maxPin := cfg1 ▸ hp
  obtain ⟨c2, d2, e2, hr2, hw2, rfl⟩ := gpioField_accesses (s := e1.respond 0) (i := .fsel pin .alt5)
    (bank := Config.gpfsel0) (value := fun c => (c.fselCode.code .alt5).setWidth 32) (fun _ => exec_fsel .alt5) rfl hp1 hfsel
  exact execFor_alt5_of_accesses hs hp hr1 hw1 ⟨hr2.cfg, hr2.read⟩ hw2

end Sys2Proof.Machine

/-! # The bitfield addressor: its mapping, its read-modify-write and its frame (40_addressor.md) -/

namespace Sys2Proof.Machine

/-! ## The mapping in natural numbers (R91, R93, R94) -/

section
variable {w : BitVec 2}

theorem le_fieldMask_iff (value : Word) (w : BitVec 2) : value ≤ fieldMask w ↔ value.toNat ≤ 2 ^ w.toNat - 1 := by
  rw [BitVec.le_def, fieldMask_toNat]

/-- A register holds at least ten fields. -/
theorem ten_le_fieldsPerRegister (hw : w ≠ 0) : 10 ≤ 32 / w.toNat := by
  revert w
  decide

/-- The next register begins one register's fields on. -/
theorem add_fieldsPerRegister_toNat {index : Word} (h : index.toNat + (fieldsPerRegister w).toNat < 2 ^ 32) :
    (index + fieldsPerRegister w).toNat = index.toNat + 32 / w.toNat := by
  rw [BitVec.toNat_add_of_lt h, fieldsPerRegister_toNat]

/-- Two indices of a bank lie in one register only where their quotients by the fields per register agree: the offsets of the
registers an index reaches do not wrap. -/
theorem div_eq_of_regAddr_eq {bank i j : Word} (hw : w ≠ 0) (h : regAddr bank i w = regAddr bank j w) :
    i.toNat / (32 / w.toNat) = j.toNat / (32 / w.toNat) := by
  have offset_lt (k : Word) : k.toNat / (32 / w.toNat) * 4 < 2 ^ 32 := by
    have hk : k.toNat / (32 / w.toNat) ≤ k.toNat / 10 :=
      Nat.div_le_div_left (ten_le_fieldsPerRegister hw) (by decide)
    have := k.isLt
    omega
  rw [regAddr_eq, regAddr_eq] at h
  have h := congrArg BitVec.toNat (BitVec.add_right_inj bank |>.mp h)
  rw [BitVec.toNat_ofNat, BitVec.toNat_ofNat, Nat.mod_eq_of_lt (offset_lt i), Nat.mod_eq_of_lt (offset_lt j)] at h
  omega

/-- The field of the smaller remainder ends where the field of the larger begins, or before. -/
theorem bitShift_add_width_le {i j : Word} (h : i.toNat % (32 / w.toNat) < j.toNat % (32 / w.toNat)) :
    (bitShift i w).toNat + w.toNat ≤ (bitShift j w).toNat := by
  rw [bitShift_toNat, bitShift_toNat, ← Nat.succ_mul]
  exact Nat.mul_le_mul_right _ h

/-- A value that fits its field is shifted into place and back without loss. -/
theorem shiftLeft_shiftRight_of_le_fieldMask {value : Word} {n : Nat} (hv : value ≤ fieldMask w) (hn : n + w.toNat ≤ 32) :
    (value <<< n) >>> n = value := by
  ext j hj
  simp only [← BitVec.getLsbD_eq_getElem, BitVec.getLsbD_ushiftRight, BitVec.getLsbD_shiftLeft, Nat.add_sub_cancel_left,
    Nat.not_lt.mpr (Nat.le_add_right n j), decide_false, Bool.not_false, Bool.and_true]
  by_cases hw : j < w.toNat
  · simp [show n + j < 32 by omega]
  · simp [getLsbD_of_le_fieldMask hv (Nat.not_lt.mp hw)]

end

/-- Settles O14: the formulas are the model's own, and the range of the shift is that of a remainder times the width. -/
theorem fieldMaskAddressAndShift : Obligations.FieldMaskAddressAndShift := by
  refine ⟨by decide, le_fieldMask_iff, by decide, fun _ _ _ => rfl, fun _ _ => rfl, fun index => ?_, fun index => ⟨?_, ?_⟩,
    fun index => ⟨?_, ?_⟩⟩
  · rw [BitVec.le_def, bitShift_toNat]
    show index.toNat % 32 * 1 ≤ 31
    omega
  · rw [BitVec.le_def, bitShift_toNat]
    show index.toNat % 16 * 2 ≤ 30
    omega
  · rw [← BitVec.toNat_inj, BitVec.toNat_umod, bitShift_toNat]
    show index.toNat % 16 * 2 % 2 = 0
    omega
  · rw [BitVec.le_def, bitShift_toNat]
    show index.toNat % 10 * 3 ≤ 27
    omega
  · rw [← BitVec.toNat_inj, BitVec.toNat_umod, bitShift_toNat]
    show index.toNat % 10 * 3 % 3 = 0
    omega

/-- Settles O15: adding the fields per register adds 1 to the quotient and nothing to the remainder. -/
theorem bankStride : Obligations.BankStride := by
  intro bank index w hw h
  have hpos : 0 < 32 / w.toNat := Nat.lt_of_lt_of_le (by decide) (ten_le_fieldsPerRegister hw)
  constructor
  · rw [regAddr_eq, regAddr_eq, add_fieldsPerRegister_toNat h, Nat.add_div_right _ hpos, Nat.succ_mul, BitVec.ofNat_add,
      BitVec.add_assoc]
    rfl
  · rw [← BitVec.toNat_inj, bitShift_toNat, bitShift_toNat, add_fieldsPerRegister_toNat h, Nat.add_mod_right]

/-- Settles O16: distinct indices of one register have the same quotient, so distinct remainders. -/
theorem fieldsAreContainedAndDisjoint : Obligations.FieldsAreContainedAndDisjoint := by
  refine ⟨fun index w hw => bitShift_add_width hw index,
    fun index value w hw hv => shiftLeft_shiftRight_of_le_fieldMask hv (bitShift_add_width hw index),
    fun bank i j w hw hij => ?_⟩
  by_cases ha : regAddr bank i w = regAddr bank j w
  · right
    have hne : i.toNat % (32 / w.toNat) ≠ j.toNat % (32 / w.toNat) := fun hmod => hij <| BitVec.eq_of_toNat_eq <| by
      rw [← Nat.div_add_mod i.toNat (32 / w.toNat), div_eq_of_regAddr_eq hw ha, hmod, Nat.div_add_mod]
    exact (Nat.lt_or_gt_of_ne hne).imp bitShift_add_width_le bitShift_add_width_le
  · exact .inl ha

/-- Settles O17: register `k` is reached by its first index, `k` times the fields per register. -/
theorem bankSpan : Obligations.BankSpan := by
  intro bank maxIndex a w hw
  have hpos : 0 < (fieldsPerRegister w).toNat := by
    rw [fieldsPerRegister_toNat]
    exact Nat.lt_of_lt_of_le (by decide) (ten_le_fieldsPerRegister hw)
  constructor
  · rintro ⟨i, hi, rfl⟩
    refine ⟨i / fieldsPerRegister w, ?_, rfl⟩
    rw [BitVec.le_def, BitVec.toNat_udiv, BitVec.toNat_udiv]
    exact Nat.div_le_div_right hi
  · rintro ⟨k, hk, rfl⟩
    have hle : k.toNat * (fieldsPerRegister w).toNat ≤ maxIndex.toNat := by
      rw [BitVec.le_def, BitVec.toNat_udiv] at hk
      exact (Nat.le_div_iff_mul_le hpos).mp hk
    have first : (k * fieldsPerRegister w).toNat = k.toNat * (fieldsPerRegister w).toNat :=
      BitVec.toNat_mul_of_lt (Nat.lt_of_le_of_lt hle maxIndex.isLt)
    refine ⟨k * fieldsPerRegister w, ?_, ?_⟩
    · rw [BitVec.le_def, first]
      exact hle
    · have quotient : k * fieldsPerRegister w / fieldsPerRegister w = k := BitVec.eq_of_toNat_eq <| by
        rw [BitVec.toNat_udiv, first, Nat.mul_div_cancel _ hpos]
      rw [regAddr, quotient]

/-! ## The checks of SETFIELD (R92) -/

section
variable {bank index value maxidx : Word} {w : BitVec 2}

theorem validate_eq_outOfRange_iff :
    validate bank index value w maxidx = .outOfRange ↔ maxidx < index ∨ fieldMask w < value := by
  unfold validate
  by_cases hi : maxidx < index
  · simp [hi]
  · by_cases hv : fieldMask w < value
    · simp [hi, hv]
    · rw [if_neg hi, if_neg hv]
      split <;> simp [hi, hv]

theorem validate_eq_misaligned (hi : index ≤ maxidx) (hv : value ≤ fieldMask w) (hb : bank % 4 ≠ 0) :
    validate bank index value w maxidx = .misaligned := by
  unfold validate
  rw [if_neg (BitVec.not_lt.mpr hi), if_neg (BitVec.not_lt.mpr hv), if_pos hb]

theorem value_le_of_validate_eq_ok (h : validate bank index value w maxidx = .ok) : value ≤ fieldMask w := by
  refine BitVec.not_lt.mp fun hv => ?_
  rw [validate_eq_outOfRange_iff.mpr (.inr hv)] at h
  cases h

/-! ## What a micro-step of SETFIELD can do (R95) -/

variable {s t : State}

theorem eq_fieldWrite_of_ownsSeq_setfield {q : Seq} (h : ownsSeq (.setfield bank index value w maxidx) q = true) :
    ∃ cur, q = .fieldWrite cur := by
  cases q with
  | fieldWrite cur => exact ⟨cur, rfl⟩
  | _ => cases h

/-- SETFIELD answers the code of the failed check, reads its register, or writes it back. -/
theorem exec_setfield_cases (h : exec (.setfield bank index value w maxidx) s = .next t) :
    w ≠ 0 ∧
      ((s.seq = .idle ∧ validate bank index value w maxidx ≠ .ok
          ∧ t = s.answered (validate bank index value w maxidx).word)
        ∨ (s.seq = .idle ∧ validate bank index value w maxidx = .ok
          ∧ fieldRead bank index w (s.accept (.setfield bank index value w maxidx)) = .next t)
        ∨ ∃ cur, s.seq = .fieldWrite cur ∧ fieldWrite bank index value w cur s = .next t) := by
  obtain ⟨hwf, he⟩ := exec_next h
  have hw : w ≠ 0 := by simpa [Instr.wf] using hwf
  refine ⟨hw, ?_⟩
  obtain ⟨hs, -⟩ | hs := he.started
  · by_cases hv : validate bank index value w maxidx = .ok
    · exact .inr (.inl ⟨hs, hv, exec_setfield_start hw hs hv ▸ h⟩)
    · rw [exec_setfield_fail hw hs rfl hv] at h
      cases h
      exact .inl ⟨hs, hv, rfl⟩
  · obtain ⟨cur, hq⟩ := eq_fieldWrite_of_ownsSeq_setfield hs
    exact .inr (.inr ⟨cur, hq, exec_setfield_write hw hq ▸ h⟩)

end

/-- Settles O18: each clause names the first check that fails. -/
theorem setfieldValidatesInOrder : Obligations.SetfieldValidatesInOrder := by
  intro bank index value w maxidx s hw hs
  refine ⟨fun hi => ?_, fun _ hv => ?_, fun hi hv hb => ?_⟩
  · exact exec_setfield_fail hw hs (validate_eq_outOfRange_iff.mpr (.inl hi)) (by decide)
  · exact exec_setfield_fail hw hs (validate_eq_outOfRange_iff.mpr (.inr hv)) (by decide)
  · exact exec_setfield_fail hw hs (validate_eq_misaligned hi hv hb) (by decide)

/-- Settles O19: SETFIELD answers at once where a check fails, and the read-modify-write answers 0. -/
theorem failingSetfieldMakesNoAccess : Obligations.FailingSetfieldMakesNoAccess := by
  refine ⟨fun bank index value w maxidx s t v h hp hi hv => ?_, fun bank index value w maxidx s hw hs hfail => ?_⟩
  · obtain ⟨-, ⟨hs, -, rfl⟩ | ⟨-, -, hread⟩ | ⟨cur, -, hwrite⟩⟩ := exec_setfield_cases h
    · cases hp
      exact ⟨hs, rfl⟩
    · exact absurd hi (fieldRead_busy hread)
    · rw [fieldWrite_respPort hwrite] at hp
      cases hp
      exact absurd rfl hv
  · exact ⟨1, by decide, exec_setfield_fail hw hs (validate_eq_outOfRange_iff.mpr hfail) (by decide)⟩

/-! ## The read-modify-write by class of register (R95, R96, R103) -/

/-- A command accepted in `s` that makes two accesses and answers `v`, where the second access leaves the cells `c` and the pin
latches `o`. -/
theorem next_respond_of_two_accesses (s : State) (i : Instr) (q : Seq) (e1 e2 : Event) (c : Cells) (o : BitVec 64)
    (v : Word) :
    (.next (({ ((s.accept i).record e1).goto q with cells := c, out := o }.record e2).respond v) : Out)
      = .next { s.answered v with cells := c, out := o, hist := s.hist ++ [e1, e2] } := by
  simp [State.accept, State.record, State.goto, State.respond, State.answered]

/-- Settles O20: both micro-steps at a storage register. -/
theorem setfieldCompletesOnStorage : Obligations.SetfieldCompletesOnStorage := by
  intro bank index value w maxidx s hw hs hi hv hb i fpr a shift mask cur new hc
  have start : exec i s = fieldRead bank index w (s.accept i) := exec_setfield_start hw hs (validate_eq_ok hi hv hb)
  refine ⟨_, start.trans (fieldRead_storage hc), rfl, ?_⟩
  exact (exec_setfield_write hw rfl).trans <| (fieldWrite_storage (by exact hc)).trans <|
    next_respond_of_two_accesses s i _ (.read a cur) (.write a new) (s.cells.write a new) s.out 0

/-- Settles O21: both micro-steps at a set or clear register, and the pins the written word acts on. -/
theorem setfieldCompletesOnSetAndClearRegisters : Obligations.SetfieldCompletesOnSetAndClearRegisters := by
  intro bank index value w maxidx s n hw hs hi hv hb i fpr a shift mask cur new acts after
  have start : exec i s = fieldRead bank index w (s.accept i) := exec_setfield_start hw hs (validate_eq_ok hi hv hb)
  have finish (o : BitVec 64) := next_respond_of_two_accesses (s.afterDraws s.cfg.setclrDraws) i (.fieldWrite cur)
    (.read a cur) (.write a new) s.cells o 0
  have acted (q : Nat) (hq : q < 64) : (actedPins s.cfg.maxPin n new).getLsbD q = acts q := actedPins_getLsbD _ _ _ hq
  refine ⟨fun hc => ?_, fun hc => ?_⟩
  · refine ⟨_, s.out ||| actedPins s.cfg.maxPin n new, start.trans (fieldRead_setReg hc), rfl, ?_, fun q hq => ?_⟩
    · exact (exec_setfield_write hw rfl).trans ((fieldWrite_setReg (by exact hc)).trans (finish _))
    · rw [BitVec.getLsbD_or, acted q hq]
      rfl
  · refine ⟨_, s.out &&& ~~~actedPins s.cfg.maxPin n new, start.trans (fieldRead_clrReg hc), rfl, ?_, fun q hq => ?_⟩
    · exact (exec_setfield_write hw rfl).trans ((fieldWrite_clrReg (by exact hc)).trans (finish _))
    · rw [BitVec.getLsbD_and, BitVec.getLsbD_not, acted q hq, decide_eq_true hq]
      rfl

/-- Settles O23: the register written back differs from the register read in the field alone, and no other register is written. -/
theorem setfieldReadBackAndPreservation : Obligations.SetfieldReadBackAndPreservation := by
  intro bank index value w maxidx s s1 t hwf hs hc h1 h2 hp hbusy a shift
  obtain ⟨hw, ⟨-, -, rfl⟩ | ⟨-, hok, hread⟩ | ⟨cur, hq, -⟩⟩ := exec_setfield_cases h1
  · exact absurd rfl hbusy
  · rw [fieldRead_storage (by exact hc)] at hread
    cases hread
    rw [exec_setfield_write hw rfl, fieldWrite_storage (by exact hc)] at h2
    cases h2
    refine ⟨fun k => memRead_storage hc, fun b j hj => ?_⟩
    show ((s.cells.write a (insertField (s.cell a) (fieldMask w) value (bitShift index w))).read b).getLsbD j = _
    rw [Cells.read_write hwf]
    by_cases hb : b = a
    · rw [if_pos hb, insertField_getLsbD (value_le_of_validate_eq_ok hok) hj, hb]
      simp only [true_and]
      rfl
    · rw [if_neg hb, if_neg fun h => hb h.1]
      rfl
  · rw [hs] at hq
    cases hq

/-! ## The frame of the commands that read and write a register (R95, R96) -/

/-- The storage registers, the pin latches and the transmit stream are the same in two states. -/
structure SameDevice (s t : State) : Prop where
  cells : t.cells = s.cells
  out : t.out = s.out
  tx : t.tx = s.tx

/-- A micro-step changes nothing of the device, or it is no command's first and writes one of the registers. -/
def WritesOnly (regs : List Word) (s t : State) : Prop :=
  SameDevice s t ∨ s.seq ≠ .idle ∧ ∃ a ∈ regs, ∃ v, AccessEffect s t (.write a v)

section
variable {i : Instr} {s s' t : State} {a : Word} {regs : List Word}

theorem AccessEffect.sameDevice {u : Word} (h : AccessEffect s t (.read a u)) : SameDevice s t :=
  ⟨h.cells, h.out, h.tx.trans (List.append_nil _)⟩

theorem SameDevice.of_accept (h : SameDevice (s.accept i) t) : SameDevice s t :=
  ⟨h.cells, h.out, h.tx⟩

theorem SameDevice.answered (v : Word) : SameDevice s (s.answered v) :=
  ⟨rfl, rfl, rfl⟩

theorem fieldRead_sameDevice {bank index : Word} {w : BitVec 2} (h : fieldRead bank index w s = .next t) :
    SameDevice s t := by
  obtain ⟨u, s', rfl, -, he⟩ := fieldRead_next h
  exact AccessEffect.sameDevice (he.trans_unit rfl rfl rfl rfl)

theorem fieldWrite_writesOnly {bank index value cur : Word} {w : BitVec 2} (hs : s.seq = .fieldWrite cur)
    (h : fieldWrite bank index value w cur s = .next t) : WritesOnly [regAddr bank index w] s t := by
  obtain ⟨s', rfl, -, he⟩ := fieldWrite_next h
  exact .inr ⟨by simp [hs], _, List.mem_singleton.mpr rfl, _, he.trans_unit rfl rfl rfl rfl⟩

theorem exec_setfield_writesOnly {bank index value maxidx : Word} {w : BitVec 2}
    (h : exec (.setfield bank index value w maxidx) s = .next t) : WritesOnly [regAddr bank index w] s t := by
  obtain ⟨-, ⟨-, -, rfl⟩ | ⟨-, -, hread⟩ | ⟨cur, hq, hwrite⟩⟩ := exec_setfield_cases h
  · exact .inl (.answered _)
  · exact .inl (fieldRead_sameDevice hread).of_accept
  · exact fieldWrite_writesOnly hq hwrite

theorem gpioField_writesOnly {bank value : Word} {pin : BitVec 8} {w : BitVec 2}
    (h : gpioField i bank pin value w s = .next t) : WritesOnly [regAddr bank (pin.setWidth 32) w] s t := by
  unfold gpioField at h
  split at h
  · split at h
    · cases h
      exact .inl (.answered 1)
    · exact .inl (fieldRead_sameDevice h).of_accept
  · next cur hs => exact fieldWrite_writesOnly hs h
  · cases h

/-- The registers ALT5 reads and writes: the pull register of its pin and the function-select register (41_gpio.md R122). -/
def alt5Regs (c : Config) (pin : BitVec 8) : List Word :=
  [regAddr c.gppuppdn0 (pin.setWidth 32) 2, regAddr c.gpfsel0 (pin.setWidth 32) 3]

/-- ALT5's first access is a read, and each of its writes is of one of its two registers. -/
theorem alt5Access_effect {pin : BitVec 8} {m : Alt5Step}
    (h : alt5Access pin m s (fun m s' => .next (s'.goto (.alt5 m))) (fun s' => .next (s'.respond 0)) = .next t) :
    SameDevice s t ∨ m ≠ .pullRead ∧ ∃ a ∈ alt5Regs s.cfg pin, ∃ v, AccessEffect s t (.write a v) := by
  cases m <;> simp only [alt5Access] at h
  case pullRead =>
    obtain ⟨u, s', hk, -, he⟩ := memRead_next h
    cases hk
    exact .inl (AccessEffect.sameDevice (he.trans_unit rfl rfl rfl rfl))
  case pullWrite cur =>
    obtain ⟨s', hk, -, he⟩ := memWrite_next h
    cases hk
    exact .inr ⟨by simp, _, .head _, _, he.trans_unit rfl rfl rfl rfl⟩
  case fselRead =>
    obtain ⟨u, s', hk, -, he⟩ := memRead_next h
    cases hk
    exact .inl (AccessEffect.sameDevice (he.trans_unit rfl rfl rfl rfl))
  case fselWrite cur =>
    obtain ⟨s', hk, -, he⟩ := memWrite_next h
    cases hk
    exact .inr ⟨by simp, _, .tail _ (.head _), _, he.trans_unit rfl rfl rfl rfl⟩

theorem eq_alt5_of_ownsSeq_alt5 {pin : BitVec 8} {q : Seq} (h : ownsSeq (.alt5 pin) q = true) : ∃ m, q = .alt5 m := by
  cases q with
  | alt5 m => exact ⟨m, rfl⟩
  | _ => cases h

theorem exec_alt5_outOfRange {pin : BitVec 8} (hs : s.seq = .idle) (hp : s.cfg.maxPin < pin.setWidth 32) :
    exec (.alt5 pin) s = .next (s.answered 1) := by
  show execAlt5 pin s = _
  unfold execAlt5
  rw [hs]
  exact if_pos hp

theorem exec_alt5_writesOnly {pin : BitVec 8} (h : exec (.alt5 pin) s = .next t) :
    WritesOnly (alt5Regs s.cfg pin) s t := by
  obtain ⟨-, he⟩ := exec_next h
  obtain ⟨hs, -⟩ | hs := he.started
  · by_cases hp : s.cfg.maxPin < pin.setWidth 32
    · rw [exec_alt5_outOfRange hs hp] at h
      cases h
      exact .inl (.answered 1)
    · rw [exec_alt5_start hs (BitVec.not_lt.mp hp)] at h
      obtain hd | ⟨hm, -⟩ := alt5Access_effect h
      · exact .inl hd.of_accept
      · exact absurd rfl hm
  · obtain ⟨m, hq⟩ := eq_alt5_of_ownsSeq_alt5 hs
    rw [exec_alt5_go hq] at h
    exact (alt5Access_effect h).imp_right fun ⟨_, hw⟩ => ⟨by simp [hq], hw⟩

/-- A write leaves every other storage register. -/
theorem AccessEffect.cell_of_ne {v b : Word} (hwf : s.cells.wf = true) (h : AccessEffect s t (.write a v)) (hb : b ≠ a) :
    t.cell b = s.cell b := by
  rw [State.cell, h.cells, cellsAfter]
  split
  · rw [Cells.read_write hwf, if_neg hb]
    rfl
  · rfl

/-- A write to a storage register leaves the pin latches and the transmit stream. -/
theorem AccessEffect.out_tx_of_storage {v : Word} (h : AccessEffect s t (.write a v))
    (hc : s.cfg.classOf a = some .storage) : t.out = s.out ∧ t.tx = s.tx := by
  rw [h.out, h.tx]
  simp [outAfter, txByte, hc]

end

/-- Settles O45: the one access of a micro-step is a read, or a write of one of the command's registers. -/
theorem registerCommandFrame : Obligations.RegisterCommandFrame := by
  intro i addrs s t hi hwf h
  have key : i ≠ .uinit ∧ WritesOnly (addrs s) s t := by
    obtain ⟨bank, index, value, w, maxidx, rfl, rfl⟩ | ⟨pin, f, rfl, rfl⟩ | ⟨pin, rfl, rfl⟩ | ⟨pin, rfl, rfl⟩
      | ⟨pin, m, rfl, rfl⟩ | ⟨pin, rfl, rfl⟩ := hi
    · exact ⟨by simp, exec_setfield_writesOnly h⟩
    · exact ⟨by simp, gpioField_writesOnly h⟩
    · exact ⟨by simp, gpioField_writesOnly h⟩
    · exact ⟨by simp, gpioField_writesOnly h⟩
    · exact ⟨by simp, gpioField_writesOnly h⟩
    · exact ⟨by simp, exec_alt5_writesOnly h⟩
  obtain ⟨hu, hd⟩ := key
  obtain ⟨-, he⟩ := exec_next h
  refine ⟨he.cfg, he.uart.resolve_right fun h => hu h.1, he.bufmem, he.cmdPort, he.fault, he.refusal, ?_⟩
  obtain ⟨hc, ho, hx⟩ | ⟨hs, a, ha, v, hw⟩ := hd
  · exact ⟨fun _ => ⟨hc, ho, hx⟩, fun b _ => by rw [State.cell, hc]; rfl, fun _ => ⟨ho, hx⟩⟩
  · refine ⟨fun hi => absurd hi hs, fun b hb => ?_, fun hall => ?_⟩
    · exact hw.cell_of_ne hwf (ne_of_mem_of_not_mem ha hb).symm
    · exact hw.out_tx_of_storage (hall a ha)

end Sys2Proof.Machine

/-! # The GPIO commands: what each does to the registers and the pins (41_gpio.md) -/

namespace Sys2Proof.Machine

/-! ## A pin's field in its bank (R110) -/

/-- The address of a pin's register does not wrap where the bank ends within the address space. -/
theorem regAddr_pin_toNat {bank : Word} (pin : BitVec 8) (w : BitVec 2) (hb : bank.toNat + 1020 < 2 ^ 32) :
    (regAddr bank (pin.setWidth 32) w).toNat = bank.toNat + 4 * (pin.toNat / (32 / w.toNat)) := by
  have hle : pin.toNat / (32 / w.toNat) ≤ pin.toNat := Nat.div_le_self ..
  have hpin := pin.isLt
  rw [regAddr_pin, BitVec.toNat_add, BitVec.toNat_ofNat]
  omega

theorem bitShift_pin_toNat (pin : BitVec 8) (w : BitVec 2) :
    (bitShift (pin.setWidth 32) w).toNat = w.toNat * (pin.toNat % (32 / w.toNat)) := by
  rw [bitShift_toNat, BitVec.toNat_setWidth_of_le (by decide), Nat.mul_comm]

/-! ## The end state of a read-modify-write -/

section
variable (s : State) (bank index value : Word) (w : BitVec 2)

/-- The word written back to a register that read `cur` (40_addressor.md R95). -/
def fieldWord (cur : Word) : Word := insertField cur (fieldMask w) value (bitShift index w)

/-- The state after a read-modify-write of a storage register that answers OK (40_addressor.md R95). -/
def State.afterField : State :=
  let a := regAddr bank index w
  let new := fieldWord index value w (s.cell a)
  { s.answered 0 with
    cells := s.cells.write a new
    hist := s.hist ++ [.read a (s.cell a), .write a new] }

/-- The state after a read-modify-write of a set or clear register that answers OK, with the pin latches it leaves. -/
def State.afterPins (o : BitVec 64) : State :=
  let a := regAddr bank index w
  { (s.afterDraws s.cfg.setclrDraws).answered 0 with
    out := o
    hist := s.hist ++ [.read a s.setclrAnswer, .write a (fieldWord index value w s.setclrAnswer)] }

end

section
variable {s t : State} {i : Instr} {bank index value : Word} {w : BitVec 2}

/-- What a read-modify-write leaves in every bit of every storage register (40_addressor.md R96). -/
theorem State.afterField_cell_getLsbD (hwf : s.cells.wf = true) (hv : value ≤ fieldMask w) (b : Word) {j : Nat}
    (hj : j < 32) :
    ((s.afterField bank index value w).cell b).getLsbD j
      = if b = regAddr bank index w ∧ (bitShift index w).toNat ≤ j ∧ j < (bitShift index w).toNat + w.toNat
        then value.getLsbD (j - (bitShift index w).toNat) else (s.cell b).getLsbD j := by
  show ((s.cells.write _ _).read b).getLsbD j = _
  rw [Cells.read_write hwf]
  by_cases hb : b = regAddr bank index w
  · rw [if_pos hb, fieldWord, insertField_getLsbD hv hj, hb]
    simp only [true_and]
  · rw [if_neg hb, if_neg fun h => hb h.1]
    rfl

theorem State.afterField_cells_wf (hwf : s.cells.wf = true) : (s.afterField bank index value w).cells.wf = true :=
  Cells.write_wf hwf _ _

/-- A read-modify-write of the field of a pin, whose register is number `k` of the bank and whose lowest bit is `lsb` (10_state.md
R29, R32). -/
theorem State.afterField_pin_getLsbD {pin : BitVec 8} {k lsb : Nat} (hwf : s.cells.wf = true) (hv : value ≤ fieldMask w)
    (hb : bank.toNat + 1020 < 2 ^ 32) (hk : pin.toNat / (32 / w.toNat) = k)
    (hlsb : w.toNat * (pin.toNat % (32 / w.toNat)) = lsb) (b : Word) {j : Nat} (hj : j < 32) :
    ((s.afterField bank (pin.setWidth 32) value w).cell b).getLsbD j
      = if b.toNat = bank.toNat + 4 * k ∧ lsb ≤ j ∧ j < lsb + w.toNat then value.getLsbD (j - lsb)
        else (s.cell b).getLsbD j := by
  simp only [State.afterField_cell_getLsbD hwf hv b hj, ← BitVec.toNat_inj, regAddr_pin_toNat pin w hb,
    bitShift_pin_toNat, hk, hlsb]

/-! ## The two micro-steps of a command on one bank (R110) -/

/-- Command `i` makes the access `e` in its first micro-step and ends in its second, in the state `t`. -/
def RunsInTwo (i : Instr) (s : State) (e : Event) (t : State) : Prop :=
  ∃ s1, exec i s = .next s1 ∧ s1.hist = s.hist ++ [e] ∧ exec i s1 = .next t

theorem RunsInTwo.execFor_two {e : Event} (h : RunsInTwo i s e t) : execFor i 2 s = .next t := by
  obtain ⟨s1, h1, -, h2⟩ := h
  rw [execFor_succ h1, execFor_succ h2]
  rfl

/-- The command is the read-modify-write of one register of a bank, at every state with the parameters `c`. -/
def OnBank (i : Instr) (c : Config) (bank : Word) (pin : BitVec 8) (value : Word) (w : BitVec 2) : Prop :=
  ∀ s : State, s.cfg = c → exec i s = gpioField i bank pin value w s

section
variable {pin : BitVec 8} {n : Nat}

theorem OnBank.exec_write {cur : Word} (hx : OnBank i s.cfg bank pin value w) (ht : t.cfg = s.cfg)
    (hq : t.seq = .fieldWrite cur) : exec i t = fieldWrite bank (pin.setWidth 32) value w cur t :=
  (hx t ht).trans (gpioField_write hq)

section
variable (hx : OnBank i s.cfg bank pin value w) (hs : s.seq = .idle) (hp : pin.setWidth 32 ≤ s.cfg.maxPin)
include hx hs hp

theorem OnBank.exec_start : exec i s = fieldRead bank (pin.setWidth 32) w (s.accept i) :=
  (hx s rfl).trans (gpioField_start hs hp)

theorem OnBank.runsInTwo_storage (hc : s.cfg.classOf (regAddr bank (pin.setWidth 32) w) = some .storage) :
    RunsInTwo i s (.read (regAddr bank (pin.setWidth 32) w) (s.cell (regAddr bank (pin.setWidth 32) w)))
      (s.afterField bank (pin.setWidth 32) value w) := by
  refine ⟨_, (hx.exec_start hs hp).trans (fieldRead_storage hc), rfl, ?_⟩
  exact (hx.exec_write (by rfl) (by rfl)).trans <| (fieldWrite_storage (by exact hc)).trans <|
    next_respond_of_two_accesses s i _ (.read ..) (.write ..) _ s.out 0

theorem OnBank.runsInTwo_setReg (hc : s.cfg.classOf (regAddr bank (pin.setWidth 32) w) = some (.setReg n)) :
    RunsInTwo i s (.read (regAddr bank (pin.setWidth 32) w) s.setclrAnswer)
      (s.afterPins bank (pin.setWidth 32) value w
        (s.out ||| actedPins s.cfg.maxPin n (fieldWord (pin.setWidth 32) value w s.setclrAnswer))) := by
  refine ⟨_, (hx.exec_start hs hp).trans (fieldRead_setReg hc), rfl, ?_⟩
  exact (hx.exec_write (by rfl) (by rfl)).trans <| (fieldWrite_setReg (by exact hc)).trans <|
    next_respond_of_two_accesses (s.afterDraws s.cfg.setclrDraws) i _ (.read ..) (.write ..) s.cells _ 0

theorem OnBank.runsInTwo_clrReg (hc : s.cfg.classOf (regAddr bank (pin.setWidth 32) w) = some (.clrReg n)) :
    RunsInTwo i s (.read (regAddr bank (pin.setWidth 32) w) s.setclrAnswer)
      (s.afterPins bank (pin.setWidth 32) value w
        (s.out &&& ~~~actedPins s.cfg.maxPin n (fieldWord (pin.setWidth 32) value w s.setclrAnswer))) := by
  refine ⟨_, (hx.exec_start hs hp).trans (fieldRead_clrReg hc), rfl, ?_⟩
  exact (hx.exec_write (by rfl) (by rfl)).trans <| (fieldWrite_clrReg (by exact hc)).trans <|
    next_respond_of_two_accesses (s.afterDraws s.cfg.setclrDraws) i _ (.read ..) (.write ..) s.cells _ 0

end

theorem onBank_fsel (c : Config) (f : GpioFunction) :
    OnBank (.fsel pin f) c c.gpfsel0 pin ((c.fselCode.code f).setWidth 32) 3 := fun _ h => h ▸ exec_fsel f

theorem onBank_sethigh (c : Config) : OnBank (.sethigh pin) c c.gpset0 pin 1 1 := fun _ h => h ▸ exec_sethigh

theorem onBank_setlow (c : Config) : OnBank (.setlow pin) c c.gpclr0 pin 1 1 := fun _ h => h ▸ exec_setlow

theorem onBank_pull (c : Config) (m : PullMode) :
    OnBank (.pull pin m) c c.gppuppdn0 pin ((c.pullCode.code m).setWidth 32) 2 := fun _ h => h ▸ exec_pull m

end

end

/-- Settles O30: the pin check comes first in each command. -/
theorem gpioPinOutOfRange : Obligations.GpioPinOutOfRange := by
  intro pin f m s hs hp
  exact ⟨gpioField_outOfRange hs hp, gpioField_outOfRange hs hp, gpioField_outOfRange hs hp,
    gpioField_outOfRange hs hp, exec_alt5_outOfRange hs hp⟩

/-- Settles O24: FSEL is the read-modify-write of a function-select register. -/
theorem fselCompletes : Obligations.FselCompletes := by
  intro pin f s hs hp p a shift code cur new hc
  exact (onBank_fsel s.cfg f).runsInTwo_storage hs hp hc

/-- Settles O25: PULL is the read-modify-write of a pull-control register. -/
theorem pullCompletes : Obligations.PullCompletes := by
  intro pin m s hs hp p a shift code cur new hc
  exact (onBank_pull s.cfg m).runsInTwo_storage hs hp hc

/-! ## The pins a set or clear command drives (R114 to R117) -/

section
variable {pin : BitVec 8} {s : State}

/-- The word SETHIGH and SETLOW write: a field of one bit stands at its index (40_addressor.md R94). -/
theorem fieldWord_pinBit (pin : BitVec 8) (cur : Word) :
    fieldWord (pin.setWidth 32) 1 1 cur
      = (cur &&& ~~~(1#32 <<< (pin.setWidth 32 % 32#32).toNat)) ||| (1#32 <<< (pin.setWidth 32 % 32#32).toNat) := by
  have hshift : bitShift (pin.setWidth 32) 1 = pin.setWidth 32 % 32#32 := BitVec.mul_one _
  rw [fieldWord, hshift]
  rfl

/-- The word SETHIGH and SETLOW write has the pin's bit 1 and the other bits as read (40_addressor.md R96). -/
theorem fieldWord_pinBit_getLsbD (pin : BitVec 8) (cur : Word) {j : Nat} (hj : j < 32) :
    (fieldWord (pin.setWidth 32) 1 1 cur).getLsbD j = (decide (j = pin.toNat % 32) || cur.getLsbD j) := by
  have hshift : (bitShift (pin.setWidth 32) 1).toNat = pin.toNat % 32 :=
    (bitShift_pin_toNat pin 1).trans (Nat.one_mul _)
  have hwidth : (1 : BitVec 2).toNat = 1 := rfl
  rw [fieldWord, insertField_getLsbD (by decide) hj, hshift, hwidth]
  by_cases he : j = pin.toNat % 32
  · simp [he]
  · rw [if_neg (by omega), decide_eq_false he, Bool.false_or]

/-- The pins that word acts on: the pin of the command, and every other pin of the register whose bit was read as 1 (10_state.md
R34, R35). -/
theorem actedPins_fieldWord_getLsbD (cur : Word) (hp : pin.setWidth 32 ≤ s.cfg.maxPin) {q : Nat} (hq : q < 64) :
    (actedPins s.cfg.maxPin (pin.toNat / 32) (fieldWord (pin.setWidth 32) 1 1 cur)).getLsbD q
      = (decide (q = pin.toNat)
        || (decide (q / 32 = pin.toNat / 32) && decide (q ≤ s.cfg.maxPin.toNat) && cur.getLsbD (q % 32))) := by
  have hp : pin.toNat ≤ s.cfg.maxPin.toNat := by
    rwa [BitVec.le_def, BitVec.toNat_setWidth_of_le (by decide)] at hp
  have register : (decide (32 * (pin.toNat / 32) ≤ q) && decide (q < 32 * (pin.toNat / 32) + 32))
      = decide (q / 32 = pin.toNat / 32) := by
    rw [← Bool.decide_and, decide_eq_decide]
    omega
  rw [actedPins_getLsbD _ _ _ hq, register]
  by_cases hk : q / 32 = pin.toNat / 32
  · have hbit : q - 32 * (pin.toNat / 32) = q % 32 := by omega
    have hpin : decide (q % 32 = pin.toNat % 32) = decide (q = pin.toNat) := decide_eq_decide.mpr (by omega)
    rw [hbit, fieldWord_pinBit_getLsbD pin cur (by omega), hpin]
    by_cases he : q = pin.toNat
    · simp [he, hp]
    · simp [he, hk]
  · have hne : q ≠ pin.toNat := fun h => hk (h ▸ rfl)
    simp [hk, hne]

/-- SETHIGH on a pin in range: both micro-steps, and the pins it sets. -/
theorem sethigh_runsInTwo (hs : s.seq = .idle) (hp : pin.setWidth 32 ≤ s.cfg.maxPin)
    (hc : s.cfg.classOf (regAddr s.cfg.gpset0 (pin.setWidth 32) 1) = some (.setReg (pin.toNat / 32))) :
    ∃ o, RunsInTwo (.sethigh pin) s (.read (regAddr s.cfg.gpset0 (pin.setWidth 32) 1) s.setclrAnswer)
        (s.afterPins s.cfg.gpset0 (pin.setWidth 32) 1 1 o)
      ∧ ∀ q, q < 64 → o.getLsbD q
        = (s.outPin q || (decide (q = pin.toNat)
          || (decide (q / 32 = pin.toNat / 32) && decide (q ≤ s.cfg.maxPin.toNat)
            && s.setclrAnswer.getLsbD (q % 32)))) := by
  refine ⟨_, (onBank_sethigh s.cfg).runsInTwo_setReg hs hp hc, fun q hq => ?_⟩
  rw [BitVec.getLsbD_or, actedPins_fieldWord_getLsbD _ hp hq]
  rfl

/-- SETLOW on a pin in range: both micro-steps, and the pins it clears. -/
theorem setlow_runsInTwo (hs : s.seq = .idle) (hp : pin.setWidth 32 ≤ s.cfg.maxPin)
    (hc : s.cfg.classOf (regAddr s.cfg.gpclr0 (pin.setWidth 32) 1) = some (.clrReg (pin.toNat / 32))) :
    ∃ o, RunsInTwo (.setlow pin) s (.read (regAddr s.cfg.gpclr0 (pin.setWidth 32) 1) s.setclrAnswer)
        (s.afterPins s.cfg.gpclr0 (pin.setWidth 32) 1 1 o)
      ∧ ∀ q, q < 64 → o.getLsbD q
        = (s.outPin q && !(decide (q = pin.toNat)
          || (decide (q / 32 = pin.toNat / 32) && decide (q ≤ s.cfg.maxPin.toNat)
            && s.setclrAnswer.getLsbD (q % 32)))) := by
  refine ⟨_, (onBank_setlow s.cfg).runsInTwo_clrReg hs hp hc, fun q hq => ?_⟩
  rw [BitVec.getLsbD_and, BitVec.getLsbD_not, actedPins_fieldWord_getLsbD _ hp hq, decide_eq_true hq]
  rfl

theorem State.setclrAnswer_of_zero (h : s.cfg.setclrRead = .zero) : s.setclrAnswer = 0 :=
  if_neg (by simp [h])

end

/-- Settles O26: the pins the written word acts on are set; a read of 0 leaves the pin alone among them. -/
theorem sethighCompletes : Obligations.SethighCompletes := by
  intro pin s hs hp hmax p a shift cur new hc
  obtain ⟨o, ⟨s1, hread, hhist, hwrite⟩, hout⟩ := sethigh_runsInTwo hs hp hc
  have word : fieldWord p 1 1 cur = new := fieldWord_pinBit pin cur
  refine ⟨s1, o, hread, hhist, word ▸ hwrite, fun q hq => ?_, fun hz q hq => ?_⟩
  · rw [hout q hq, Bool.or_assoc]
  · rw [hout q hq, State.setclrAnswer_of_zero hz]
    simp

/-- Settles O27: the pins the written word acts on are cleared; a read of 0 leaves the pin alone among them. -/
theorem setlowCompletes : Obligations.SetlowCompletes := by
  intro pin s hs hp hmax p a shift cur new hc
  obtain ⟨o, ⟨s1, hread, hhist, hwrite⟩, hout⟩ := setlow_runsInTwo hs hp hc
  have word : fieldWord p 1 1 cur = new := fieldWord_pinBit pin cur
  refine ⟨s1, o, hread, hhist, word ▸ hwrite, fun q hq => ?_, fun hz q hq => ?_⟩
  · rw [hout q hq, Bool.not_or]
    exact (Bool.and_assoc ..).symm
  · rw [hout q hq, State.setclrAnswer_of_zero hz]
    simp

/-- Settles O33: the second command starts with the same parameters and drives the same pin, whatever the first left there. -/
theorem laterSetOrClearWins : Obligations.LaterSetOrClearWins := by
  intro pin s hs hp hpin hset hclr
  refine ⟨?_, ?_⟩
  · obtain ⟨o, hfirst, hhigh⟩ := sethigh_runsInTwo hs hp hset
    obtain ⟨o', hsecond, hlow⟩ := setlow_runsInTwo (s := s.afterPins s.cfg.gpset0 (pin.setWidth 32) 1 1 o) rfl hp hclr
    exact ⟨_, _, hfirst.execFor_two, hsecond.execFor_two, (hhigh _ hpin).trans (by simp), (hlow _ hpin).trans (by simp)⟩
  · obtain ⟨o, hfirst, hlow⟩ := setlow_runsInTwo hs hp hclr
    obtain ⟨o', hsecond, hhigh⟩ := sethigh_runsInTwo (s := s.afterPins s.cfg.gpclr0 (pin.setWidth 32) 1 1 o) rfl hp hset
    exact ⟨_, _, hfirst.execFor_two, hsecond.execFor_two, (hlow _ hpin).trans (by simp), (hhigh _ hpin).trans (by simp)⟩

/-! ## ALT5 (R122, R123) -/

section
variable {pin : BitVec 8} {s : State}

/-- ALT5 on storage registers leaves what PULL none and then FSEL alt5 leave, with one answer. -/
theorem execFor_alt5_storage (hs : s.seq = .idle) (hp : pin.setWidth 32 ≤ s.cfg.maxPin)
    (hpull : s.cfg.classOf (regAddr s.cfg.gppuppdn0 (pin.setWidth 32) 2) = some .storage)
    (hfsel : s.cfg.classOf (regAddr s.cfg.gpfsel0 (pin.setWidth 32) 3) = some .storage) :
    execFor (.alt5 pin) 4 s = .next
      { (s.afterField s.cfg.gppuppdn0 (pin.setWidth 32) ((s.cfg.pullCode.code .none).setWidth 32) 2).afterField
          s.cfg.gpfsel0 (pin.setWidth 32) ((s.cfg.fselCode.code .alt5).setWidth 32) 3 with
        responses := s.responses ++ [0] } :=
  alt5IsPullThenFsel pin s _ _ hs hp ((onBank_pull s.cfg .none).runsInTwo_storage hs hp hpull).execFor_two
    (OnBank.runsInTwo_storage (s := s.afterField ..) (onBank_fsel s.cfg .alt5) rfl hp hfsel).execFor_two

/-- ALT5's first micro-step is the read of the pull register. -/
theorem exec_alt5_pullRead (hs : s.seq = .idle) (hp : pin.setWidth 32 ≤ s.cfg.maxPin)
    (hpull : s.cfg.classOf (regAddr s.cfg.gppuppdn0 (pin.setWidth 32) 2) = some .storage) :
    ∃ s1, exec (.alt5 pin) s = .next s1
      ∧ s1.hist = s.hist ++ [.read (regAddr s.cfg.gppuppdn0 (pin.setWidth 32) 2)
          (s.cell (regAddr s.cfg.gppuppdn0 (pin.setWidth 32) 2))] :=
  ⟨_, (exec_alt5_start hs hp).trans (alt5Access_pullRead hpull), rfl⟩

end

/-- Settles O28: the accesses are those of PULL none and then of FSEL alt5. -/
theorem alt5Completes : Obligations.Alt5Completes := by
  intro pin s hs hp p a1 sh1 c1 n1 a2 sh2 c2 n2 hpull hfsel
  obtain ⟨s1, hread, hhist⟩ := exec_alt5_pullRead hs hp hpull
  refine ⟨s1, hread, hhist, ?_⟩
  rw [← execFor_succ hread, execFor_alt5_storage hs hp hpull hfsel]
  have accesses : (s.hist ++ [.read a1 c1, .write a1 n1]) ++ [.read a2 c2, .write a2 n2]
      = s.hist ++ [.read a1 c1, .write a1 n1, .read a2 c2, .write a2 n2] := List.append_assoc ..
  rw [← accesses]
  rfl

/-- ALT5 on a pin in range with the default parameters: neither of its registers is unmapped (10_state.md R27, R31, R33). -/
theorem execFor_alt5_default {pin : BitVec 8} {s : State} (hcfg : s.cfg = Config.default) (hs : s.seq = .idle)
    (hpin : pin ≤ 57) :
    execFor (.alt5 pin) 4 s = .next
      { (s.afterField 0xFE2000E4 (pin.setWidth 32) (BitVec.setWidth 32 0b00#2) 2).afterField
          0xFE200000 (pin.setWidth 32) (BitVec.setWidth 32 0b010#3) 3 with
        responses := s.responses ++ [0] } := by
  obtain ⟨banks, gpfsel, -, -, gppuppdn, maxPin, -⟩ := defaultParametersReachTheBanks
  obtain ⟨hfsel, -, -, hpull⟩ := banks pin hpin
  rw [← hcfg] at gpfsel gppuppdn maxPin hfsel hpull
  have pullCode : s.cfg.pullCode.code .none = 0b00 := by rw [hcfg]; rfl
  have fselCode : s.cfg.fselCode.code .alt5 = 0b010 := by rw [hcfg]; rfl
  have hp : pin.setWidth 32 ≤ s.cfg.maxPin := by
    rw [maxPin, BitVec.le_def, BitVec.toNat_setWidth_of_le (by decide)]
    exact hpin
  have run := execFor_alt5_storage hs hp (gppuppdn ▸ hpull) (gpfsel ▸ hfsel)
  rwa [gpfsel, gppuppdn, pullCode, fselCode] at run

theorem State.withResponses_cell (s : State) (vs : List Word) (a : Word) :
    ({ s with responses := vs } : State).cell a = s.cell a := rfl

/-- Settles O29: PULL none and then FSEL alt5 each change one field, and the two lie in different registers. -/
theorem alt5EndState : Obligations.Alt5EndState := by
  intro pin s hcfg hwf hs hpin p
  refine ⟨_, execFor_alt5_default hcfg hs hpin, rfl, fun b j hj => ?_⟩
  rw [State.withResponses_cell,
    State.afterField_pin_getLsbD (k := p / 10) (lsb := 3 * (p % 10)) (State.afterField_cells_wf hwf)
      (setWidth_le_fieldMask 3 _) (by simp) rfl rfl b hj,
    State.afterField_pin_getLsbD (k := p / 16) (lsb := 2 * (p % 16)) hwf
      (setWidth_le_fieldMask 2 _) (by simp) rfl rfl b hj]
  simp only [BitVec.reduceToNat]
  by_cases inFsel : b.toNat = 0xFE200000 + 4 * (p / 10) ∧ 3 * (p % 10) ≤ j ∧ j < 3 * (p % 10) + 3
  · have hp : p ≤ 57 := hpin
    have notInPull : ¬ (b.toNat = 0xFE2000E4 + 4 * (p / 16) ∧ 2 * (p % 16) ≤ j ∧ j < 2 * (p % 16) + 2) := by omega
    rw [if_pos inFsel, if_neg notInPull, if_pos inFsel]
    rfl
  · rw [if_neg inFsel, if_neg inFsel, BitVec.setWidth_zero, BitVec.getLsbD_zero]

end Sys2Proof.Machine

/-! # The UART commands: the divisor, the checks, the polls and the texts (42_uart.md) -/

namespace Sys2Proof.Machine

/-! ## The divisor (R147) -/

/-- A clock below eight times the rate leaves the quotient 0, and 0 - 1 wraps. -/
theorem divisor_of_lt {c : Config} (h : c.uartClockHz < c.targetBaud * 8) : c.divisor = 0xFFFFFFFF := by
  have quotient : c.uartClockHz / (c.targetBaud * 8) = 0 := by
    apply BitVec.eq_of_toNat_eq
    rw [BitVec.toNat_udiv, Nat.div_eq_of_lt h]
    rfl
  rw [Config.divisor, quotient]
  rfl

/-- Settles O35: the default by evaluation, the formula by definition, the wrap by the quotient 0. -/
theorem divisorOfTheDefaultClock : Obligations.DivisorOfTheDefaultClock :=
  ⟨by decide, fun _ => rfl, fun _ => divisor_of_lt⟩

/-! ## The checks of `uart_state` (R146, R152, R156) -/

section
variable {s : State} {b : Byte} {buf : Word}

theorem exec_uinit_ready (hs : s.seq = .idle) (hu : s.uart = .ready) :
    exec .uinit s = faultWith .uartReinitialized (s.accept .uinit) := by
  show execUinit s = _
  unfold execUinit
  rw [hs, hu]

theorem exec_usend_uninitialized (hs : s.seq = .idle) (hu : s.uart = .uninitialized) :
    exec (.usend b) s = faultWith .uartNotInitialized (s.accept (.usend b)) := by
  show execUsend b s = _
  unfold execUsend
  rw [hs, hu]

theorem exec_utext_uninitialized (hs : s.seq = .idle) (hu : s.uart = .uninitialized) :
    exec (.utext buf) s = faultWith .uartNotInitialized (s.accept (.utext buf)) := by
  show execUtext buf s = _
  unfold execUtext
  rw [hs, hu]

end

/-- Settles O37: each command faults in the state of its acceptance. -/
theorem uartContractViolationsFault : Obligations.UartContractViolationsFault := by
  intro s b buf hs
  exact ⟨exec_uinit_ready hs, fun hu => ⟨exec_usend_uninitialized hs hu, exec_utext_uninitialized hs hu⟩⟩

/-! ## The transmit-ready poll (R149, R150) -/

theorem txReady_eq_true_iff (c : Config) (lsr : Word) : txReady c lsr = true ↔ lsr &&& c.lsrTxReadyMask ≠ 0 :=
  bne_iff_ne

/-- Settles O38: the one line-status read is the command's first access and its last. -/
theorem urdyCompletes : Obligations.UrdyCompletes := by
  intro s hs hc lsr
  have answer : readyWord s.cfg lsr = if lsr &&& s.cfg.lsrTxReadyMask ≠ 0 then 1 else 0 := by
    simp only [readyWord, txReady_eq_true_iff]
  rw [exec_urdy hs hc, ← answer]
  rfl

/-- The state after `n` line-status reads, the sequencer at `q`. -/
def State.afterPolls (s : State) (n : Nat) (q : Seq) : State :=
  { s.afterDraws n with
    seq := q
    hist := s.hist ++ (List.range n).map fun k => .read (s.cfg.aux .lsr) (s.futureDraw k) }

/-- Command `i` polls the line status where the sequencer stands at `again`, and goes on at `ready`. -/
def PollsAt (i : Instr) (ready again : Seq) : Prop :=
  ∀ s : State, s.seq = again → exec i s = pollTxReady ready again s

theorem pollsAt_usend (b : Byte) : PollsAt (.usend b) .sendWrite .sendPoll := fun _ => exec_usend_poll

theorem pollsAt_utext_cr (buf p : Word) : PollsAt (.utext buf) (.textWriteCr p) (.textPollCr p) :=
  fun _ => exec_utext_pollCr

theorem pollsAt_utext (buf p : Word) (b : Byte) : PollsAt (.utext buf) (.textWrite p b) (.textPoll p b) :=
  fun _ => exec_utext_poll

section
variable {i : Instr} {s : State} {ready again : Seq} {n : Nat}

theorem State.afterPolls_zero (hs : s.seq = again) : s.afterPolls 0 again = s := by
  simp [State.afterPolls, ← hs]

/-- One more line-status read. -/
theorem State.afterPolls_succ (q r : Seq) : (s.afterPolls n q).afterPolls 1 r = s.afterPolls (n + 1) r := by
  have draw : (s.afterPolls n q).futureDraw 0 = s.futureDraw n := State.futureDraw_afterDraws s n 0
  calc (s.afterPolls n q).afterPolls 1 r
      = { (s.afterDraws n).afterDraws 1 with
          seq := r
          hist := (s.afterPolls n q).hist ++ [.read (s.cfg.aux .lsr) ((s.afterPolls n q).futureDraw 0)] } := rfl
    _ = s.afterPolls (n + 1) r := by
      rw [State.afterDraws_afterDraws, draw]
      simp [State.afterPolls, List.range_succ]

theorem pollTxReady_eq_afterPolls (h : s.cfg.classOf (s.cfg.aux .lsr) = some .status) :
    pollTxReady ready again s = .next (s.afterPolls 1 (if txReady s.cfg (s.futureDraw 0) then ready else again)) :=
  pollTxReady_status h

/-- One micro-step of the poll reads the line status once. -/
theorem PollsAt.exec_eq (hx : PollsAt i ready again) (hs : s.seq = again)
    (h : s.cfg.classOf (s.cfg.aux .lsr) = some .status) :
    exec i s = .next (s.afterPolls 1 (if txReady s.cfg (s.futureDraw 0) then ready else again)) :=
  (hx s hs).trans (pollTxReady_eq_afterPolls h)

theorem execFor_one (i : Instr) (s : State) : execFor i 1 s = exec i s := by
  rw [execFor]
  cases exec i s <;> rfl

/-- One poll more than those so far. -/
theorem PollsAt.exec_afterPolls (hx : PollsAt i ready again) (h : s.cfg.classOf (s.cfg.aux .lsr) = some .status) :
    exec i (s.afterPolls n again)
      = .next (s.afterPolls (n + 1) (if txReady s.cfg (s.futureDraw n) then ready else again)) := by
  have draw : (s.afterPolls n again).futureDraw 0 = s.futureDraw n := State.futureDraw_afterDraws s n 0
  rw [hx.exec_eq rfl (by exact h), draw, State.afterPolls_succ]
  rfl

section
variable (hx : PollsAt i ready again) (hs : s.seq = again) (h : s.cfg.classOf (s.cfg.aux .lsr) = some .status)
  (hn : ∀ k, k < n → txReady s.cfg (s.futureDraw k) = false)
include hx hs h hn

/-- While the answers are not ready the poll repeats (R150, R178). -/
theorem PollsAt.execFor_notReady : execFor i n s = .next (s.afterPolls n again) := by
  induction n with
  | zero => rw [State.afterPolls_zero hs]; rfl
  | succ n ih =>
    rw [execFor_add (ih fun k hk => hn k (Nat.lt_succ_of_lt hk)), execFor_one, hx.exec_afterPolls h,
      hn n (Nat.lt_succ_self n)]
    rfl

/-- The first ready answer ends the poll (R150). -/
theorem PollsAt.execFor_ready (hr : txReady s.cfg (s.futureDraw n) = true) :
    execFor i (n + 1) s = .next (s.afterPolls (n + 1) ready) := by
  rw [execFor_add (hx.execFor_notReady hs h hn), execFor_one, hx.exec_afterPolls h, hr, if_pos rfl]

end

end

/-- Settles O40: the three polls are one shared operation. -/
theorem pollLoopReadsOncePerStep : Obligations.PollLoopReadsOncePerStep := by
  intro b buf p s hc lsr polled
  have poll {i : Instr} {ready again : Seq} (hx : PollsAt i ready again) (hs : s.seq = again) :
      exec i s = .next (polled ready again) := by
    rw [hx.exec_eq hs hc]
    simp only [txReady_eq_true_iff]
    rfl
  exact ⟨poll (pollsAt_usend b), poll (pollsAt_utext_cr buf p), poll (pollsAt_utext buf p b)⟩

/-! ## USEND (R152, R153) -/

section
variable {s : State} {b : Byte}

/-- The byte sent is the low byte of the word written. -/
theorem setWidth_byte_word (b : Byte) : (b.setWidth 32).setWidth 8 = b := by
  rw [BitVec.setWidth_setWidth_of_le _ (by decide), BitVec.setWidth_eq]

/-- An accepted USEND stands at its poll: where the sequencer stood before does not show after the read. -/
theorem exec_usend_accepted (hs : s.seq = .idle) (hu : s.uart = .ready)
    (h : s.cfg.classOf (s.cfg.aux .lsr) = some .status) :
    exec (.usend b) s = exec (.usend b) ((s.accept (.usend b)).goto .sendPoll) := by
  rw [exec_usend_start hs hu, exec_usend_poll rfl, pollTxReady_eq_afterPolls (by exact h),
    pollTxReady_eq_afterPolls (by exact h)]
  rfl

end

theorem execFor_succ_congr {i : Instr} {s u : State} (h : exec i s = exec i u) (n : Nat) :
    execFor i (n + 1) s = execFor i (n + 1) u := by
  rw [execFor, execFor, h]

/-- Settles O39: the polls run from the accepted command, and the write follows the ready answer. -/
theorem usendCompletesAfterPolls : Obligations.UsendCompletesAfterPolls := by
  intro b n s hs hu ⟨hlsr, hio⟩ hn hr
  let s0 := (s.accept (.usend b)).goto .sendPoll
  have polls : execFor (.usend b) (n + 1) s = .next (s0.afterPolls (n + 1) .sendWrite) :=
    (execFor_succ_congr (exec_usend_accepted hs hu hlsr) n).trans
      ((pollsAt_usend b).execFor_ready (s := s0) rfl hlsr hn hr)
  have write : execFor (.usend b) (n + 2) s = _ :=
    (execFor_add polls).trans ((execFor_one _ _).trans ((exec_usend_write rfl).trans (memWrite_txData (by exact hio))))
  obtain ⟨s1, h1, hrest⟩ := exec_of_execFor_succ write
  refine ⟨s1, h1, hrest.trans ?_⟩
  rw [setWidth_byte_word]
  rfl

/-! ## Progress of a text (R154 to R157) -/

/-- From `s` to `t` the unit sent the bytes `bs`, read the bytes at the addresses `as`, took draws, moved the sequencer, and did
nothing else. -/
structure Progress (s t : State) (bs : List Byte) (as : List Word) : Prop where
  cfg : t.cfg = s.cfg
  uart : t.uart = s.uart
  fault : t.fault = s.fault
  refusal : t.refusal = s.refusal
  out : t.out = s.out
  cells : t.cells = s.cells
  bufmem : t.bufmem = s.bufmem
  cmdPort : t.cmdPort = s.cmdPort
  responses : t.responses = s.responses
  tx : t.tx = s.tx ++ bs
  hist : ∃ es, t.hist = s.hist ++ es ∧ es.filterMap byteReadAddr = as

section
variable {s t u : State} {bs cs : List Byte} {as ds : List Word} {n : Nat}

theorem Progress.refl (s : State) : Progress s s [] [] :=
  ⟨rfl, rfl, rfl, rfl, rfl, rfl, rfl, rfl, rfl, by simp, ⟨[], by simp, rfl⟩⟩

theorem Progress.trans (h : Progress s t bs as) (h' : Progress t u cs ds) : Progress s u (bs ++ cs) (as ++ ds) where
  cfg := h'.cfg.trans h.cfg
  uart := h'.uart.trans h.uart
  fault := h'.fault.trans h.fault
  refusal := h'.refusal.trans h.refusal
  out := h'.out.trans h.out
  cells := h'.cells.trans h.cells
  bufmem := h'.bufmem.trans h.bufmem
  cmdPort := h'.cmdPort.trans h.cmdPort
  responses := h'.responses.trans h.responses
  tx := by rw [h'.tx, h.tx, List.append_assoc]
  hist := by
    obtain ⟨es, he, ha⟩ := h.hist
    obtain ⟨fs, hf, hd⟩ := h'.hist
    exact ⟨es ++ fs, by rw [hf, he, List.append_assoc], by rw [List.filterMap_append, ha, hd]⟩

/-- A byte read, wherever the sequencer goes. -/
theorem Progress.byteRead (s : State) (p : Word) (b : Byte) (q : Seq) :
    Progress s ((s.record (.byteRead p b)).goto q) [] [p] :=
  ⟨rfl, rfl, rfl, rfl, rfl, rfl, rfl, rfl, rfl, (List.append_nil _).symm, ⟨_, rfl, rfl⟩⟩

/-- Line-status reads read no byte of the text. -/
theorem Progress.afterPolls (s : State) (n : Nat) (q : Seq) : Progress s (s.afterPolls n q) [] [] :=
  ⟨rfl, rfl, rfl, rfl, rfl, rfl, rfl, rfl, rfl, (List.append_nil _).symm,
    ⟨_, rfl, by simp [byteReadAddr, List.filterMap_map]⟩⟩

/-- The state after the byte `b` is written to the data register, the sequencer at `q` (10_state.md R37). -/
def State.sent (s : State) (b : Byte) (q : Seq) : State :=
  ({ s with tx := s.tx ++ [b] }.record (.write (s.cfg.aux .io) (b.setWidth 32))).goto q

theorem Progress.sent (s : State) (b : Byte) (q : Seq) : Progress s (s.sent b q) [b] [] :=
  ⟨rfl, rfl, rfl, rfl, rfl, rfl, rfl, rfl, rfl, rfl, ⟨_, rfl, rfl⟩⟩

theorem Progress.readable (h : Progress s t bs as) (a : Word) : t.readable a = s.readable a := by
  rw [State.readable, h.cfg, h.bufmem]
  rfl

theorem Progress.hasBytes (h : Progress s t bs as) {text : List Byte} {p : Word} (hb : s.HasBytes p text) :
    t.HasBytes p text := by
  induction text generalizing p with
  | nil => trivial
  | cons b text ih =>
    obtain ⟨h0, hp, hb⟩ := hb
    exact ⟨h0, (h.readable p).trans hp, ih hb⟩

/-! ## Enough ready polls (R151) -/

/-- Where one poll more of those to come reads ready, some poll is the first to do so. -/
theorem State.TxReadyTimes.exists_first {m : Nat} (h : s.TxReadyTimes (m + 1)) :
    ∃ n, (∀ k, k < n → txReady s.cfg (s.futureDraw k) = false) ∧ txReady s.cfg (s.futureDraw n) = true
      ∧ (s.afterDraws (n + 1)).TxReadyTimes m := by
  obtain ⟨N, hN⟩ := h
  induction N generalizing s with
  | zero => simp at hN
  | succ N ih =>
    have later : ((List.range N).countP fun k => txReady s.cfg (s.futureDraw (k + 1)))
        = (List.range N).countP fun k => txReady (s.afterDraws 1).cfg ((s.afterDraws 1).futureDraw k) := by
      simp only [State.futureDraw_afterDraws, Nat.add_comm 1, State.afterDraws_cfg]
    rw [List.range_succ_eq_map, List.countP_cons, List.countP_map] at hN
    have hN : m + 1 ≤ ((List.range N).countP fun k => txReady s.cfg (s.futureDraw (k + 1)))
      + if txReady s.cfg (s.futureDraw 0) = true then 1 else 0 := hN
    rw [later] at hN
    cases h0 : txReady s.cfg (s.futureDraw 0) with
    | true =>
      rw [h0, if_pos rfl] at hN
      exact ⟨0, fun k hk => absurd hk (Nat.not_lt_zero k), h0, N, Nat.le_of_succ_le_succ hN⟩
    | false =>
      rw [h0, if_neg (by simp)] at hN
      obtain ⟨n, hn, hr, hm⟩ := ih hN
      simp only [State.futureDraw_afterDraws, Nat.add_comm 1, State.afterDraws_cfg] at hn hr
      refine ⟨n + 1, fun k hk => ?_, hr, ?_⟩
      · cases k with
        | zero => exact h0
        | succ k => exact hn k (Nat.lt_of_succ_lt_succ hk)
      · rwa [State.afterDraws_afterDraws, Nat.add_comm 1] at hm

/-! ## Sending one byte (R150, R156) -/

/-- Command `i` writes the byte `b` to the data register where the sequencer stands at `ready`, and goes on at `next`. -/
def SendsAt (i : Instr) (ready : Seq) (b : Byte) (next : Seq) : Prop :=
  ∀ s : State, s.seq = ready →
    exec i s = memWrite (s.cfg.aux .io) (b.setWidth 32) s fun s' => .next (s'.goto next)

theorem sendsAt_utext_cr (buf p : Word) : SendsAt (.utext buf) (.textWriteCr p) 0x0D (.textPoll p 0x0A) :=
  fun _ => exec_utext_writeCr

theorem sendsAt_utext (buf p : Word) (b : Byte) : SendsAt (.utext buf) (.textWrite p b) b (.textRead (p + 1)) :=
  fun _ => exec_utext_write

theorem SendsAt.exec_eq {i : Instr} {ready next : Seq} {b : Byte} (hx : SendsAt i ready b next) (hs : s.seq = ready)
    (h : s.cfg.classOf (s.cfg.aux .io) = some .txData) : exec i s = .next (s.sent b next) := by
  rw [hx s hs, memWrite_txData h, setWidth_byte_word]
  rfl

/-- Some micro-steps of command `i` lead from `s` to a state at `q` that has sent `bs`, with `m` ready polls still to come. -/
def Sends (i : Instr) (s : State) (bs : List Byte) (q : Seq) (m : Nat) : Prop :=
  ∃ n t, execFor i n s = .next t ∧ t.seq = q ∧ Progress s t bs [] ∧ t.TxReadyTimes m

theorem Sends.trans {i : Instr} {q r : Seq} {m k : Nat} (h : Sends i s bs q m)
    (h' : ∀ t, t.seq = q → t.cfg = s.cfg → t.TxReadyTimes m → Sends i t cs r k) : Sends i s (bs ++ cs) r k := by
  obtain ⟨n, t, hn, hq, hp, hm⟩ := h
  obtain ⟨n', u, hn', hr, hp', hk⟩ := h' t hq hp.cfg hm
  exact ⟨n + n', u, (execFor_add hn).trans hn', hr, hp.trans hp', hk⟩

/-- The poll goes on until a ready answer, and the byte follows. -/
theorem sends_byte {i : Instr} {ready again next : Seq} {b : Byte} {m : Nat} (hp : PollsAt i ready again)
    (hw : SendsAt i ready b next) (hs : s.seq = again) (hu : s.cfg.HasUart) (hm : s.TxReadyTimes (m + 1)) :
    Sends i s [b] next m := by
  obtain ⟨hlsr, hio⟩ := hu
  obtain ⟨n, hn, hr, hm⟩ := hm.exists_first
  refine ⟨n + 1 + 1, (s.afterPolls (n + 1) ready).sent b next, ?_, rfl,
    (Progress.afterPolls ..).trans (Progress.sent ..), hm⟩
  rw [execFor_add (hp.execFor_ready hs hlsr hn hr), execFor_one]
  exact hw.exec_eq rfl hio

end

/-! ## One byte of a text (R154, R155) -/

/-- The first `n` byte addresses from `p` on; they wrap at the end of the address space (20_memory.md R59). -/
def addressesFrom (p : Word) (n : Nat) : List Word := (List.range n).map fun k => p + BitVec.ofNat 32 k

theorem add_one_add_ofNat (p : Word) (k : Nat) : p + 1 + BitVec.ofNat 32 k = p + BitVec.ofNat 32 (k + 1) := by
  rw [BitVec.add_assoc, Nat.add_comm k, BitVec.ofNat_add]
  rfl

theorem addressesFrom_succ (p : Word) (n : Nat) : addressesFrom p (n + 1) = p :: addressesFrom (p + 1) n := by
  simp only [addressesFrom, List.range_succ_eq_map, List.map_cons, List.map_map, add_one_add_ofNat]
  simp [Function.comp_def]

theorem addressesFrom_concat (p : Word) (n : Nat) :
    addressesFrom p (n + 1) = addressesFrom p n ++ [p + BitVec.ofNat 32 n] := by
  simp [addressesFrom, List.range_succ]

theorem crlf_lineFeed (text : List Byte) : crlf (0x0A :: text) = 0x0D :: 0x0A :: crlf text := if_pos rfl

theorem crlf_char {b : Byte} (hb : b ≠ 0x0A) (text : List Byte) : crlf (b :: text) = b :: crlf text := if_neg hb

theorem crlf_cons (b : Byte) (text : List Byte) : crlf (b :: text) = crlf [b] ++ crlf text := by
  by_cases hb : b = 0x0A
  · rw [hb, crlf_lineFeed, crlf_lineFeed]
    rfl
  · rw [crlf_char hb, crlf_char hb]
    rfl

/-- Where UTEXT goes on after it read the byte `b` at `p`. -/
def afterByte (p : Word) (b : Byte) : Seq := if b = 0x0A then .textPollCr p else .textPoll p b

section
variable {s u : State} {buf p : Word} {b : Byte} {text : List Byte} {m : Nat}

theorem textByte_char (hp : u.readable p = some b) (hb : b ≠ 0) :
    textByte p u = .next ((u.record (.byteRead p b)).goto (afterByte p b)) := by
  rw [textByte, byteRead_readable hp, if_neg hb, afterByte]
  split <;> rfl

theorem textByte_terminator (hp : u.readable p = some 0) :
    textByte p u = .next ((u.record (.byteRead p 0)).respond 0) := by
  rw [textByte, byteRead_readable hp, if_pos rfl]

theorem textByte_unreadable (hp : u.readable p = none) : textByte p u = faultWith (.unmapped p) u :=
  byteRead_unreadable hp

/-- A byte that was read is sent, a line feed after a carriage return (R154). -/
theorem sends_translated_byte (hs : s.seq = afterByte p b) (hu : s.cfg.HasUart)
    (hm : s.TxReadyTimes ((crlf [b]).length + m)) : Sends (.utext buf) s (crlf [b]) (.textRead (p + 1)) m := by
  by_cases hb : b = 0x0A
  · subst hb
    have hm : s.TxReadyTimes (m + 1 + 1) := by rwa [Nat.add_comm] at hm
    exact (sends_byte (pollsAt_utext_cr buf p) (sendsAt_utext_cr buf p) hs hu hm).trans fun t ht hc hm =>
      sends_byte (pollsAt_utext buf p 0x0A) (sendsAt_utext buf p 0x0A) ht (hc ▸ hu) hm
  · have single : crlf [b] = [b] := crlf_char hb []
    rw [single, Nat.add_comm] at hm
    rw [single]
    exact sends_byte (pollsAt_utext buf p b) (sendsAt_utext buf p b) (hs.trans (if_neg hb)) hu hm

/-- UTEXT about to read the first byte of a text reads and sends every byte of it, and is then about to read the byte after it.
The read at `p` is made in the state `u`: that of the acceptance at the first byte, and `s` itself later. -/
theorem utext_sends_bytes (hx : exec (.utext buf) s = textByte p u) (hu : u.cfg.HasUart) (hb : u.HasBytes p text)
    (hm : u.TxReadyTimes (crlf text).length) :
    ∃ n s' u', execFor (.utext buf) n s = .next s'
      ∧ exec (.utext buf) s' = textByte (p + BitVec.ofNat 32 text.length) u'
      ∧ Progress u u' (crlf text) (addressesFrom p text.length) := by
  induction text generalizing s u p with
  | nil => exact ⟨0, s, u, rfl, by simpa using hx, .refl u⟩
  | cons b text ih =>
    obtain ⟨h0, hp, hb⟩ := hb
    rw [textByte_char hp h0] at hx
    rw [crlf_cons, List.length_append] at hm
    have read := Progress.byteRead u p b (afterByte p b)
    obtain ⟨n, t, hn, ht, sent, hm⟩ := sends_translated_byte (buf := buf)
      (s := (u.record (.byteRead p b)).goto (afterByte p b)) rfl hu hm
    have first := read.trans sent
    obtain ⟨n', s', u', hn', hx', rest⟩ := ih (exec_utext_read ht) (first.cfg ▸ hu) (first.hasBytes hb) hm
    refine ⟨n + 1 + n', s', u', ?_, ?_, ?_⟩
    · rw [execFor_add ((execFor_succ hx).trans hn), hn']
    · rwa [List.length_cons, ← add_one_add_ofNat]
    · rw [crlf_cons, List.length_cons, addressesFrom_succ]
      exact first.trans rest

/-- UTEXT of a text on a ready UART comes to the byte after the text, everything before it sent. -/
theorem utext_reaches_end (hs : s.seq = .idle) (hr : s.uart = .ready) (hu : s.cfg.HasUart) (hb : s.HasBytes buf text)
    (hm : s.TxReadyTimes (crlf text).length) :
    ∃ n s' u', execFor (.utext buf) n s = .next s'
      ∧ exec (.utext buf) s' = textByte (buf + BitVec.ofNat 32 text.length) u'
      ∧ Progress (s.accept (.utext buf)) u' (crlf text) (addressesFrom buf text.length) := by
  have accepted : Progress s (s.accept (.utext buf)) [] [] :=
    ⟨rfl, rfl, rfl, rfl, rfl, rfl, rfl, rfl, rfl, (List.append_nil _).symm, ⟨[], (List.append_nil _).symm, rfl⟩⟩
  exact utext_sends_bytes (exec_utext_start hs hr) hu (accepted.hasBytes hb) hm

end

/-- Settles O42: the first byte read is the terminator. -/
theorem utextOfTheEmptyText : Obligations.UtextOfTheEmptyText := by
  intro buf s hs hu hp
  exact (exec_utext_start hs hu).trans (textByte_terminator hp)

/-- Settles O43: after the bytes of the text the terminator is read, and the command answers. -/
theorem utextSendsTheTranslatedText : Obligations.UtextSendsTheTranslatedText := by
  intro buf text s hs hr hu ⟨hb, hend⟩ hm
  obtain ⟨n, s', u, hn, hx, hp⟩ := utext_reaches_end hs hr hu hb hm
  rw [textByte_terminator ((hp.readable _).trans hend)] at hx
  obtain ⟨s1, h1, hrest⟩ := exec_of_execFor_succ ((execFor_add hn).trans ((execFor_one _ _).trans hx))
  obtain ⟨es, hist, addrs⟩ := hp.hist
  refine ⟨s1, h1, n, _, es ++ [.byteRead (buf + BitVec.ofNat 32 text.length) 0], hrest, rfl, rfl, rfl, ?_, hp.tx, ?_, ?_,
    hp.cfg, hp.uart, hp.cells, hp.out, hp.bufmem, hp.cmdPort, hp.fault, hp.refusal⟩
  · rw [State.respond_responses, State.record_responses, hp.responses]
    rfl
  · rw [State.respond_hist, State.record_hist, hist, List.append_assoc]
    rfl
  · rw [List.filterMap_append, addrs]
    exact (addressesFrom_concat ..).symm

/-- Settles O44: after the bytes of the text the read of the next byte faults. -/
theorem utextFaultsAtAnUnreadableByte : Obligations.UtextFaultsAtAnUnreadableByte := by
  intro buf text s hs hr hu hb hend hm
  obtain ⟨n, s', u, hn, hx, hp⟩ := utext_reaches_end hs hr hu hb hm
  rw [textByte_unreadable ((hp.readable _).trans hend)] at hx
  exact ⟨n + 1, _, (execFor_add hn).trans ((execFor_one _ _).trans hx), rfl, hp.tx, hp.responses⟩

/-! ## The frame of URDY, USEND and UTEXT (R149, R152, R156) -/

/-- Between `s` and `t` the transmit stream gained the byte `b`; the registers and the pin latches stayed. -/
structure SentByte (s t : State) (b : Byte) : Prop where
  cells : t.cells = s.cells
  out : t.out = s.out
  tx : t.tx = s.tx ++ [b]

/-- The positions at which USEND or UTEXT writes the data register. -/
def Seq.writesData : Seq → Bool
  | .sendWrite => true
  | .textWriteCr _ => true
  | .textWrite _ _ => true
  | _ => false

/-- The ways a micro-step of URDY, USEND or UTEXT answers a next state. -/
inductive TransmitCase (i : Instr) (s t : State) : Prop where
  /-- It reads the line status or a byte of the text. -/
  | reads (position : s.seq.writesData = false) (same : SameDevice s t)
  /-- USEND sends its byte. -/
  | byte (b : Byte) (command : i = .usend b) (position : s.seq = .sendWrite) (sent : SentByte s t b)
  /-- UTEXT sends a carriage return. -/
  | carriageReturn (p : Word) (position : s.seq = .textWriteCr p) (sent : SentByte s t 0x0D)
  /-- UTEXT sends the byte it read. -/
  | textByte (p : Word) (b : Byte) (position : s.seq = .textWrite p b) (sent : SentByte s t b)

section
variable {i : Instr} {s t : State}

theorem NoAccess.sameDevice (h : NoAccess s t) : SameDevice s t := ⟨h.cells, h.out, h.tx⟩

theorem SameDevice.goto (h : SameDevice s t) (q : Seq) : SameDevice s (t.goto q) := ⟨h.cells, h.out, h.tx⟩

theorem SameDevice.respond (h : SameDevice s t) (v : Word) : SameDevice s (t.respond v) := ⟨h.cells, h.out, h.tx⟩

theorem pollTxReady_sameDevice {q r : Seq} (h : pollTxReady q r s = .next t) : SameDevice s t := by
  obtain ⟨u, s', rfl, -, he⟩ := pollTxReady_next h
  exact he.sameDevice.goto _

theorem textByte_sameDevice {p : Word} (h : textByte p s = .next t) : SameDevice s t := by
  obtain ⟨b, s', -, he, ht⟩ := textByte_next h
  have read : SameDevice s s' := ⟨he.cells, he.out, he.tx.trans (List.append_nil _)⟩
  obtain rfl | rfl | rfl := ht
  · exact read.respond 0
  · exact read.goto _
  · exact read.goto _

theorem SentByte.goto {b : Byte} (h : SentByte s t b) (q : Seq) : SentByte s (t.goto q) b := ⟨h.cells, h.out, h.tx⟩

theorem SentByte.respond {b : Byte} (h : SentByte s t b) (v : Word) : SentByte s (t.respond v) b := ⟨h.cells, h.out, h.tx⟩

/-- A write to the data register sends the low byte of the word (10_state.md R37). -/
theorem memWrite_sentByte {b : Byte} {j : State → Out} (hu : s.cfg.HasUart)
    (h : memWrite (s.cfg.aux .io) (b.setWidth 32) s j = .next t) : ∃ s', j s' = .next t ∧ SentByte s s' b := by
  obtain ⟨-, hio⟩ := hu
  rw [memWrite_txData hio, setWidth_byte_word] at h
  exact ⟨_, h, ⟨rfl, rfl, rfl⟩⟩

theorem exec_urdy_cases (h : exec .urdy s = .next t) : TransmitCase .urdy s t := by
  change execUrdy s = .next t at h
  unfold execUrdy at h
  split at h
  · next hs =>
    obtain ⟨u, s', hk, -, he⟩ := memRead_next h
    cases hk
    exact .reads (by rw [hs]; rfl) (SameDevice.of_accept (he.sameDevice.respond _))
  · cases h

theorem exec_usend_cases {b : Byte} (hu : s.cfg.HasUart) (h : exec (.usend b) s = .next t) :
    TransmitCase (.usend b) s t := by
  change execUsend b s = .next t at h
  unfold execUsend at h
  split at h
  · next hs =>
    split at h
    · exact (faultWith_ne_next _ _ _ h).elim
    · exact .reads (by rw [hs]; rfl) (pollTxReady_sameDevice h).of_accept
  · next hs => exact .reads (by rw [hs]; rfl) (pollTxReady_sameDevice h)
  · next hs =>
    obtain ⟨s', hk, sent⟩ := memWrite_sentByte hu h
    cases hk
    exact .byte b rfl hs (sent.respond 0)
  · cases h

theorem exec_utext_cases {buf : Word} (hu : s.cfg.HasUart) (h : exec (.utext buf) s = .next t) :
    TransmitCase (.utext buf) s t := by
  change execUtext buf s = .next t at h
  unfold execUtext at h
  split at h
  · next hs =>
    split at h
    · exact (faultWith_ne_next _ _ _ h).elim
    · exact .reads (by rw [hs]; rfl) (textByte_sameDevice h).of_accept
  · next p hs => exact .reads (by rw [hs]; rfl) (textByte_sameDevice h)
  · next p hs => exact .reads (by rw [hs]; rfl) (pollTxReady_sameDevice h)
  · next p hs =>
    obtain ⟨s', hk, sent⟩ := memWrite_sentByte (b := 0x0D) hu h
    cases hk
    exact .carriageReturn p hs (sent.goto _)
  · next p b hs => exact .reads (by rw [hs]; rfl) (pollTxReady_sameDevice h)
  · next p b hs =>
    obtain ⟨s', hk, sent⟩ := memWrite_sentByte hu h
    cases hk
    exact .textByte p b hs (sent.goto _)
  · cases h

end

/-- Settles O46: a micro-step reads, or makes one of the three writes of the data register. -/
theorem transmitCommandFrame : Obligations.TransmitCommandFrame := by
  intro i s t hi hu h
  have key : i ≠ .uinit ∧ TransmitCase i s t := by
    obtain rfl | ⟨b, rfl⟩ | ⟨buf, rfl⟩ := hi
    · exact ⟨by simp, exec_urdy_cases h⟩
    · exact ⟨by simp, exec_usend_cases hu h⟩
    · exact ⟨by simp, exec_utext_cases hu h⟩
  obtain ⟨hne, hc⟩ := key
  obtain ⟨-, he⟩ := exec_next h
  have uart : t.uart = s.uart := he.uart.resolve_right fun h => hne h.1
  have frame (cells : t.cells = s.cells) (out : t.out = s.out) {P : Prop} (hp : P) :
      t.cells = s.cells ∧ t.out = s.out ∧ t.uart = s.uart ∧ t.cfg = s.cfg ∧ t.bufmem = s.bufmem ∧ t.cmdPort = s.cmdPort
        ∧ t.fault = s.fault ∧ t.refusal = s.refusal ∧ P :=
    ⟨cells, out, uart, he.cfg, he.bufmem, he.cmdPort, he.fault, he.refusal, hp⟩
  cases hc with
  | reads position same =>
    refine frame same.cells same.out (.inr (.inr (.inr ⟨fun p hq => ?_, fun p b hq => ?_, fun hq => ?_, same.tx⟩)))
    all_goals rw [hq] at position; cases position
  | byte b command position sent => exact frame sent.cells sent.out (.inl ⟨b, command, position, sent.tx⟩)
  | carriageReturn p position sent => exact frame sent.cells sent.out (.inr (.inl ⟨p, position, sent.tx⟩))
  | textByte p b position sent => exact frame sent.cells sent.out (.inr (.inr (.inl ⟨p, b, position, sent.tx⟩)))

/-! ## What a fault keeps (R144) -/

/-- The state a fault carries. -/
def Fault.final : Fault → State
  | .unmapped _ t => t
  | .uartNotInitialized t => t
  | .uartReinitialized t => t

/-- The fault is raised in the state `u`: its final state is `u` but for the mark (60_exceptions.md R172). -/
def RaisedIn (u : State) (r : Fault) : Prop := ∃ k, faultWith k u = .fault r

section
variable {i : Instr} {s t u : State} {r : Fault} {a v : Word}

theorem RaisedIn.final_eq (h : RaisedIn u r) : ∃ k, r.final = { u with fault := some k } := by
  obtain ⟨k, hk⟩ := h
  refine ⟨k, ?_⟩
  cases k <;> cases hk <;> rfl

@[simp] theorem refuseWith_ne_fault (k : RefusalKind) (s : State) (r : Fault) : refuseWith k s ≠ .fault r := by
  cases k <;> simp [refuseWith]

/-! A bus primitive faults before its access, where what follows it does not fault. -/

theorem memRead_fault {k : Word → State → Out} (hk : ∀ u s', k u s' ≠ .fault r) (h : memRead a s k = .fault r) :
    RaisedIn s r := by
  unfold memRead at h
  split at h
  · exact ⟨_, h⟩
  · exact (hk _ _ h).elim
  · exact (hk _ _ h).elim
  · exact (hk _ _ h).elim
  · exact (hk _ _ h).elim
  · exact (refuseWith_ne_fault _ _ _ h).elim
  · exact (refuseWith_ne_fault _ _ _ h).elim

theorem memWrite_fault {j : State → Out} (hj : ∀ s', j s' ≠ .fault r) (h : memWrite a v s j = .fault r) :
    RaisedIn s r := by
  unfold memWrite at h
  split at h
  · exact ⟨_, h⟩
  · exact (hj _ h).elim
  · exact (hj _ h).elim
  · exact (hj _ h).elim
  · exact (hj _ h).elim
  · exact (hj _ h).elim
  · exact (refuseWith_ne_fault _ _ _ h).elim

theorem byteRead_fault {q : Byte → State → Out} (hq : ∀ b s', q b s' ≠ .fault r) (h : byteRead a s q = .fault r) :
    RaisedIn s r := by
  cases hr : s.readable a with
  | none => rw [byteRead_unreadable hr] at h; exact ⟨_, h⟩
  | some b => rw [byteRead_readable hr] at h; exact (hq _ _ h).elim

theorem fieldRead_fault {bank index : Word} {w : BitVec 2} (h : fieldRead bank index w s = .fault r) : RaisedIn s r :=
  memRead_fault (fun _ _ => by simp) h

theorem fieldWrite_fault {bank index value cur : Word} {w : BitVec 2}
    (h : fieldWrite bank index value w cur s = .fault r) : RaisedIn s r :=
  memWrite_fault (fun _ => by simp) h

theorem pollTxReady_fault {q q' : Seq} (h : pollTxReady q q' s = .fault r) : RaisedIn s r :=
  memRead_fault (fun _ _ => by simp) h

theorem textByte_fault {p : Word} (h : textByte p s = .fault r) : RaisedIn s r := by
  refine byteRead_fault (fun b s' => ?_) h
  split
  · simp
  · split <;> simp

theorem alt5Access_fault {pin : BitVec 8} {m : Alt5Step} {more : Alt5Step → State → Out} {done : State → Out}
    (hm : ∀ m' s', more m' s' ≠ .fault r) (hd : ∀ s', done s' ≠ .fault r)
    (h : alt5Access pin m s more done = .fault r) : RaisedIn s r := by
  cases m <;> simp only [alt5Access] at h
  case pullRead | fselRead => exact memRead_fault (fun _ _ => hm _ _) h
  case pullWrite cur => exact memWrite_fault (fun _ => hm _ _) h
  case fselWrite cur => exact memWrite_fault hd h

theorem initAfter_ne_fault (rest : List InitStep) (s : State) (r : Fault) : initAfter rest s ≠ .fault r := by
  cases rest <;> simp [initAfter]

theorem initAccess_fault {todo : List InitStep} {m : Alt5Step} (h : initAccess todo m s = .fault r) : RaisedIn s r := by
  unfold initAccess at h
  split at h
  · exact (initAfter_ne_fault _ _ _ h).elim
  · exact memWrite_fault (fun _ => initAfter_ne_fault _ _ _) h
  · exact alt5Access_fault (fun _ _ => by simp) (fun _ => initAfter_ne_fault _ _ _) h
  · exact alt5Access_fault (fun _ _ => by simp) (fun _ => initAfter_ne_fault _ _ _) h

/-- A command faults in the state it was given, or in that of its acceptance. -/
def FaultsAtOnce (i : Instr) (s : State) (r : Fault) : Prop := RaisedIn s r ∨ RaisedIn (s.accept i) r

theorem gpioField_fault {bank value : Word} {pin : BitVec 8} {w : BitVec 2}
    (h : gpioField i bank pin value w s = .fault r) : FaultsAtOnce i s r := by
  unfold gpioField at h
  split at h
  · split at h
    · cases h
    · exact .inr (fieldRead_fault h)
  · exact .inl (fieldWrite_fault h)
  · cases h

theorem execSetfield_fault {bank index value maxidx : Word} {w : BitVec 2}
    (h : execSetfield bank index value w maxidx s = .fault r) :
    FaultsAtOnce (.setfield bank index value w maxidx) s r := by
  unfold execSetfield at h
  split at h
  · exact (refuseWith_ne_fault _ _ _ h).elim
  · split at h
    · split at h
      · exact .inr (fieldRead_fault h)
      · cases h
      · cases h
    · exact .inl (fieldWrite_fault h)
    · cases h

theorem execAlt5_fault {pin : BitVec 8} (h : execAlt5 pin s = .fault r) : FaultsAtOnce (.alt5 pin) s r := by
  simp only [execAlt5] at h
  split at h
  · split at h
    · cases h
    · exact .inr (alt5Access_fault (fun _ _ => by simp) (fun _ => by simp) h)
  · exact .inl (alt5Access_fault (fun _ _ => by simp) (fun _ => by simp) h)
  · cases h

theorem execUinit_fault (h : execUinit s = .fault r) : FaultsAtOnce .uinit s r := by
  unfold execUinit at h
  split at h
  · split at h
    · exact .inr ⟨_, h⟩
    · exact .inr (initAccess_fault h)
  · exact .inl (initAccess_fault h)
  · cases h

theorem execUrdy_fault (h : execUrdy s = .fault r) : FaultsAtOnce .urdy s r := by
  unfold execUrdy at h
  split at h
  · exact .inr (memRead_fault (fun _ _ => by simp) h)
  · cases h

theorem execUsend_fault {b : Byte} (h : execUsend b s = .fault r) : FaultsAtOnce (.usend b) s r := by
  unfold execUsend at h
  split at h
  · split at h
    · exact .inr ⟨_, h⟩
    · exact .inr (pollTxReady_fault h)
  · exact .inl (pollTxReady_fault h)
  · exact .inl (memWrite_fault (fun _ => by simp) h)
  · cases h

theorem execUtext_fault {buf : Word} (h : execUtext buf s = .fault r) : FaultsAtOnce (.utext buf) s r := by
  unfold execUtext at h
  split at h
  · split at h
    · exact .inr ⟨_, h⟩
    · exact .inr (textByte_fault h)
  · exact .inl (textByte_fault h)
  · exact .inl (pollTxReady_fault h)
  · exact .inl (memWrite_fault (fun _ => by simp) h)
  · exact .inl (pollTxReady_fault h)
  · exact .inl (memWrite_fault (fun _ => by simp) h)
  · cases h

/-- Every fault is raised before the access of its micro-step. -/
theorem exec_fault (h : exec i s = .fault r) : FaultsAtOnce i s r := by
  cases i with
  | setfield bank index value w maxidx => exact execSetfield_fault h
  | fsel pin f => exact gpioField_fault h
  | sethigh pin => exact gpioField_fault h
  | setlow pin => exact gpioField_fault h
  | pull pin m => exact gpioField_fault h
  | alt5 pin => exact execAlt5_fault h
  | uinit => exact execUinit_fault h
  | urdy => exact execUrdy_fault h
  | usend b => exact execUsend_fault h
  | utext buf => exact execUtext_fault h

theorem exec_fault_uart (h : exec i s = .fault r) : r.final.uart = s.uart := by
  obtain h | h := exec_fault h
  · obtain ⟨k, hk⟩ := h.final_eq
    rw [hk]
  · obtain ⟨k, hk⟩ := h.final_eq
    rw [hk]
    rfl

/-- No step sets `uart_state` back. -/
theorem step_keeps_ready (hs : s.uart = .ready) (h : step s = .next t) : t.uart = .ready := by
  obtain ⟨-, hc⟩ := step_next h
  have exec_keeps {i : Instr} {u : State} (hu : u.uart = .ready) (hx : exec i u = .next t) : t.uart = .ready :=
    (exec_next hx).2.uart.elim (·.trans hu) (·.2.1)
  cases hc with
  | wait _ _ same => exact same ▸ hs
  | take i rest _ _ runs => exact exec_keeps (u := s.take rest) hs runs
  | go i _ _ runs => exact exec_keeps hs runs

/-- A micro-step that changes `uart_state` is UINIT's last. -/
theorem exec_changes_uart (h : exec i s = .next t) (hne : t.uart ≠ s.uart) :
    i = .uinit ∧ s.uart = .uninitialized ∧ t.uart = .ready ∧ t.seq = .idle ∧ t.respPort = some 0 := by
  obtain ⟨rfl, hr, hi⟩ := (exec_next h).2.uart.resolve_left hne
  refine ⟨rfl, ?_, hr, hi, execUinit_respPort h hi⟩
  cases hu : s.uart with
  | uninitialized => rfl
  | ready => exact absurd (hr.trans hu.symm) hne

end

/-- Settles O50: UINIT's last micro-step is the only one that writes `uart_state`, and a fault keeps it as it was. -/
theorem uartStateChangesOnlyInUinit : Obligations.UartStateChangesOnlyInUinit :=
  ⟨fun _ _ _ => exec_changes_uart, fun _ _ _ _ h => exec_fault_uart h, fun _ _ _ h => exec_fault_uart h,
    fun _ _ _ h => exec_fault_uart h,
    fun n _ _ hrun hs => run_induction (P := fun u => u.uart = .ready) (fun _ _ => step_keeps_ready) n hs hrun, rfl⟩

/-! ## The frame of UINIT (R145, R146) -/

/-- The registers an entry of `INIT_SEQ` writes (R145). -/
def initRegs (c : Config) : InitStep → List Word
  | .write r _ => [c.aux r]
  | .muxTx => alt5Regs c c.consoleTxPin
  | .muxRx => alt5Regs c c.consoleRxPin

/-- The device of `t` is that of `s`, or that of `s` after a write to one of the registers. -/
def WritesAmong (regs : List Word) (s t : State) : Prop :=
  SameDevice s t ∨ ∃ a ∈ regs, ∃ v, AccessEffect s t (.write a v)

section
variable {s s' t : State} {regs : List Word}

theorem WritesAmong.of_accept {i : Instr} (h : WritesAmong regs (s.accept i) t) : WritesAmong regs s t :=
  h.imp SameDevice.of_accept fun ⟨a, ha, v, he⟩ => ⟨a, ha, v, he.of_accept⟩

/-- What makes no access keeps a write that was made. -/
theorem WritesAmong.trans_noAccess (h : WritesAmong regs s s') (hn : NoAccess s' t) : WritesAmong regs s t :=
  h.imp (fun hd => ⟨hn.cells.trans hd.cells, hn.out.trans hd.out, hn.tx.trans hd.tx⟩)
    fun ⟨a, ha, v, he⟩ => ⟨a, ha, v, he.trans_unit hn.recorded hn.cells hn.out hn.tx⟩

theorem initAfter_noAccess {rest : List InitStep} (h : initAfter rest s = .next t) : NoAccess s t := by
  cases rest with
  | nil => cases h; exact ⟨rfl, rfl, rfl, rfl⟩
  | cons x l => cases h; exact ⟨rfl, rfl, rfl, rfl⟩

/-- The four accesses of ALT5 write its two registers, whatever follows them. -/
theorem alt5Access_writesAmong {pin : BitVec 8} {m : Alt5Step} {more : Alt5Step → State → Out} {done : State → Out}
    (hm : ∀ m' s', more m' s' = .next t → NoAccess s' t) (hd : ∀ s', done s' = .next t → NoAccess s' t)
    (h : alt5Access pin m s more done = .next t) : WritesAmong (alt5Regs s.cfg pin) s t := by
  cases m <;> simp only [alt5Access] at h
  case pullRead | fselRead =>
    obtain ⟨u, s', hk, -, he⟩ := memRead_next h
    exact WritesAmong.trans_noAccess (.inl he.sameDevice) (hm _ _ hk)
  case pullWrite cur =>
    obtain ⟨s', hk, -, he⟩ := memWrite_next h
    exact WritesAmong.trans_noAccess (.inr ⟨_, .head _, _, he⟩) (hm _ _ hk)
  case fselWrite cur =>
    obtain ⟨s', hk, -, he⟩ := memWrite_next h
    exact WritesAmong.trans_noAccess (.inr ⟨_, .tail _ (.head _), _, he⟩) (hd _ hk)

/-- A micro-step of UINIT writes at most a register of the first entry still to do. -/
theorem initAccess_writesAmong {todo : List InitStep} {m : Alt5Step} (h : initAccess todo m s = .next t) :
    SameDevice s t ∨ ∃ x ∈ todo, WritesAmong (initRegs s.cfg x) s t := by
  unfold initAccess at h
  split at h
  · exact .inl (initAfter_noAccess h).sameDevice
  · obtain ⟨s', hk, -, he⟩ := memWrite_next h
    exact .inr ⟨_, .head _, .trans_noAccess (.inr ⟨_, .head _, _, he⟩) (initAfter_noAccess hk)⟩
  · exact .inr ⟨_, .head _, alt5Access_writesAmong (fun _ _ hk => by cases hk; exact ⟨rfl, rfl, rfl, rfl⟩)
      (fun _ => initAfter_noAccess) h⟩
  · exact .inr ⟨_, .head _, alt5Access_writesAmong (fun _ _ hk => by cases hk; exact ⟨rfl, rfl, rfl, rfl⟩)
      (fun _ => initAfter_noAccess) h⟩

/-- A write of AUX_MU_IIR stores nothing (10_state.md R39). -/
theorem AccessEffect.sameDevice_of_iir {a v : Word} (h : AccessEffect s t (.write a v))
    (hc : s.cfg.classOf a = some .iir) : SameDevice s t :=
  ⟨by simp [h.cells, cellsAfter, hc], by simp [h.out, outAfter, hc], by simp [h.tx, txByte, hc]⟩

theorem exec_uinit_cases (h : exec .uinit s = .next t) :
    (s.seq = .idle ∧ s.uart = .uninitialized ∧ initAccess s.cfg.initSeq .pullRead (s.accept .uinit) = .next t)
      ∨ ∃ todo m, s.seq = .init todo m ∧ initAccess todo m s = .next t := by
  change execUinit s = .next t at h
  unfold execUinit at h
  split at h
  · next hs =>
    split at h
    · exact (faultWith_ne_next _ _ _ h).elim
    · next hu => exact .inl ⟨hs, hu, h⟩
  · next todo m hs => exact .inr ⟨todo, m, hs, h⟩
  · cases h

end

/-- The storage registers the default `INIT_SEQ` writes. -/
def defaultInitRegs : List Word :=
  [0xFE215004#32, 0xFE215044#32, 0xFE215060#32, 0xFE21504C#32, 0xFE215050#32, 0xFE215068#32, 0xFE2000E4#32, 0xFE200004#32]

theorem default_initRegs_storage : ∀ a ∈ defaultInitRegs, Config.default.classOf a = some .storage := by
  intro a ha
  fin_cases ha <;> decide

/-- Entry by entry, what the default `INIT_SEQ` writes. -/
theorem default_flatMap_initRegs : defaultInitSeq.flatMap (initRegs Config.default)
    = [0xFE215004#32, 0xFE215044#32, 0xFE215060#32, 0xFE21504C#32, 0xFE215050#32, 0xFE215048#32, 0xFE215068#32,
        0xFE2000E4#32, 0xFE200004#32, 0xFE2000E4#32, 0xFE200004#32, 0xFE215060#32] := by
  decide

/-- Apart from those registers the default `INIT_SEQ` writes AUX_MU_IIR. -/
theorem default_initRegs {x : InitStep} {a : Word} (hx : x ∈ defaultInitSeq) (ha : a ∈ initRegs Config.default x) :
    a ∈ defaultInitRegs ∨ a = 0xFE215048 := by
  have ha : a ∈ defaultInitSeq.flatMap (initRegs Config.default) := List.mem_flatMap.mpr ⟨x, hx, ha⟩
  rw [default_flatMap_initRegs] at ha
  simp only [defaultInitRegs, List.mem_cons] at ha ⊢
  tauto

theorem default_classOf_iir : Config.default.classOf 0xFE215048 = some .iir := by decide

/-- Settles O47: the one access of a micro-step is a read, or a write of a register of the entry at hand. -/
theorem uinitFrame : Obligations.UinitFrame := by
  intro s t hcfg hwf htodo h
  have access : SameDevice s t ∨ ∃ x ∈ defaultInitSeq, WritesAmong (initRegs Config.default x) s t := by
    obtain ⟨-, -, hx⟩ | ⟨todo, m, hs, hx⟩ := exec_uinit_cases h
    · have seq : s.cfg.initSeq = defaultInitSeq := by rw [hcfg]; rfl
      obtain hd | ⟨x, hx, hw⟩ := initAccess_writesAmong hx
      · exact .inl hd.of_accept
      · exact .inr ⟨x, seq ▸ hx, hcfg ▸ hw.of_accept⟩
    · obtain ⟨done, seq⟩ := htodo todo m hs
      obtain hd | ⟨x, hx, hw⟩ := initAccess_writesAmong hx
      · exact .inl hd
      · exact .inr ⟨x, seq ▸ List.mem_append_right done hx, hcfg ▸ hw⟩
  have device : t.out = s.out ∧ t.tx = s.tx ∧ ∀ b : Word, b ∉ defaultInitRegs → t.cell b = s.cell b := by
    have same (hd : SameDevice s t) :
        t.out = s.out ∧ t.tx = s.tx ∧ ∀ b : Word, b ∉ defaultInitRegs → t.cell b = s.cell b :=
      ⟨hd.out, hd.tx, fun b _ => by rw [State.cell, hd.cells]; rfl⟩
    obtain hd | ⟨x, hx, hd | ⟨a, ha, v, hw⟩⟩ := access
    · exact same hd
    · exact same hd
    · obtain hmem | rfl := default_initRegs hx ha
      · obtain ⟨ho, hx⟩ := hw.out_tx_of_storage (hcfg ▸ default_initRegs_storage a hmem)
        exact ⟨ho, hx, fun b hb => hw.cell_of_ne hwf (ne_of_mem_of_not_mem hmem hb).symm⟩
      · exact same (hw.sameDevice_of_iir (hcfg ▸ default_classOf_iir))
  obtain ⟨-, he⟩ := exec_next h
  obtain ⟨ho, hx, hcell⟩ := device
  exact ⟨ho, hx, he.bufmem, he.cfg, he.cmdPort, he.fault, he.refusal, hcell⟩

/-! ## A run of `INIT_SEQ` (R145, R146) -/

/-- UINIT in flight from `s`, its accesses so far recorded as `es`, before access `m` of the first of the entries `todo`. -/
def State.uinitAt (s : State) (es : List Event) (todo : List InitStep) (m : Alt5Step) : State :=
  { s.accept .uinit with
    seq := .init todo m
    cells := es.foldl (cellsAfter s.cfg) s.cells
    hist := s.hist ++ es }

/-- UINIT completed from `s`, its accesses recorded as `es`. -/
def State.uinitDone (s : State) (es : List Event) : State :=
  { s.answered 0 with
    uart := .ready
    cells := es.foldl (cellsAfter s.cfg) s.cells
    hist := s.hist ++ es }

/-- Every register after some events: a storage register as they say, any other cell as before. -/
theorem foldl_cellsAfter_read (c : Config) {cells : Cells} (h : cells.wf = true) (es : List Event) (a : Word) :
    (es.foldl (cellsAfter c) cells).read a
      = if c.classOf a = some .storage then replayCell a es (cells.read a) else cells.read a := by
  induction es generalizing cells with
  | nil => simp [replayCell]
  | cons e es ih =>
    rw [List.foldl_cons, ih (cellsAfter_wf h e)]
    split
    · next ha => rw [cellsAfter_read h e ha, ← replayCell_append]; rfl
    · next ha =>
      cases e with
      | read b v => rfl
      | byteRead b v => rfl
      | write b v =>
        simp only [cellsAfter]
        split
        · next hb => rw [Cells.read_write h, if_neg fun hab : a = b => ha (hab ▸ hb)]
        · rfl

section
variable {s : State} {es fs gs : List Event} {a v : Word} {x y : InitStep} {todo rest : List InitStep} {m : Alt5Step}

theorem State.uinitAt_cell (hwf : s.cells.wf = true) (ha : s.cfg.classOf a = some .storage) :
    (s.uinitAt es todo m).cell a = replayCell a es (s.cell a) :=
  (foldl_cellsAfter_read s.cfg hwf es a).trans (if_pos ha)

/-- A read in flight is recorded and leaves the registers. -/
theorem memRead_uinitAt {k : Word → State → Out} (hwf : s.cells.wf = true) (ha : s.cfg.classOf a = some .storage)
    (hv : replayCell a es (s.cell a) = v) :
    memRead a (s.uinitAt es todo m) k = k v (s.uinitAt (es ++ [.read a v]) todo m) := by
  rw [memRead_storage (by exact ha), State.uinitAt_cell hwf ha, hv]
  simp [State.uinitAt, State.record, List.foldl_append, cellsAfter]

/-- A write in flight is recorded and leaves the registers as its event says. -/
theorem memWrite_uinitAt {j : State → Out} (ha : s.cfg.classOf a = some .storage ∨ s.cfg.classOf a = some .iir) :
    memWrite a v (s.uinitAt es todo m) j = j (s.uinitAt (es ++ [.write a v]) todo m) := by
  obtain ha | ha := ha
  · rw [memWrite_storage (by exact ha)]
    simp [State.uinitAt, State.record, List.foldl_append, cellsAfter, ha]
  · rw [memWrite_iir (by exact ha)]
    simp [State.uinitAt, State.record, List.foldl_append, cellsAfter, ha]

/-- After an entry in flight the next one begins. -/
theorem initAfter_uinitAt (hr : rest ≠ []) :
    initAfter rest (s.uinitAt es todo m) = .next (s.uinitAt es rest .pullRead) := by
  cases rest with
  | nil => exact absurd rfl hr
  | cons y rest => rfl

/-- `n` micro-steps of UINIT from `s` take it from the events `es` before the entries `todo` to the events `fs` before the entries
`rest`. -/
def UinitRuns (s : State) (n : Nat) (es : List Event) (todo : List InitStep) (fs : List Event) (rest : List InitStep) : Prop :=
  execFor .uinit n (s.uinitAt es todo .pullRead) = .next (s.uinitAt fs rest .pullRead)

theorem UinitRuns.trans {n k : Nat} {todo' : List InitStep} (h : UinitRuns s n es todo fs rest)
    (h' : UinitRuns s k fs rest gs todo') : UinitRuns s (n + k) es todo gs todo' :=
  (execFor_add h).trans h'

/-! ### The write entries -/

/-- A write to the register stores the word, or has no effect (10_state.md R39). -/
def InitWritable (c : Config) (r : AuxReg) : Prop :=
  c.classOf (c.aux r) = some .storage ∨ c.classOf (c.aux r) = some .iir

/-- The event of a write entry. -/
def initWriteEvent (c : Config) (e : AuxReg × InitValue) : Event := .write (c.aux e.1) (c.initWord e.2)

theorem initAccess_write (u : State) (r : AuxReg) (w : InitValue) :
    initAccess (.write r w :: rest) m u = memWrite (u.cfg.aux r) (u.cfg.initWord w) u (initAfter rest) := rfl

/-- A write entry takes one micro-step. -/
theorem exec_uinitAt_write {r : AuxReg} (w : InitValue) (ha : InitWritable s.cfg r) :
    exec .uinit (s.uinitAt es (.write r w :: rest) m)
      = initAfter rest (s.uinitAt (es ++ [initWriteEvent s.cfg (r, w)]) (.write r w :: rest) m) := by
  rw [exec_uinit_go rfl, initAccess_write]
  exact memWrite_uinitAt ha

/-- The first write entry is performed in the micro-step that accepts the command. -/
theorem exec_uinit_accepted {r : AuxReg} {w : InitValue} (hs : s.seq = .idle) (hu : s.uart = .uninitialized)
    (hseq : s.cfg.initSeq = .write r w :: y :: rest) (ha : InitWritable s.cfg r) :
    exec .uinit s = exec .uinit (s.uinitAt [] (.write r w :: y :: rest) .pullRead) := by
  rw [exec_uinitAt_write w ha, exec_uinit_start hs hu, hseq, initAccess_write]
  obtain ha | ha := ha
  · rw [memWrite_storage (by exact ha)]
    simp [initAfter, State.uinitAt, State.record, State.goto, initWriteEvent, cellsAfter, ha]
  · rw [memWrite_iir (by exact ha)]
    simp [initAfter, State.uinitAt, State.record, State.goto, initWriteEvent, cellsAfter, ha]

/-- Write entries take one micro-step each. -/
theorem uinitRuns_writes {c : Config} (hc : s.cfg = c) (es : List Event) (ws : List (AuxReg × InitValue)) (hr : rest ≠ [])
    (hw : ∀ e ∈ ws, InitWritable c e.1) :
    UinitRuns s ws.length es (ws.map (fun e => .write e.1 e.2) ++ rest) (es ++ ws.map (initWriteEvent c)) rest := by
  subst hc
  induction ws generalizing es with
  | nil => simp [UinitRuns, execFor]
  | cons e ws ih =>
    have later := ih (es ++ [initWriteEvent s.cfg e]) fun e he => hw e (List.mem_cons_of_mem _ he)
    rw [List.append_assoc] at later
    refine (execFor_succ ?_).trans later
    exact (exec_uinitAt_write e.2 (hw e (List.mem_cons_self ..))).trans (initAfter_uinitAt (by simp [hr]))

/-! ### The console-pin entries -/

/-- The register with the pull field of a pin, and the register with its function-select field (10_state.md R29, R32). -/
def pullReg (c : Config) (pin : BitVec 8) : Word := regAddr c.gppuppdn0 (pin.setWidth 32) 2
def fselReg (c : Config) (pin : BitVec 8) : Word := regAddr c.gpfsel0 (pin.setWidth 32) 3

/-- The words ALT5 writes back to them (41_gpio.md R122). -/
def pullNoneWord (c : Config) (pin : BitVec 8) (pull : Word) : Word :=
  fieldWord (pin.setWidth 32) ((c.pullCode.code .none).setWidth 32) 2 pull
def fselAlt5Word (c : Config) (pin : BitVec 8) (fsel : Word) : Word :=
  fieldWord (pin.setWidth 32) ((c.fselCode.code .alt5).setWidth 32) 3 fsel

/-- The events of a console-pin entry whose pull register reads `pull` and whose function-select register reads `fsel`. -/
def muxEvents (c : Config) (pin : BitVec 8) (pull fsel : Word) : List Event :=
  [.read (pullReg c pin) pull, .write (pullReg c pin) (pullNoneWord c pin pull),
    .read (fselReg c pin) fsel, .write (fselReg c pin) (fselAlt5Word c pin fsel)]

/-- The entry makes the four accesses of ALT5 on the pin, on two storage registers. -/
structure MuxEntry (c : Config) (x : InitStep) (pin : BitVec 8) : Prop where
  access : ∀ (u : State) (rest : List InitStep) (m : Alt5Step), u.cfg = c → initAccess (x :: rest) m u
    = alt5Access pin m u (fun m s' => .next (s'.goto (.init (x :: rest) m))) (initAfter rest)
  pull_storage : c.classOf (pullReg c pin) = some .storage
  fsel_storage : c.classOf (fselReg c pin) = some .storage
  apart : pullReg c pin ≠ fselReg c pin

section
variable {pin : BitVec 8} {pull fsel : Word} (hx : MuxEntry s.cfg x pin)
include hx

theorem MuxEntry.exec_eq (es : List Event) (rest : List InitStep) (m : Alt5Step) :
    exec .uinit (s.uinitAt es (x :: rest) m)
      = alt5Access pin m (s.uinitAt es (x :: rest) m) (fun m s' => .next (s'.goto (.init (x :: rest) m)))
          (initAfter rest) :=
  (exec_uinit_go rfl).trans (hx.access _ rest m rfl)

theorem MuxEntry.exec_pullRead (hwf : s.cells.wf = true)
    (hp : replayCell (pullReg s.cfg pin) es (s.cell (pullReg s.cfg pin)) = pull) :
    exec .uinit (s.uinitAt es (x :: rest) .pullRead)
      = .next (s.uinitAt (es ++ [.read (pullReg s.cfg pin) pull]) (x :: rest) (.pullWrite pull)) := by
  rw [hx.exec_eq]
  unfold alt5Access
  exact memRead_uinitAt hwf hx.pull_storage hp

theorem MuxEntry.exec_pullWrite :
    exec .uinit (s.uinitAt es (x :: rest) (.pullWrite pull))
      = .next (s.uinitAt (es ++ [.write (pullReg s.cfg pin) (pullNoneWord s.cfg pin pull)]) (x :: rest) .fselRead) := by
  rw [hx.exec_eq]
  unfold alt5Access
  exact memWrite_uinitAt (.inl hx.pull_storage)

theorem MuxEntry.exec_fselRead (hwf : s.cells.wf = true)
    (hf : replayCell (fselReg s.cfg pin) es (s.cell (fselReg s.cfg pin)) = fsel) :
    exec .uinit (s.uinitAt es (x :: rest) .fselRead)
      = .next (s.uinitAt (es ++ [.read (fselReg s.cfg pin) fsel]) (x :: rest) (.fselWrite fsel)) := by
  rw [hx.exec_eq]
  unfold alt5Access
  exact memRead_uinitAt hwf hx.fsel_storage hf

theorem MuxEntry.exec_fselWrite (hr : rest ≠ []) :
    exec .uinit (s.uinitAt es (x :: rest) (.fselWrite fsel))
      = .next (s.uinitAt (es ++ [.write (fselReg s.cfg pin) (fselAlt5Word s.cfg pin fsel)]) rest .pullRead) := by
  rw [hx.exec_eq]
  unfold alt5Access
  exact (memWrite_uinitAt (.inl hx.fsel_storage)).trans (initAfter_uinitAt hr)

end

/-- A console-pin entry takes four micro-steps. -/
theorem MuxEntry.uinitRuns {c : Config} {pin : BitVec 8} {pull fsel : Word} (hx : MuxEntry c x pin) (hc : s.cfg = c)
    (hwf : s.cells.wf = true) (hp : replayCell (pullReg c pin) es (s.cell (pullReg c pin)) = pull)
    (hf : replayCell (fselReg c pin) es (s.cell (fselReg c pin)) = fsel) (hr : rest ≠ []) :
    UinitRuns s 4 es (x :: rest) (es ++ muxEvents c pin pull fsel) rest := by
  subst hc
  have unwritten (v w : Word) : replayCell (fselReg s.cfg pin)
      (es ++ [.read (pullReg s.cfg pin) v] ++ [.write (pullReg s.cfg pin) w]) (s.cell (fselReg s.cfg pin)) = fsel := by
    rw [replayCell_append, replayCell_append, hf]
    exact if_neg hx.apart
  rw [UinitRuns, execFor_succ (hx.exec_pullRead hwf hp), execFor_succ hx.exec_pullWrite,
    execFor_succ (hx.exec_fselRead hwf (unwritten _ _)), execFor_succ (hx.exec_fselWrite hr)]
  simp [execFor, muxEvents]

/-! ### The default sequence -/

/-- The write entries before the console pins. -/
def defaultInitWrites : List (AuxReg × InitValue) :=
  [(.enables, .literal 0x00000001), (.ier, .literal 0x00000000), (.cntl, .literal 0x00000000), (.lcr, .literal 0x00000003),
    (.mcr, .literal 0x00000000), (.iir, .literal 0x000000C6), (.baud, .divisor)]

/-- The events of the default sequence where GPPUPPDN0 held `pull` and GPFSEL1 held `fsel`. -/
def defaultInitEvents (pull fsel : Word) : List Event :=
  defaultInitWrites.map (initWriteEvent Config.default) ++ muxEvents Config.default 14 pull fsel
    ++ muxEvents Config.default 15 (pullNoneWord Config.default 14 pull) (fselAlt5Word Config.default 14 fsel)
    ++ [initWriteEvent Config.default (.cntl, .literal 0x00000003)]

theorem default_initWritable (r : AuxReg) (h : r ≠ .io ∧ r ≠ .lsr) : InitWritable Config.default r := by
  unfold InitWritable
  cases r <;> revert h <;> decide

theorem default_initWrites_writable : ∀ e ∈ defaultInitWrites, InitWritable Config.default e.1 := by
  have registers : ∀ e ∈ defaultInitWrites, e.1 ≠ .io ∧ e.1 ≠ .lsr := by decide
  exact fun e he => default_initWritable e.1 (registers e he)

theorem muxEntry_tx : MuxEntry Config.default .muxTx 14 :=
  ⟨fun _ _ _ h => by rw [initAccess, h]; rfl, by decide, by decide, by decide⟩

theorem muxEntry_rx : MuxEntry Config.default .muxRx 15 :=
  ⟨fun _ _ _ h => by rw [initAccess, h]; rfl, by decide, by decide, by decide⟩

/-- From an uninitialized UART, UINIT with the default parameters runs through in 16 micro-steps. -/
theorem execFor_uinit_default (hcfg : s.cfg = Config.default) (hwf : s.cells.wf = true) (hs : s.seq = .idle)
    (hu : s.uart = .uninitialized) :
    execFor .uinit 16 s = .next (s.uinitDone (defaultInitEvents (s.cell 0xFE2000E4) (s.cell 0xFE200004))) := by
  have accepted : exec .uinit s = exec .uinit (s.uinitAt [] defaultInitSeq .pullRead) :=
    exec_uinit_accepted hs hu (by rw [hcfg]; rfl) (hcfg ▸ default_initWritable .enables (by decide))
  have writes : UinitRuns s 7 [] defaultInitSeq (defaultInitWrites.map (initWriteEvent Config.default))
      [.muxTx, .muxRx, .write .cntl (.literal 3)] :=
    uinitRuns_writes hcfg [] defaultInitWrites (by simp) default_initWrites_writable
  have muxTx := muxEntry_tx.uinitRuns (rest := [.muxRx, .write .cntl (.literal 3)]) hcfg hwf
    (es := defaultInitWrites.map (initWriteEvent Config.default)) (pull := s.cell 0xFE2000E4) (fsel := s.cell 0xFE200004)
    rfl rfl (by simp)
  have muxRx := muxEntry_rx.uinitRuns (rest := [.write .cntl (.literal 3)]) hcfg hwf
    (es := defaultInitWrites.map (initWriteEvent Config.default)
      ++ muxEvents Config.default 14 (s.cell 0xFE2000E4) (s.cell 0xFE200004))
    (pull := pullNoneWord Config.default 14 (s.cell 0xFE2000E4))
    (fsel := fselAlt5Word Config.default 14 (s.cell 0xFE200004))
    rfl rfl (by simp)
  have runs := (writes.trans muxTx).trans muxRx
  have last (es : List Event) : exec .uinit (s.uinitAt es [.write .cntl (.literal 3)] .pullRead)
      = .next (s.uinitDone (es ++ [initWriteEvent Config.default (.cntl, .literal 3)])) :=
    (exec_uinitAt_write (.literal 3) (hcfg ▸ default_initWritable .cntl (by decide))).trans (hcfg ▸ rfl)
  rw [execFor_succ_congr accepted 15, execFor_add (m := 15) runs, execFor_one, last]
  rfl

/-- The pull code of no pull is 0: the field is cleared. -/
theorem default_pullNoneWord (pin : BitVec 8) (v : Word) :
    pullNoneWord Config.default pin v = v &&& ~~~(0x3#32 <<< (bitShift (pin.setWidth 32) 2).toNat) := by
  have code : (Config.default.pullCode.code .none).setWidth 32 = 0#32 := rfl
  rw [pullNoneWord, fieldWord, insertField, code, BitVec.zero_shiftLeft]
  exact BitVec.or_zero

end

/-- The events of the default sequence, written out. -/
theorem defaultInitEvents_eq (pull fsel : Word) :
    let pull1 := pull &&& ~~~(0x3#32 <<< 28)
    let fsel1 := (fsel &&& ~~~(0x7#32 <<< 12)) ||| (0x2#32 <<< 12)
    defaultInitEvents pull fsel =
      [ .write 0xFE215004 0x1, .write 0xFE215044 0x0, .write 0xFE215060 0x0, .write 0xFE21504C 0x3,
        .write 0xFE215050 0x0, .write 0xFE215048 0xC6, .write 0xFE215068 541,
        .read 0xFE2000E4 pull, .write 0xFE2000E4 pull1, .read 0xFE200004 fsel, .write 0xFE200004 fsel1,
        .read 0xFE2000E4 pull1, .write 0xFE2000E4 (pull1 &&& ~~~(0x3#32 <<< 30)),
        .read 0xFE200004 fsel1, .write 0xFE200004 ((fsel1 &&& ~~~(0x7#32 <<< 15)) ||| (0x2#32 <<< 15)),
        .write 0xFE215060 0x3 ] := by
  rw [defaultInitEvents, muxEvents, muxEvents, default_pullNoneWord, default_pullNoneWord]
  rfl

/-- What the default sequence leaves in every register. -/
theorem defaultInitEvents_read {cells : Cells} (hwf : cells.wf = true) (pull fsel : Word) (a : Word) :
    let pull2 := (pull &&& ~~~(0x3#32 <<< 28)) &&& ~~~(0x3#32 <<< 30)
    let fsel1 := (fsel &&& ~~~(0x7#32 <<< 12)) ||| (0x2#32 <<< 12)
    let fsel2 := (fsel1 &&& ~~~(0x7#32 <<< 15)) ||| (0x2#32 <<< 15)
    ((defaultInitEvents pull fsel).foldl (cellsAfter Config.default) cells).read a
      = if a = 0xFE215004 then 0x1 else if a = 0xFE215044 then 0x0 else if a = 0xFE21504C then 0x3
        else if a = 0xFE215050 then 0x0 else if a = 0xFE215068 then 541 else if a = 0xFE215060 then 0x3
        else if a = 0xFE2000E4 then pull2 else if a = 0xFE200004 then fsel2 else cells.read a := by
  intro pull2 fsel1 fsel2
  rw [foldl_cellsAfter_read _ hwf, defaultInitEvents_eq]
  by_cases ha : a ∈ defaultInitRegs
  · rw [if_pos (default_initRegs_storage a ha)]
    fin_cases ha <;> rfl
  · have iir : Config.default.classOf a = some .storage → a ≠ 0xFE215048 := by
      rintro hs rfl
      rw [default_classOf_iir] at hs
      cases hs
    simp only [defaultInitRegs, List.mem_cons, List.not_mem_nil, or_false, not_or] at ha
    split
    · next hs =>
      have unwritten := iir hs
      simp only [replayCell]
      grind
    · simp [ha]

/-- Settles O36: the run of the default sequence, its events replayed register by register. -/
theorem uinitCompletes : Obligations.UinitCompletes := by
  intro s hcfg hwf hs hu pull0 pull1 pull2 fsel0 fsel1 fsel2
  obtain ⟨s1, h1, hrest⟩ := exec_of_execFor_succ (execFor_uinit_default hcfg hwf hs hu)
  refine ⟨s1, _, h1, ?_, defaultInitEvents_read hwf pull0 fsel0⟩
  rw [hrest, State.uinitDone, hcfg, ← defaultInitEvents_eq]

/-! ## The order of an `INIT_SEQ` (R145, R148) -/

/-- The parts of the constraint on an `INIT_SEQ`. -/
structure InitOrdered (l : List InitStep) : Prop where
  ordered : l.Pairwise fun x y => x.stage = 0 ∨ y.stage = 0 ∨ x.stage ≤ y.stage
  fits : ∀ x ∈ l, x.fitsStage = true
  interruptsOff : ∃ x ∈ l, x.stage = 1
  frameFormat : ∃ x ∈ l, x.stage = 2
  one_divisor : (l.filter (·.stage == 3)).length = 1
  muxTx : .muxTx ∈ l
  muxRx : .muxRx ∈ l
  enables_last : initEnablesLast l = true

theorem initOrdered_iff (l : List InitStep) : initOrdered l = true ↔ InitOrdered l := by
  simp only [initOrdered, Bool.and_eq_true, decide_eq_true_eq, List.all_eq_true, List.any_eq_true, beq_iff_eq,
    List.contains_iff_mem]
  constructor
  · rintro ⟨⟨⟨⟨⟨⟨⟨ho, hf⟩, hi⟩, hl⟩, hd⟩, ht⟩, hr⟩, he⟩
    exact ⟨ho, hf, hi, hl, hd, ht, hr, he⟩
  · rintro ⟨ho, hf, hi, hl, hd, ht, hr, he⟩
    exact ⟨⟨⟨⟨⟨⟨⟨ho, hf⟩, hi⟩, hl⟩, hd⟩, ht⟩, hr⟩, he⟩

section
variable {x y : InitStep} {l : List InitStep} {i j : Nat}

/-! Which entry a stage is (assumption 17). -/

theorem eq_ier_of_stage (h : x.stage = 1) (hf : x.fitsStage = true) :
    ∃ w, x = .write .ier (.literal w) ∧ w &&& 0x3 = 0 := by
  unfold InitStep.stage at h
  split at h <;> simp_all [InitStep.fitsStage]

theorem eq_lcr_of_stage (h : x.stage = 2) (hf : x.fitsStage = true) :
    ∃ w, x = .write .lcr (.literal w) ∧ w &&& 0x1 = 1 := by
  unfold InitStep.stage at h
  split at h <;> simp_all [InitStep.fitsStage]

theorem eq_divisor_of_stage (h : x.stage = 3) (hf : x.fitsStage = true) : x = .write .baud .divisor := by
  unfold InitStep.stage at h
  split at h <;> simp_all [InitStep.fitsStage]

theorem eq_cntl_of_enables (h : x.enables = true) : ∃ w, x = .write .cntl (.literal w) ∧ w &&& 0x3 = 0x3 := by
  unfold InitStep.enables at h
  split at h <;> simp_all

theorem stage_mux (h : l[j]? = some .muxTx ∨ l[j]? = some .muxRx) : ∃ y, l[j]? = some y ∧ y.stage = 4 :=
  h.elim (fun h => ⟨_, h, rfl⟩) fun h => ⟨_, h, rfl⟩

/-- An entry of an earlier stage stands before an entry of a later one. -/
theorem InitOrdered.lt_of_stage_lt (h : InitOrdered l) (hi : l[i]? = some x) (hj : l[j]? = some y) (hx : x.stage ≠ 0)
    (hxy : x.stage < y.stage) : i < j := by
  obtain ⟨hil, rfl⟩ := List.getElem?_eq_some_iff.mp hi
  obtain ⟨hjl, rfl⟩ := List.getElem?_eq_some_iff.mp hj
  obtain hlt | rfl | hgt := Nat.lt_trichotomy i j
  · exact hlt
  · omega
  · have := List.pairwise_iff_getElem.mp h.ordered j i hjl hil hgt
    omega

/-- An entry that is the only one of its kind stands at one place. -/
theorem index_unique_of_filter_length {α : Type} {p : α → Bool} {l : List α} {i j : Nat} {x y : α}
    (h : (l.filter p).length = 1) (hi : l[i]? = some x) (hj : l[j]? = some y) (hx : p x = true) (hy : p y = true) :
    i = j := by
  obtain ⟨z, hz⟩ := List.length_eq_one_iff.mp h
  have apart : l.Pairwise fun x y => p x = true → p y = true → False := by
    rw [← List.pairwise_filter, hz]
    exact List.pairwise_singleton ..
  obtain ⟨hil, rfl⟩ := List.getElem?_eq_some_iff.mp hi
  obtain ⟨hjl, rfl⟩ := List.getElem?_eq_some_iff.mp hj
  obtain hlt | heq | hgt := Nat.lt_trichotomy i j
  · exact (List.pairwise_iff_getElem.mp apart i j hil hjl hlt hx hy).elim
  · exact heq
  · exact (List.pairwise_iff_getElem.mp apart j i hjl hil hgt hy hx).elim

theorem InitOrdered.exists_interruptsOff (h : InitOrdered l) :
    ∃ (i : Nat) (w : Word), l[i]? = some (.write .ier (.literal w)) ∧ w &&& 0x3 = 0 := by
  obtain ⟨x, hx, hs⟩ := h.interruptsOff
  obtain ⟨w, rfl, hw⟩ := eq_ier_of_stage hs (h.fits x hx)
  obtain ⟨i, hi⟩ := List.mem_iff_getElem?.mp hx
  exact ⟨i, w, hi, hw⟩

theorem InitOrdered.exists_frameFormat (h : InitOrdered l) :
    ∃ (i : Nat) (w : Word), l[i]? = some (.write .lcr (.literal w)) ∧ w &&& 0x1 = 1 := by
  obtain ⟨x, hx, hs⟩ := h.frameFormat
  obtain ⟨w, rfl, hw⟩ := eq_lcr_of_stage hs (h.fits x hx)
  obtain ⟨i, hi⟩ := List.mem_iff_getElem?.mp hx
  exact ⟨i, w, hi, hw⟩

theorem InitOrdered.exists_divisor (h : InitOrdered l) : ∃ b : Nat, l[b]? = some (.write .baud .divisor) := by
  obtain ⟨x, hx⟩ := List.length_eq_one_iff.mp h.one_divisor
  obtain ⟨hm, hs⟩ := List.mem_filter.mp (hx ▸ List.mem_singleton_self x)
  obtain rfl := eq_divisor_of_stage (beq_iff_eq.mp hs) (h.fits x hm)
  exact List.mem_iff_getElem?.mp hm

/-- The final enable write has no write of AUX_MU_CNTL and no console-pin access after it. -/
theorem exists_final_enable (h : initEnablesLast l = true) :
    ∃ pre x post, l = pre ++ x :: post ∧ x.enables = true ∧ ∀ y ∈ post, y.isCntl = false ∧ y.stage ≠ 4 := by
  obtain ⟨x, hfind, hx⟩ := Option.any_eq_true .. |>.mp h
  obtain ⟨-, as, bs, hsplit, has⟩ := List.find?_eq_some_iff_append.mp hfind
  obtain ⟨rest, hl⟩ : ∃ rest, l.reverse = as ++ x :: (bs ++ rest) := by
    refine ⟨l.reverse.dropWhile (·.stage != 4), ?_⟩
    rw [← List.cons_append, ← List.append_assoc, ← hsplit, List.takeWhile_append_dropWhile]
  refine ⟨(bs ++ rest).reverse, x, as.reverse, ?_, hx, fun y hy => ⟨?_, ?_⟩⟩
  · rw [← List.reverse_reverse l, hl]
    simp
  · simpa using has y (List.mem_reverse.mp hy)
  · have hmem : y ∈ l.reverse.takeWhile (·.stage != 4) := hsplit ▸ List.mem_append_left _ (List.mem_reverse.mp hy)
    simpa using List.mem_takeWhile_imp hmem

/-- An entry stands before the one at the split, is that one, or stands after it. -/
theorem getElem?_split {pre post : List InitStep} (h : (pre ++ x :: post)[j]? = some y) :
    j < pre.length ∨ (j = pre.length ∧ y = x) ∨ y ∈ post := by
  obtain hlt | heq | hgt := Nat.lt_trichotomy j pre.length
  · exact .inl hlt
  · subst heq
    simp at h
    exact .inr (.inl ⟨rfl, h.symm⟩)
  · rw [List.getElem?_append_right (Nat.le_of_lt hgt)] at h
    obtain ⟨n, hn⟩ := Nat.exists_eq_add_of_lt hgt
    rw [show j - pre.length = n + 1 by omega, List.getElem?_cons_succ] at h
    exact .inr (.inr (List.mem_of_getElem? h))

end

/-- Settles O58: the stages rise along the list, the divisor's entry is one, and the last entries hold the final enable write. -/
theorem initSeqConstraintKeepsTheOrder : Obligations.InitSeqConstraintKeepsTheOrder := by
  intro l hl
  have h := (initOrdered_iff l).mp hl
  obtain ⟨b, hb⟩ := h.exists_divisor
  obtain ⟨pre, x, post, rfl, hx, hpost⟩ := exists_final_enable h.enables_last
  obtain ⟨w, rfl, hw⟩ := eq_cntl_of_enables hx
  refine ⟨h.exists_interruptsOff, h.exists_frameFormat, List.mem_iff_getElem?.mp h.muxTx, List.mem_iff_getElem?.mp h.muxRx,
    fun i j v u hi hj => ?_, ⟨b, hb, fun i hi => ?_, fun i u hi => ?_, fun j hj => ?_⟩,
    pre.length, w, by simp, hw, fun j hj => ?_, fun j v hj => ?_⟩
  · exact h.lt_of_stage_lt hi hj (by simp [InitStep.stage]) (by simp [InitStep.stage])
  · exact index_unique_of_filter_length h.one_divisor hi hb rfl rfl
  · exact h.lt_of_stage_lt hi hb (by simp [InitStep.stage]) (by simp [InitStep.stage])
  · obtain ⟨y, hj, hy⟩ := stage_mux hj
    exact h.lt_of_stage_lt hb hj (by decide) (hy ▸ by decide)
  · obtain ⟨y, hj, hy⟩ := stage_mux hj
    obtain hlt | ⟨-, rfl⟩ | hmem := getElem?_split hj
    · exact hlt
    · cases hy
    · exact absurd hy (hpost y hmem).2
  · obtain hlt | ⟨heq, -⟩ | hmem := getElem?_split hj
    · exact Nat.le_of_lt hlt
    · exact Nat.le_of_eq heq
    · cases (hpost _ hmem).1

end Sys2Proof.Machine

/-! # Errors, hangs and stops (60_exceptions.md) -/

namespace Sys2Proof.Machine

/-! ## A hang is not a fault (O41; R178) -/

/-- Polls after which the sequencer stands where it stood: they leave a trace only in the draws and the history. -/
theorem State.afterPolls_same {s : State} {q : Seq} (hs : s.seq = q) (n : Nat) :
    s.afterPolls n q
      = { s.afterDraws n with
          hist := s.hist ++ (List.range n).map fun k => .read (s.cfg.aux .lsr) (s.futureDraw k) } := by
  subst hs
  rfl

/-- Settles O41: the three polls are one shared operation, which repeats while the answers are not ready. -/
theorem pollHangsWhileNotReady : Obligations.PollHangsWhileNotReady := by
  intro i n s hpoll ⟨hlsr, _⟩ hn
  have hang {ready again : Seq} (hx : PollsAt i ready again) (hs : s.seq = again) : execFor i n s = _ :=
    (hx.execFor_notReady hs hlsr hn).trans (congrArg _ (State.afterPolls_same hs n))
  obtain ⟨b, rfl, hs⟩ | ⟨buf, p, rfl, hs⟩ | ⟨buf, p, b, rfl, hs⟩ := hpoll
  · exact hang (pollsAt_usend b) hs
  · exact hang (pollsAt_utext_cr buf p) hs
  · exact hang (pollsAt_utext buf p b) hs

/-! ## An error changes no state (O49; R171, R175) -/

/-- Settles O49: where a command other than URDY ends, it answers 0 or it answered an error code at once. -/
theorem errorsChangeNothing : Obligations.ErrorsChangeNothing := by
  intro i s t v hne hx hi hp hv
  have notOk (h : t.respPort = some 0) : s.seq = .idle ∧ t = s.answered v := by
    rw [hp] at h
    exact absurd (Option.some.inj h) hv
  have okOrOne (h : t.respPort = some 0 ∨ s.seq = .idle ∧ t = s.answered 1) : s.seq = .idle ∧ t = s.answered v := by
    obtain h | ⟨hs, rfl⟩ := h
    · exact notOk h
    · cases hp
      exact ⟨hs, rfl⟩
  cases i with
  | setfield bank index value w maxidx => exact failingSetfieldMakesNoAccess.1 bank index value w maxidx s t v hx hp hi hv
  | fsel pin f => exact okOrOne (gpioField_completes hx hi)
  | sethigh pin => exact okOrOne (gpioField_completes hx hi)
  | setlow pin => exact okOrOne (gpioField_completes hx hi)
  | pull pin m => exact okOrOne (gpioField_completes hx hi)
  | alt5 pin => exact okOrOne (execAlt5_completes hx hi)
  | uinit => exact notOk (execUinit_respPort hx hi)
  | urdy => exact absurd rfl hne
  | usend b => exact notOk (execUsend_respPort hx hi)
  | utext buf => exact notOk (execUtext_respPort hx hi)

/-! ## How a step stops (O57; R172, R173) -/

/-- The outcomes the spec gives a micro-step: a next state, or one of the two stops with its mark. What it leaves out is a refusal
for want of a meaning or of a micro-step. -/
inductive SpecOutcome : Out → Prop where
  | next (s : State) : SpecOutcome (.next s)
  | fault (k : FaultKind) (s : State) : SpecOutcome (faultWith k s)
  | refusal (k : RefusalKind) (s : State) : SpecOutcome (refuseWith k s)

/-- A fault among them carries a state with its mark (R172). -/
theorem SpecOutcome.fault_marked {r : Fault} (h : SpecOutcome (.fault r)) :
    (∃ a t, r = .unmapped a t ∧ t.fault = some (.unmapped a))
      ∨ (∃ t, r = .uartNotInitialized t ∧ t.fault = some .uartNotInitialized)
      ∨ ∃ t, r = .uartReinitialized t ∧ t.fault = some .uartReinitialized := by
  generalize ho : Host.Outcome.fault r = o at h
  cases h with
  | next s => cases ho
  | fault k s =>
    cases k with
    | unmapped a => cases ho; exact .inl ⟨a, _, rfl, rfl⟩
    | uartNotInitialized => cases ho; exact .inr (.inl ⟨_, rfl, rfl⟩)
    | uartReinitialized => cases ho; exact .inr (.inr ⟨_, rfl, rfl⟩)
  | refusal k s => exact (refuseWith_ne_fault k s r ho.symm).elim

/-- A refusal among them carries a state with its mark (R173). -/
theorem SpecOutcome.refusal_marked {r : Refusal} (h : SpecOutcome (.refused r)) :
    (∃ w t, r = .illegalCommand w t ∧ t.refusal = some (.illegalCommand w))
      ∨ (∃ a t, r = .readOfWriteOnlyAux a t ∧ t.refusal = some (.readOfWriteOnlyAux a))
      ∨ ∃ a t, r = .writeOfStatus a t ∧ t.refusal = some (.writeOfStatus a) := by
  generalize ho : Host.Outcome.refused r = o at h
  cases h with
  | next s => cases ho
  | fault k s => cases k <;> cases ho
  | refusal k s =>
    cases k with
    | illegalCommand w => cases ho; exact .inl ⟨w, _, rfl, rfl⟩
    | readOfWriteOnlyAux a => cases ho; exact .inr (.inl ⟨a, _, rfl, rfl⟩)
    | writeOfStatus a => cases ho; exact .inr (.inr ⟨a, _, rfl, rfl⟩)

section
variable {i : Instr} {s : State} {a v : Word}

/-! A shared operation has such an outcome where what follows it has. -/

theorem memRead_specOutcome {k : Word → State → Out} (hk : ∀ u s', SpecOutcome (k u s')) :
    SpecOutcome (memRead a s k) := by
  unfold memRead
  split
  · exact .fault _ _
  · exact hk _ _
  · exact hk _ _
  · exact hk _ _
  · exact hk _ _
  · exact .refusal _ _
  · exact .refusal _ _

theorem memWrite_specOutcome {j : State → Out} (hj : ∀ s', SpecOutcome (j s')) : SpecOutcome (memWrite a v s j) := by
  unfold memWrite
  split
  · exact .fault _ _
  · exact hj _
  · exact hj _
  · exact hj _
  · exact hj _
  · exact hj _
  · exact .refusal _ _

theorem fieldRead_specOutcome (bank index : Word) (w : BitVec 2) (s : State) : SpecOutcome (fieldRead bank index w s) :=
  memRead_specOutcome fun _ _ => .next _

theorem fieldWrite_specOutcome (bank index value : Word) (w : BitVec 2) (cur : Word) (s : State) :
    SpecOutcome (fieldWrite bank index value w cur s) :=
  memWrite_specOutcome fun _ => .next _

theorem pollTxReady_specOutcome (ready again : Seq) (s : State) : SpecOutcome (pollTxReady ready again s) :=
  memRead_specOutcome fun _ _ => .next _

theorem alt5Access_specOutcome {pin : BitVec 8} {m : Alt5Step} {more : Alt5Step → State → Out} {done : State → Out}
    (hm : ∀ m' s', SpecOutcome (more m' s')) (hd : ∀ s', SpecOutcome (done s')) :
    SpecOutcome (alt5Access pin m s more done) := by
  cases m with
  | pullRead => exact memRead_specOutcome fun cur => hm (.pullWrite cur)
  | pullWrite cur => exact memWrite_specOutcome (hm .fselRead)
  | fselRead => exact memRead_specOutcome fun cur => hm (.fselWrite cur)
  | fselWrite cur => exact memWrite_specOutcome hd

theorem initAfter_specOutcome (rest : List InitStep) (s : State) : SpecOutcome (initAfter rest s) := by
  cases rest with
  | nil => exact .next _
  | cons x l => exact .next _

theorem initAccess_specOutcome (todo : List InitStep) (m : Alt5Step) (s : State) : SpecOutcome (initAccess todo m s) := by
  unfold initAccess
  split
  · exact initAfter_specOutcome _ _
  · exact memWrite_specOutcome (initAfter_specOutcome _)
  · exact alt5Access_specOutcome (fun _ _ => .next _) (initAfter_specOutcome _)
  · exact alt5Access_specOutcome (fun _ _ => .next _) (initAfter_specOutcome _)

theorem textByte_specOutcome (p : Word) (s : State) : SpecOutcome (textByte p s) := by
  cases hp : s.readable p with
  | none => exact textByte_unreadable hp ▸ .fault _ _
  | some b =>
    by_cases hb : b = 0
    · subst hb
      exact textByte_terminator hp ▸ .next _
    · exact textByte_char hp hb ▸ .next _

/-! ## The micro-steps of each command have such an outcome -/

/-- Where command `i` has a micro-step: between commands, and at the positions of its own (10_state.md R22). -/
def HasMicroStep (i : Instr) (q : Seq) : Prop := q = .idle ∨ ownsSeq i q = true

theorem eq_fieldWrite_of_ownsSeq {q : Seq} (hi : ownsSeq i (.fieldWrite 0) = true) (h : ownsSeq i q = true) :
    ∃ cur, q = .fieldWrite cur := by
  cases i with
  | setfield | fsel | sethigh | setlow | pull =>
    cases q with
    | fieldWrite cur => exact ⟨cur, rfl⟩
    | _ => cases h
  | _ => cases hi

theorem exec_setfield_specOutcome {bank index value maxidx : Word} {w : BitVec 2}
    (h : HasMicroStep (.setfield bank index value w maxidx) s.seq) :
    SpecOutcome (exec (.setfield bank index value w maxidx) s) := by
  by_cases hw : w = 0
  · subst hw
    exact exec_setfield_width_zero .. ▸ .refusal _ _
  obtain hs | ho := h
  · by_cases hv : validate bank index value w maxidx = .ok
    · exact exec_setfield_start hw hs hv ▸ fieldRead_specOutcome ..
    · exact exec_setfield_fail hw hs rfl hv ▸ .next _
  · obtain ⟨cur, hs⟩ := eq_fieldWrite_of_ownsSeq rfl ho
    exact exec_setfield_write hw hs ▸ fieldWrite_specOutcome ..

theorem gpioField_specOutcome {bank value : Word} {pin : BitVec 8} {w : BitVec 2}
    (hi : ownsSeq i (.fieldWrite 0) = true) (h : HasMicroStep i s.seq) : SpecOutcome (gpioField i bank pin value w s) := by
  obtain hs | ho := h
  · by_cases hp : s.cfg.maxPin < pin.setWidth 32
    · exact gpioField_outOfRange hs hp ▸ .next _
    · exact gpioField_start hs (BitVec.not_lt.mp hp) ▸ fieldRead_specOutcome ..
  · obtain ⟨cur, hs⟩ := eq_fieldWrite_of_ownsSeq hi ho
    exact gpioField_write hs ▸ fieldWrite_specOutcome ..

theorem exec_alt5_specOutcome {pin : BitVec 8} (h : HasMicroStep (.alt5 pin) s.seq) : SpecOutcome (exec (.alt5 pin) s) := by
  obtain hs | ho := h
  · by_cases hp : s.cfg.maxPin < pin.setWidth 32
    · exact exec_alt5_outOfRange hs hp ▸ .next _
    · exact exec_alt5_start hs (BitVec.not_lt.mp hp) ▸ alt5Access_specOutcome (fun _ _ => .next _) fun _ => .next _
  · obtain ⟨m, hs⟩ := eq_alt5_of_ownsSeq_alt5 ho
    exact exec_alt5_go hs ▸ alt5Access_specOutcome (fun _ _ => .next _) fun _ => .next _

theorem exec_uinit_specOutcome (h : HasMicroStep .uinit s.seq) : SpecOutcome (exec .uinit s) := by
  obtain hs | ho := h
  · cases hu : s.uart with
    | ready => exact exec_uinit_ready hs hu ▸ .fault _ _
    | uninitialized => exact exec_uinit_start hs hu ▸ initAccess_specOutcome ..
  · cases hs : s.seq with
    | init todo m => exact exec_uinit_go hs ▸ initAccess_specOutcome ..
    | _ => rw [hs] at ho; cases ho

theorem exec_urdy_specOutcome (h : HasMicroStep .urdy s.seq) : SpecOutcome (exec .urdy s) := by
  obtain hs | ho := h
  · show SpecOutcome (execUrdy s)
    unfold execUrdy
    rw [hs]
    exact memRead_specOutcome fun _ _ => .next _
  · cases ho

theorem exec_usend_specOutcome {b : Byte} (h : HasMicroStep (.usend b) s.seq) : SpecOutcome (exec (.usend b) s) := by
  obtain hs | ho := h
  · cases hu : s.uart with
    | uninitialized => exact exec_usend_uninitialized hs hu ▸ .fault _ _
    | ready => exact exec_usend_start hs hu ▸ pollTxReady_specOutcome ..
  · cases hs : s.seq with
    | sendPoll => exact exec_usend_poll hs ▸ pollTxReady_specOutcome ..
    | sendWrite => exact exec_usend_write hs ▸ memWrite_specOutcome fun _ => .next _
    | _ => rw [hs] at ho; cases ho

theorem exec_utext_specOutcome {buf : Word} (h : HasMicroStep (.utext buf) s.seq) : SpecOutcome (exec (.utext buf) s) := by
  obtain hs | ho := h
  · cases hu : s.uart with
    | uninitialized => exact exec_utext_uninitialized hs hu ▸ .fault _ _
    | ready => exact exec_utext_start hs hu ▸ textByte_specOutcome ..
  · cases hs : s.seq with
    | textRead p => exact exec_utext_read hs ▸ textByte_specOutcome ..
    | textPollCr p => exact exec_utext_pollCr hs ▸ pollTxReady_specOutcome ..
    | textWriteCr p => exact exec_utext_writeCr hs ▸ memWrite_specOutcome fun _ => .next _
    | textPoll p b => exact exec_utext_poll hs ▸ pollTxReady_specOutcome ..
    | textWrite p b => exact exec_utext_write hs ▸ memWrite_specOutcome fun _ => .next _
    | _ => rw [hs] at ho; cases ho

/-- Where a command has a micro-step, it has one of the spec's outcomes. -/
theorem exec_specOutcome (h : HasMicroStep i s.seq) : SpecOutcome (exec i s) := by
  cases i with
  | setfield bank index value w maxidx => exact exec_setfield_specOutcome h
  | fsel pin f => exact exec_fsel f ▸ gpioField_specOutcome rfl h
  | sethigh pin => exact exec_sethigh ▸ gpioField_specOutcome rfl h
  | setlow pin => exact exec_setlow ▸ gpioField_specOutcome rfl h
  | pull pin m => exact exec_pull m ▸ gpioField_specOutcome rfl h
  | alt5 pin => exact exec_alt5_specOutcome h
  | uinit => exact exec_uinit_specOutcome h
  | urdy => exact exec_urdy_specOutcome h
  | usend b => exact exec_usend_specOutcome h
  | utext buf => exact exec_utext_specOutcome h

/-! ## A step under the invariant -/

theorem stepIdle_specOutcome (hs : s.seq = .idle) : SpecOutcome (stepIdle s) := by
  unfold stepIdle
  split
  · exact exec_specOutcome (.inl hs)
  · exact .refusal _ _
  · exact .next _

/-- A busy unit stands at a micro-step of the command its latches hold. -/
theorem State.Inv.stepBusy_specOutcome (h : s.Inv) (hs : s.seq ≠ .idle) : SpecOutcome (stepBusy s) := by
  obtain ⟨hi, -, -⟩ | ⟨i, -, hl, ho, -, -⟩ := h.in_step
  · exact absurd hi hs
  · rw [stepBusy, hl, latchedCommand_latchesOf]
    exact exec_specOutcome (.inr ho)

/-- A marked state repeats its stop, an idle unit can run any command, and a busy one the latched command. -/
theorem State.Inv.step_specOutcome (h : s.Inv) : SpecOutcome (step s) := by
  cases hf : s.fault with
  | some k => exact step_of_fault hf ▸ .fault _ _
  | none =>
    cases hr : s.refusal with
    | some r => exact step_of_refusal hf hr ▸ .refusal _ _
    | none =>
      by_cases hs : s.seq = .idle
      · exact step_idle ⟨hf, hr⟩ hs ▸ stepIdle_specOutcome hs
      · exact step_busy ⟨hf, hr⟩ hs ▸ h.stepBusy_specOutcome hs

end

/-- Settles O57: under the invariant a step has one of the spec's outcomes, and each stop among them sets its mark. -/
theorem stepStopsOnlyAsTheSpecSays : Obligations.StepStopsOnlyAsTheSpecSays := by
  intro s h
  have outcome := h.step_specOutcome
  exact ⟨fun r hr => (hr ▸ outcome).fault_marked, fun r hr => (hr ▸ outcome).refusal_marked⟩

end Sys2Proof.Machine

namespace Sys2Proof.Machine

/-- Without a whole command on the port an idle unit keeps its state (R190, assumption 7). -/
theorem stepIdle_of_incomplete {s : State} (hd : decode s.cmdPort = .incomplete) : stepIdle s = .next s := by
  rw [stepIdle, State.fetch, hd]

/-- Settles O9: an unmarked idle unit steps by what it fetches, which is no whole command. -/
theorem idleUnitWaitsForACommand : Obligations.IdleUnitWaitsForACommand := by
  intro s hm hs hd
  rw [step_idle hm hs, stepIdle_of_incomplete hd]

end Sys2Proof.Machine
